-- ==== Sys2Proof/Word.lean ====
section
/-! DEFINITION. The words of WW-CODEC: the 32-bit host word and the 8-bit byte (spec 00_scope.md R6). -/

namespace Sys2Proof

/-- The host data word, the integer operand and the integer result: 32 bits (R6). -/
abbrev Word := BitVec 32

/-- A stream byte or a buffer byte: 8 bits (R6). -/
abbrev Byte := BitVec 8

end Sys2Proof
end

