-- ==== Sys2Proof/Syntax.lean ====
section
/-! DEFINITION. The commands of WW-CODEC (spec 30_encoding.md R71 to R75, opcode_table.json): one constructor a row. -/

namespace Sys2Proof

/-- The two channels of the block (R4).  A command word runs on the channel whose CMD register it is written to (R71). -/
inductive Channel where
  | enc
  | dec
deriving DecidableEq, Repr, Inhabited

/-- The twelve commands (R73, R74).  The one immediate is the 6-bit field N, taken as it stands (R75). -/
inductive Instr where
  /-- ENC.ASCII, source WriteAscii (R133). -/
  | encAscii
  /-- ENC.UTF8, source WriteUtf8 (R134). -/
  | encUtf8
  /-- ENC.RAW, source WriteRaw (R135). -/
  | encRaw
  /-- ENC.AUTO, source WriteEncoded (R136). -/
  | encAuto
  /-- ENC.SYM, source WriteSymbol (R137). -/
  | encSym
  /-- ENC.PUTBITS n (R101). -/
  | encPutbits (n : BitVec 6)
  /-- ENC.ALIGN (R102). -/
  | encAlign
  /-- ENC.RESET (R103). -/
  | encReset
  /-- DEC.VALUE, source ReadSymbol (R140). -/
  | decValue
  /-- DEC.GETBITS n (R104). -/
  | decGetbits (n : BitVec 6)
  /-- DEC.ALIGN (R105). -/
  | decAlign
  /-- DEC.RESET (R106). -/
  | decReset
deriving DecidableEq, Repr, Inhabited

/-- The channel a command runs on (R73, R74). -/
def Instr.channel : Instr → Channel
  | .encAscii => .enc
  | .encUtf8 => .enc
  | .encRaw => .enc
  | .encAuto => .enc
  | .encSym => .enc
  | .encPutbits _ => .enc
  | .encAlign => .enc
  | .encReset => .enc
  | .decValue => .dec
  | .decGetbits _ => .dec
  | .decAlign => .dec
  | .decReset => .dec

end Sys2Proof
end

