-- ==== Sys2Proof/WellFormed.lean ====
section
/-! DEFINITION. Which commands are well formed by their own fields: the width N of PUTBITS and GETBITS is 1..32
(spec 30_encoding.md R72, R76, R77).  The one legality condition that reads a register (TLEN against TXT_MAX) is the
command frame's (Machine/Operands.lean). -/

namespace Sys2Proof

/-- R76: a field width N is 1..32. -/
def widthOk (n : BitVec 6) : Bool := decide (1 ≤ n.toNat) && decide (n.toNat ≤ 32)

/-- The fields of the command are legal (R76): N = 1..32 for PUTBITS and GETBITS; the others have no field. -/
def Instr.wellFormed : Instr → Bool
  | .encAscii => true
  | .encUtf8 => true
  | .encRaw => true
  | .encAuto => true
  | .encSym => true
  | .encPutbits n => widthOk n
  | .encAlign => true
  | .encReset => true
  | .decValue => true
  | .decGetbits n => widthOk n
  | .decAlign => true
  | .decReset => true

end Sys2Proof
end

