-- ==== Sys2Proof/Decode.lean ====
section
/-! DEFINITION. Command words (spec 30_encoding.md R71 to R78): the decoder, the encoder written from the same opcode
maps, the legality predicate of R76, and the opcode table's rows as match and mask. -/

namespace Sys2Proof

/-- Why a word is no command of a channel (R77), by name. -/
inductive DecodeError where
  /-- RSV (bits 31:14) is not 0. -/
  | reservedField
  /-- N (bits 13:8) is not 0 with an OP other than 0x06. -/
  | strayWidth
  /-- OP is reserved on the channel. -/
  | reservedOpcode
deriving DecidableEq, Repr, Inhabited

/-- Field OP, bits 7:0 (R72). -/
def opField (w : Word) : Byte := w.extractLsb' 0 8

/-- Field N, bits 13:8 (R72). -/
def nField (w : Word) : BitVec 6 := w.extractLsb' 8 6

/-- Field RSV, bits 31:14 (R72). -/
def rsvField (w : Word) : BitVec 18 := w.extractLsb' 14 18

/-- The encoder's opcode map without PUTBITS (R73). -/
def encOpcode (op : Byte) : Option Instr :=
  if op = 0x01#8 then some .encAscii
  else if op = 0x02#8 then some .encUtf8
  else if op = 0x03#8 then some .encRaw
  else if op = 0x04#8 then some .encAuto
  else if op = 0x05#8 then some .encSym
  else if op = 0x07#8 then some .encAlign
  else if op = 0x0F#8 then some .encReset
  else none

/-- The decoder channel's opcode map without GETBITS (R74): it has no opcodes 0x02 to 0x05. -/
def decOpcode (op : Byte) : Option Instr :=
  if op = 0x01#8 then some .decValue
  else if op = 0x07#8 then some .decAlign
  else if op = 0x0F#8 then some .decReset
  else none

/-- The command a word is on a channel, by the rows of R73 and R74 (R78: the same rows as opcode_table.json, whose
mask leaves every N to PUTBITS and GETBITS; that N is 1..32 is the frame's legality check, R76). -/
def decode (ch : Channel) (w : Word) : Except DecodeError Instr :=
  if rsvField w ≠ 0 then .error .reservedField
  else if opField w = 0x06#8 then
    match ch with
    | .enc => .ok (.encPutbits (nField w))
    | .dec => .ok (.decGetbits (nField w))
  else if nField w ≠ 0 then .error .strayWidth
  else
    match (match ch with | .enc => encOpcode (opField w) | .dec => decOpcode (opField w)) with
    | some i => .ok i
    | none => .error .reservedOpcode

/-- The word whose fields are OP and N with RSV = 0 (R72). -/
def commandWord (op : Byte) (n : BitVec 6) : Word := (0 : BitVec 18) ++ n ++ op

/-- The command word of a command (R73, R74). -/
def encode : Instr → Word
  | .encAscii => commandWord 0x01 0
  | .encUtf8 => commandWord 0x02 0
  | .encRaw => commandWord 0x03 0
  | .encAuto => commandWord 0x04 0
  | .encSym => commandWord 0x05 0
  | .encPutbits n => commandWord 0x06 n
  | .encAlign => commandWord 0x07 0
  | .encReset => commandWord 0x0F 0
  | .decValue => commandWord 0x01 0
  | .decGetbits n => commandWord 0x06 n
  | .decAlign => commandWord 0x07 0
  | .decReset => commandWord 0x0F 0

/-- Legal(ch, w) of R76, written from the rule's own words: w on its fields, TLEN against TXT_MAX for a text opcode. -/
def legalWord (ch : Channel) (tlen txtMax : Nat) (w : Word) : Bool :=
  match ch with
  | .enc =>
    decide (rsvField w = 0) &&
    ((decide (opField w ∈ [0x01#8, 0x02#8, 0x03#8, 0x04#8, 0x05#8, 0x07#8, 0x0F#8]) && decide (nField w = 0)) ||
      (decide (opField w = 0x06#8) && decide (1 ≤ (nField w).toNat) && decide ((nField w).toNat ≤ 32))) &&
    (decide (opField w ∉ [0x01#8, 0x02#8, 0x03#8, 0x04#8]) || decide (tlen ≤ txtMax))
  | .dec =>
    decide (rsvField w = 0) &&
    ((decide (opField w ∈ [0x01#8, 0x07#8, 0x0F#8]) && decide (nField w = 0)) ||
      (decide (opField w = 0x06#8) && decide (1 ≤ (nField w).toNat) && decide ((nField w).toNat ≤ 32)))

/-- The match value of a command's row of opcode_table.json. -/
def Instr.rowMatch : Instr → Word
  | .encAscii => 0x00000001
  | .encUtf8 => 0x00000002
  | .encRaw => 0x00000003
  | .encAuto => 0x00000004
  | .encSym => 0x00000005
  | .encPutbits _ => 0x00000006
  | .encAlign => 0x00000007
  | .encReset => 0x0000000F
  | .decValue => 0x00000001
  | .decGetbits _ => 0x00000006
  | .decAlign => 0x00000007
  | .decReset => 0x0000000F

/-- The mask of a command's row of opcode_table.json. -/
def Instr.rowMask : Instr → Word
  | .encAscii => 0xFFFFFFFF
  | .encUtf8 => 0xFFFFFFFF
  | .encRaw => 0xFFFFFFFF
  | .encAuto => 0xFFFFFFFF
  | .encSym => 0xFFFFFFFF
  | .encPutbits _ => 0xFFFFC0FF
  | .encAlign => 0xFFFFFFFF
  | .encReset => 0xFFFFFFFF
  | .decValue => 0xFFFFFFFF
  | .decGetbits _ => 0xFFFFC0FF
  | .decAlign => 0xFFFFFFFF
  | .decReset => 0xFFFFFFFF

/-- What the decoder reads from an instruction of `nbits` bits whose bits are `w` (bits above nbits are 0).
A word alone does not name its channel (R71: the register it is written to does), so this reads it as a word written
to ENC_CMD: every legal DEC word is a legal ENC word too (log entry 8). -/
def decodeTableWord (nbits w : Nat) : Option Instr :=
  match decode .enc (BitVec.ofNat 32 (w % 2 ^ nbits)) with
  | .ok i => some i
  | .error _ => none

end Sys2Proof
end

