-- ==== Sys2Proof/Machine/Bits.lean ====
section
/-! DEFINITION. Bit strings (spec 00_scope.md R9): lists of bits, the first written and read first. -/

namespace Sys2Proof.Machine

/-- bits_n(v) of R9: the n low bits of v, most significant first. -/
def bitsOf : Nat → Word → List Bool
  | 0, _ => []
  | n + 1, v => v.getLsbD n :: bitsOf n v

/-- The unsigned value of a bit string read most significant bit first, continuing from an accumulator (R54). -/
def valueFrom : Nat → List Bool → Nat
  | v, [] => v
  | v, b :: bs => valueFrom (2 * v + b.toNat) bs

/-- The unsigned value of a bit string (R54). -/
def valueOf (bs : List Bool) : Nat := valueFrom 0 bs

/-- The eight bits of a stream byte in stream order: bit 7 first (R53). -/
def byteBits (b : Byte) : List Bool := bitsOf 8 (b.setWidth 32)

end Sys2Proof.Machine
end

