-- ==== Sys2Proof/Config.lean ====
section
/-! DEFINITION. What an implementation or the environment fixes: the two answer alphabets of SINK and SOURCE, the
named parameters of R7, and the free values (constants without a body: no proof can see what they are). -/

namespace Sys2Proof

/-- SINK's answer to one Push (R5, R10): the byte was accepted, or it was refused. -/
inductive PushAnswer where
  | ok
  | fail
deriving DecidableEq, Repr, Inhabited

/-- SOURCE's answer to one Pull (R5, R10): a byte, or a failure.  End of input is a failure (R151, D27). -/
inductive PullAnswer where
  | data (b : Byte)
  | fail
deriving DecidableEq, Repr, Inhabited

/-- The named parameters of R7 (and U10's aliasing): fixed for one machine, so no step changes them.
They are plain data carried in State so that every statement about all states covers every value of them. -/
structure Params where
  /-- TXT_MAX: the capacity of ENC.TBUF in bytes, 1..16384 (R7, D13). -/
  txtMax : Nat
  /-- RES_MAX: the capacity of DEC.RBUF in bytes, 1..16384 (R7, D14). -/
  resMax : Nat
  /-- BASE: the platform address of host offset 0x0000 (R7, R69). -/
  base : Nat
  /-- Whether addresses beyond the 64 KiB window alias it (R69, U10). -/
  aliased : Bool
deriving DecidableEq, Repr

/-- The ranges R7 gives the two capacities. -/
def Params.wf (p : Params) : Bool :=
  decide (1 ≤ p.txtMax) && decide (p.txtMax ≤ 16384) && decide (1 ≤ p.resMax) && decide (p.resMax ≤ 16384)

/-- The defaults of R7: TXT_MAX = RES_MAX = 4096.  BASE and the aliasing have no default in the spec:
DESIGN CHOICE, log entry 3. -/
def Params.default : Params where
  txtMax := 4096
  resMax := 4096
  base := 0
  aliased := false

/-- FREE VALUE (log entry 4): what SINK answers to its k-th Push request when no answer is scripted (R5, U11). -/
opaque Config.pushAnswer : Nat → PushAnswer

/-- FREE VALUE (log entry 4): what SOURCE answers to its k-th Pull request when no answer is scripted (R5, U11). -/
opaque Config.pullAnswer : Nat → PullAnswer

/-- FREE VALUE (log entry 5): byte i of ENC.TBUF in the reset epoch e, until the host writes it (R47, U7). -/
opaque Config.tbufByte : Nat → Nat → Byte

/-- FREE VALUE (log entry 6): byte i of DEC.RBUF where it is no part of a valid result, at the k-th use (R28, R43, U6). -/
opaque Config.rbufByte : Nat → Nat → Byte

/-- FREE VALUE (log entry 7): the unspecified fields of a STATUS read that returns BUSY = 1, at the k-th use (R45, U8). -/
opaque Config.busyStatus : Nat → Word

/-- FREE VALUE (log entry 7): a BITCNT read of a busy channel, at the k-th use (R45, U8). -/
opaque Config.busyBitcnt : Nat → Word

end Sys2Proof
end

