-- ==== Sys2Proof/Machine/State.lean ====
section
/-! DEFINITION. The state of WW-CODEC as plain data (spec 10_state.md R17 to R51, 20_memory.md R52), the five agents'
data (00_scope.md R5), and the state after reset (R46, R165, R166). -/

namespace Sys2Proof.Machine

/-- A byte array as (index, byte) cells.  An index with no cell reads as no value: nothing has written that byte. -/
abbrev Memory := List Host.Cell

/-- SINK as ENC sees it (R5): the output stream's end of the block.  The script holds the answers the environment
has fixed; beyond it every answer is free (Config.pushAnswer). -/
structure Sink where
  /-- The answers to the next Pushes, in order (R5, U11: a free input). -/
  script : List PushAnswer
  /-- How many Pushes have been requested since power-on.  The model's own counter. -/
  asked : Nat
  /-- Every byte SINK has accepted, oldest first (R52 space 2).  A reset tells SINK nothing (R103, R167). -/
  accepted : List Byte
deriving DecidableEq, Repr

/-- SOURCE as DEC sees it (R5): the input stream's end of the block. -/
structure Source where
  /-- The answers to the next Pulls, in order (R5, U11: a free input). -/
  script : List PullAnswer
  /-- How many Pulls have been requested since power-on.  The model's own counter. -/
  asked : Nat
  /-- Every byte DEC has pulled, oldest first (R52 space 3). -/
  pulled : List Byte
deriving DecidableEq, Repr

/-- The encoder channel (R20) with the stream it exclusively owns (R4). -/
structure Encoder where
  /-- The command word that runs; BUSY (R26) is 1 exactly while there is one. -/
  running : Option Word
  /-- ERR, the sticky error flag (R24). -/
  err : Bool
  /-- ECODE, 3 bits (R25). -/
  ecode : BitVec 3
  /-- ACC, 7 bits: the pending bits of the partial output byte (R21). -/
  acc : BitVec 7
  /-- NBITS, 3 bits: how many bits ACC holds (R21). -/
  nbits : BitVec 3
  /-- BITCNT, 32 bits: bits written since the channel's last reset, modulo 2^32 (R27). -/
  bitcnt : Word
  /-- ARG, 32 bits: the integer operand (R33). -/
  arg : Word
  /-- TLEN, 15 bits: the length of the text operand (R34). -/
  tlen : BitVec 15
  /-- TBUF: the bytes the host has written since block reset (R36, R47). -/
  tbuf : Memory
  /-- Which block reset TBUF's unwritten bytes date from: the index of their free values.  The model's own field. -/
  tbufEpoch : Nat
  /-- SINK, the receiver of the output stream. -/
  sink : Sink
  /-- How many bytes SINK had accepted when this stream began: stream byte j is accepted[outBase + j] (R52 space 2,
  "numbered from ENC's last reset").  The model's own field. -/
  outBase : Nat
deriving DecidableEq, Repr

/-- The decoder channel (R22) with the stream it exclusively owns (R4). -/
structure Decoder where
  /-- The command word that runs; BUSY (R26) is 1 exactly while there is one. -/
  running : Option Word
  /-- ERR, the sticky error flag (R24). -/
  err : Bool
  /-- ECODE, 3 bits (R25). -/
  ecode : BitVec 3
  /-- CUR, 8 bits: the input byte being consumed (R23). -/
  cur : Byte
  /-- NBITS, 3 bits: how many bits of CUR are unconsumed (R23). -/
  nbits : BitVec 3
  /-- BITCNT, 32 bits: bits consumed since the channel's last reset, modulo 2^32 (R27). -/
  bitcnt : Word
  /-- RVALID (R28). -/
  rvalid : Bool
  /-- RKIND, 3 bits (R29). -/
  rkind : BitVec 3
  /-- RLEN, 15 bits (R40). -/
  rlen : BitVec 15
  /-- RINT, 32 bits (R41). -/
  rint : Word
  /-- RBUF: the bytes of the valid result (R43); every other byte is unspecified. -/
  rbuf : Memory
  /-- SOURCE, the giver of the input stream. -/
  source : Source
  /-- How many bytes had been pulled when this stream began: stream byte j is pulled[inBase + j] (R52 space 3).
  The model's own field. -/
  inBase : Nat
deriving DecidableEq, Repr

/-- BUSY of the encoder channel (R26). -/
def Encoder.busy (e : Encoder) : Bool := e.running.isSome

/-- BUSY of the decoder channel (R26). -/
def Decoder.busy (d : Decoder) : Bool := d.running.isSome

/-- A word of the host register window, by name (R30).  A buffer window is numbered by its words (R89). -/
inductive Reg where
  | encStatus
  | encCmd
  | encArg
  | encTlen
  | encBitcnt
  | encTbuf (k : Nat)
  | decStatus
  | decCmd
  | decRkind
  | decRlen
  | decRint
  | decBitcnt
  | decRbuf (k : Nat)
  /-- Every other offset (R44). -/
  | unmapped (off : Nat)
deriving DecidableEq, Repr

/-- A host access as the platform issues it: an address, a width in bytes, and for a write the value (R10). -/
inductive MemAccess where
  | read (addr width : Nat)
  | write (addr width : Nat) (v : Word)
deriving DecidableEq, Repr

/-- A host access the block has received: a whole aligned word of the window, by name (R58, R61). -/
inductive HostOp where
  | read (r : Reg)
  | write (r : Reg) (v : Word)
deriving DecidableEq, Repr

/-- The host side: accesses that have arrived and are not yet performed, oldest first (R63, R66), and the values the
performed reads returned, oldest first. -/
structure HostPort where
  queue : List HostOp
  answers : List (Reg × Word)
deriving DecidableEq, Repr

/-- Which agent moves next (R5, R163): one entry is one step.  The list is an input of the model, so every
interleaving of HOST, ENC, DEC and the platform is some schedule. -/
inductive Turn where
  /-- A host agent issues an access: it arrives at the block (R66). -/
  | issue (a : MemAccess)
  /-- The block performs the oldest arrived access that is not held (R63). -/
  | bus
  /-- ENC runs its command to its end, with every SINK exchange inside it (R16, R26). -/
  | enc
  /-- DEC runs its command to its end, with every SOURCE exchange inside it (R16, R26). -/
  | dec
  /-- The platform asserts block reset (R165, R167): a running ENC command had made `pushes` exchanges and a running
  DEC command `pulls`; `race` says whether a held BITCNT read races with the reset and is answered (U8). -/
  | blockReset (pushes pulls : Nat) (race : Bool)
deriving DecidableEq, Repr

/-- The whole machine. -/
structure State where
  /-- The parameters of R7; no step changes them. -/
  params : Params
  /-- The encoder channel and its stream. -/
  enc : Encoder
  /-- The decoder channel and its stream. -/
  dec : Decoder
  /-- The host side. -/
  host : HostPort
  /-- Which agent moves in each of the next steps. -/
  schedule : List Turn
  /-- How many free values have been used.  The model's own counter (R45, U6, U8). -/
  free : Nat
deriving DecidableEq, Repr

/-- Why the machine stops. -/
inductive Fault where
  /-- Raised by the issue of a host access whose address is not in the block's window (R30, R69): no rule gives the
  block an effect for it.  Safe: the model stops where the platform would send the access elsewhere. -/
  | outsideWindow
deriving DecidableEq, Repr

/-- Why an input has no meaning in the model. -/
inductive Refusal where
  /-- Raised by exec for an instruction without a meaning; no arm is left that does.  Safe. -/
  | notModelled (mnemonic : String)
  /-- Raised by the issue of a host access that is not 4 bytes wide (R58, U9: "a model refuses it").  Safe. -/
  | accessWidth
  /-- Raised by the issue of a host access at an offset that is not a multiple of 4 (R58, U9).  Safe. -/
  | accessAlignment
deriving DecidableEq, Repr

/-- The encoder channel after block reset (R46): TBUF's bytes are unspecified, of the epoch given. -/
def Encoder.fresh (sink : Sink) (epoch : Nat) : Encoder where
  running := none
  err := false
  ecode := 0
  acc := 0
  nbits := 0
  bitcnt := 0
  arg := 0
  tlen := 0
  tbuf := []
  tbufEpoch := epoch
  sink := sink
  outBase := sink.accepted.length

/-- The decoder channel after block reset (R46): RKIND is 7, RBUF's bytes are unspecified. -/
def Decoder.fresh (source : Source) : Decoder where
  running := none
  err := false
  ecode := 0
  cur := 0
  nbits := 0
  bitcnt := 0
  rvalid := false
  rkind := 7
  rlen := 0
  rint := 0
  rbuf := []
  source := source
  inBase := source.pulled.length

/-- The machine right after power-on reset (R46, R165, R166): both channels fresh, no byte moved, no host access
arrived, no turn scheduled, no SINK or SOURCE answer fixed. -/
def State.reset : State where
  params := Params.default
  enc := Encoder.fresh ⟨[], 0, []⟩ 0
  dec := Decoder.fresh ⟨[], 0, []⟩
  host := ⟨[], []⟩
  schedule := []
  free := 0

end Sys2Proof.Machine
end

