-- ==== Sys2Proof/Machine/Flags.lean ====
section
/-! DEFINITION. Error codes and the STATUS words (spec 10_state.md R24, R25, R31, R37, 60_exceptions.md R150).  ERR is
the only flag of a channel; no command computes any other. -/

namespace Sys2Proof.Machine

/-- The error codes of R150 that are not NONE. -/
inductive ErrorCode where
  /-- SINK refused a byte, or SOURCE answered FAIL (R151). -/
  | io
  /-- Reserved for an unrecognized tag (R152): the tables are complete, so it is never raised (R147). -/
  | proto
  /-- An illegal command word (R107). -/
  | illegal
  /-- A text result longer than RES_MAX bytes (R141). -/
  | capacity
deriving DecidableEq, Repr, Inhabited

/-- The value ECODE records (R25, R150). -/
def ErrorCode.code : ErrorCode → BitVec 3
  | .io => 1
  | .proto => 2
  | .illegal => 3
  | .capacity => 4

/-- The STATUS layout of R31 and R37: bit 0 BUSY, bit 1 ERR, bits 6:4 ECODE, bits 10:8 NBITS, bit 12 RVALID (0 on
ENC), every other bit 0. -/
def statusWord (busy err : Bool) (ecode nbits : BitVec 3) (rvalid : Bool) : Word :=
  (0 : BitVec 19) ++ BitVec.ofBool rvalid ++ (0 : BitVec 1) ++ nbits ++ (0 : BitVec 1) ++ ecode ++ (0 : BitVec 2)
    ++ BitVec.ofBool err ++ BitVec.ofBool busy

/-- ENC_STATUS (R31); while BUSY = 1 its ERR, ECODE and NBITS are taken from the free word (R45). -/
def Encoder.statusWord (e : Encoder) (free : Word) : Word :=
  if e.busy then
    Machine.statusWord true (free.getLsbD 1) (free.extractLsb' 4 3) (free.extractLsb' 8 3) false
  else Machine.statusWord false e.err e.ecode e.nbits false

/-- DEC_STATUS (R37); while BUSY = 1 its ERR, ECODE, NBITS and RVALID are taken from the free word (R45). -/
def Decoder.statusWord (d : Decoder) (free : Word) : Word :=
  if d.busy then
    Machine.statusWord true (free.getLsbD 1) (free.extractLsb' 4 3) (free.extractLsb' 8 3) (free.getLsbD 12)
  else Machine.statusWord false d.err d.ecode d.nbits d.rvalid

end Sys2Proof.Machine
end

