-- ==== Sys2Proof/Machine/Tables.lean ====
section
/-! DEFINITION. The three read-only code tables (spec 10_state.md R19, 41_prefix_code.md R125, R128, R129), as
constants.  The listings are written as runs of consecutive symbols whose codes have one length and consecutive values. -/

namespace Sys2Proof.Machine

/-- One table entry (R19): LEN, 4 bits, and CODE, 11 bits, whose low LEN bits are the code. -/
structure Code where
  len : BitVec 4
  code : BitVec 11
deriving DecidableEq, Repr, Inhabited

/-- A sealed table: entry v is the code of symbol v. -/
abbrev CodeTable := List Code

/-- `count` consecutive symbols with codes of `len` bits, from `first` up by one. -/
def codeRun : Nat → Nat → Nat → CodeTable
  | 0, _, _ => []
  | count + 1, len, first => ⟨BitVec.ofNat 4 len, BitVec.ofNat 11 first⟩ :: codeRun count len (first + 1)

/-- TAGC (R125): ASCII-text, UTF8-style, raw/binary, integer-symbol. -/
def tagc : CodeTable :=
  codeRun 1 1 0b0 ++ codeRun 1 2 0b10 ++ codeRun 1 3 0b110 ++ codeRun 1 3 0b111

/-- ASCC (R128): symbols 0..127 and the terminator 128. -/
def ascc : CodeTable :=
  codeRun 6 11 0b11111111010      -- 0..5
  ++ codeRun 42 10 0b1111000000   -- 6..47
  ++ codeRun 10 7 0b1101110       -- 48..57, the digits
  ++ codeRun 7 10 0b1111101010    -- 58..64
  ++ codeRun 26 6 0b000110        -- 65..90, upper case
  ++ codeRun 6 10 0b1111110001    -- 91..96
  ++ codeRun 23 6 0b100000        -- 97..119, a to w
  ++ codeRun 3 5 0b00000          -- 120..122, x y z
  ++ codeRun 6 10 0b1111110111    -- 123..127 and 128

/-- FBC (R129): symbols 0..255 and the terminator 256. -/
def fbc : CodeTable :=
  codeRun 48 11 0b11110111110     -- 0..47
  ++ codeRun 10 8 0b10011100      -- 48..57, the digits
  ++ codeRun 7 11 0b11111101110   -- 58..64
  ++ codeRun 26 7 0b0110100       -- 65..90, upper case
  ++ codeRun 6 11 0b11111110101   -- 91..96
  ++ codeRun 26 6 0b000000        -- 97..122, lower case
  ++ codeRun 5 11 0b11111111011   -- 123..127
  ++ codeRun 93 9 0b110010010     -- 128..220
  ++ codeRun 35 8 0b10100110      -- 221..255
  ++ codeRun 1 10 0b1111011110    -- 256

theorem tagc_length : tagc.length = 4 := by decide +kernel
theorem ascc_length : ascc.length = 129 := by decide +kernel
theorem fbc_length : fbc.length = 257 := by decide +kernel

/-- The longest code of a table (R6: 3 bits in TAGC, 11 in ASCC and FBC). -/
def CodeTable.longest (t : CodeTable) : Nat := t.foldl (fun m c => max m c.len.toNat) 0

/-- The symbol whose code has exactly l bits and the value acc, if there is one (R120's test). -/
def CodeTable.symbolOf (t : CodeTable) (l acc : Nat) : Option Nat :=
  t.findIdx? (fun c => decide (c.len.toNat = l) && decide (c.code.toNat = acc))

end Sys2Proof.Machine
end

