-- ==== Sys2Proof/Machine/Ops.lean ====
section
/-! DEFINITION. The named operations over the buffers, the streams and the channel registers: byte arrays, Push and
Pull, the bit packer and unpacker (spec 40_channel.md R95 to R100), symbol encode and decode (41_prefix_code.md R119,
R120), entering and leaving the error state (60_exceptions.md R154, R158), and the command frame (R93). -/

namespace Sys2Proof.Machine

/-! ### Byte arrays -/

/-- The byte written at index i, or no value where nothing has written. -/
def Memory.read : Memory → Nat → Option Byte
  | [], _ => none
  | c :: m, i => if c.1 = i then some c.2 else Memory.read m i

/-- Writes a byte at index i, keeping the indexes strictly rising. -/
def Memory.write : Memory → Nat → Byte → Memory
  | [], i, b => [(i, b)]
  | c :: m, i, b =>
    if i < c.1 then (i, b) :: c :: m
    else if i = c.1 then (i, b) :: m
    else c :: Memory.write m i b

/-- Only the bytes below index n keep a value. -/
def Memory.truncate (m : Memory) (n : Nat) : Memory := m.filter (fun c => decide (c.1 < n))

/-- Every index of the array is above i. -/
def Memory.above (i : Nat) (m : Memory) : Bool := m.all (fun c => decide (i < c.1))

/-- The canonical form: indexes strictly rising.  (An index with no cell reads as no value, which no cell equals.) -/
def Memory.wf : Memory → Bool
  | [] => true
  | c :: m => Memory.above c.1 m && Memory.wf m

/-! ### SINK and SOURCE -/

/-- SINK's answer to the next Push (R5): the scripted one, else a free one. -/
def Sink.answer (s : Sink) : PushAnswer :=
  match s.script with
  | a :: _ => a
  | [] => Config.pushAnswer s.asked

/-- Push(b) on SINK's side: the answer is used up, and an accepted byte is kept (R95; a refused byte is lost). -/
def Sink.push (s : Sink) (b : Byte) : Sink where
  script := s.script.tail
  asked := s.asked + 1
  accepted :=
    match s.answer with
    | .ok => s.accepted ++ [b]
    | .fail => s.accepted

/-- SOURCE's answer to the next Pull (R5): the scripted one, else a free one. -/
def Source.answer (s : Source) : PullAnswer :=
  match s.script with
  | a :: _ => a
  | [] => Config.pullAnswer s.asked

/-- Pull() on SOURCE's side: the answer is used up, and a delivered byte is kept. -/
def Source.pull (s : Source) : Source where
  script := s.script.tail
  asked := s.asked + 1
  pulled :=
    match s.answer with
    | .data b => s.pulled ++ [b]
    | .fail => s.pulled

/-! ### Command bodies

A piece of a command's pseudocode either answers or raises an error code; either way it leaves the channel as the
statements before that point made it (R11, R154: nothing is rolled back). -/

/-- A piece of an ENC command's pseudocode. -/
abbrev EncM := EStateM ErrorCode Encoder

/-- A piece of a DEC command's pseudocode. -/
abbrev DecM := EStateM ErrorCode Decoder

/-! ### Bit packer -/

/-- PutBit(b) (R95). -/
def putBit (b : Bool) : EncM Unit := fun e =>
  if e.nbits = 7 then
    let byte : Byte := e.acc ++ BitVec.ofBool b
    let e' := { e with bitcnt := e.bitcnt + 1, acc := 0, nbits := 0, sink := e.sink.push byte }
    match e.sink.answer with
    | .ok => .ok () e'
    | .fail => .error .io e'
  else
    .ok () { e with
      bitcnt := e.bitcnt + 1
      acc := (e.acc <<< 1) ||| (BitVec.ofBool b).setWidth 7
      nbits := e.nbits + 1 }

/-- PutBit for each bit of a bit string in order, up to the first raise. -/
def putBitString : List Bool → EncM Unit
  | [] => pure ()
  | b :: bs => do
    putBit b
    putBitString bs

/-- PutBits(n, v) (R96): bits_n(v), most significant bit first. -/
def putBits : Nat → Word → EncM Unit
  | 0, _ => pure ()
  | n + 1, v => do
    putBit (v.getLsbD n)
    putBits n v

/-- EncAlign() (R97): 8 - NBITS zero bits when NBITS > 0, nothing when NBITS = 0. -/
def encAlignBits : EncM Unit := fun e =>
  if e.nbits = 0 then .ok () e else putBits (8 - e.nbits.toNat) 0 e

/-! ### Bit unpacker -/

/-- GetBit() (R98). -/
def getBit : DecM Bool := fun d =>
  if d.nbits = 0 then
    match d.source.answer with
    | .fail => .error .io { d with source := d.source.pull }
    | .data b =>
      .ok (b.getLsbD 7) { d with source := d.source.pull, cur := b, nbits := 7, bitcnt := d.bitcnt + 1 }
  else
    .ok (d.cur.getLsbD (d.nbits - 1).toNat) { d with nbits := d.nbits - 1, bitcnt := d.bitcnt + 1 }

/-- The loop of GetBits: n more bits after the value v. -/
def getBitsFrom : Nat → Word → DecM Word
  | 0, v => pure v
  | n + 1, v => do
    let b ← getBit
    getBitsFrom n ((v <<< 1) ||| (BitVec.ofBool b).setWidth 32)

/-- GetBits(n) (R99): n bits, the first the most significant, as an unsigned value. -/
def getBits (n : Nat) : DecM Word := getBitsFrom n 0

/-- DecAlign() (R100): the unconsumed bits of CUR are discarded and counted; nothing is pulled. -/
def decAlignBits : DecM Unit := fun d =>
  .ok () { d with bitcnt := d.bitcnt + d.nbits.setWidth 32, nbits := 0 }

/-! ### One symbol -/

/-- CodeEnc(T, v) (R119).  The precondition 0 <= v < n(T) is v's type, so no symbol outside the table occurs (U5). -/
def codeEnc (t : CodeTable) (v : Fin t.length) : EncM Unit :=
  putBits (t.get v).len.toNat ((t.get v).code.setWidth 32)

/-- The loop of CodeDec (R120) at length l, with `more` bits left up to the table's longest code.  No symbol after the
longest code is the unrecognized code of error class PROTO (R152); a complete table never gets there (R118). -/
def codeDecFrom (t : CodeTable) : Nat → Nat → Nat → DecM Nat
  | more, l, acc =>
    match t.symbolOf l acc with
    | some v => pure v
    | none =>
      match more with
      | 0 => throw .proto
      | more + 1 => do
        let b ← getBit
        codeDecFrom t more (l + 1) (2 * acc + b.toNat)

/-- CodeDec(T) (R120). -/
def codeDec (t : CodeTable) : DecM Nat := codeDecFrom t t.longest 0 0

/-! ### The error state: entering it, clearing results, leaving it -/

/-- ClearResult() (R93): no result, and every RBUF byte unspecified. -/
def Decoder.clearResult (d : Decoder) : Decoder :=
  { d with rvalid := false, rkind := 7, rlen := 0, rint := 0, rbuf := [] }

/-- raise Error(c) on ENC (R154): nothing is rolled back. -/
def Encoder.raise (e : Encoder) (c : ErrorCode) : Encoder := { e with err := true, ecode := c.code }

/-- raise Error(c) on DEC (R154): nothing is rolled back, and the result is cleared. -/
def Decoder.raise (d : Decoder) (c : ErrorCode) : Decoder :=
  Decoder.clearResult { d with err := true, ecode := c.code }

/-- An illegal word on ENC (R93, R107): ILLEGAL if the channel had no error, else nothing. -/
def Encoder.illegal (e : Encoder) : Encoder := if e.err then e else e.raise .illegal

/-- An illegal word on DEC (R93, R107): ILLEGAL if the channel had no error; the result is cleared either way. -/
def Decoder.illegal (d : Decoder) : Decoder := if d.err then d.clearResult else d.raise .illegal

/-- ChannelReset(ENC) (R103): a new output stream; ARG, TLEN and TBUF are kept, pending bits discarded. -/
def Encoder.channelReset (e : Encoder) : Encoder :=
  { e with err := false, ecode := 0, acc := 0, nbits := 0, bitcnt := 0, outBase := e.sink.accepted.length }

/-- ChannelReset(DEC) (R106): a new input stream; unconsumed bits are discarded. -/
def Decoder.channelReset (d : Decoder) : Decoder :=
  Decoder.clearResult
    { d with err := false, ecode := 0, cur := 0, nbits := 0, bitcnt := 0, inBase := d.source.pulled.length }

/-! ### The command frame -/

/-- BUSY <- 0 on ENC at the end of a command (R26, R93). -/
def Encoder.finish (e : Encoder) : Encoder := { e with running := none }

/-- BUSY <- 0 on DEC at the end of a command (R26, R93). -/
def Decoder.finish (d : Decoder) : Decoder := { d with running := none }

/-- How a Body ends on ENC: done, or its first raise (R11, R154). -/
def Encoder.runBody (body : EncM Unit) (e : Encoder) : Encoder :=
  match body e with
  | .ok _ e' => e'
  | .error c e' => e'.raise c

/-- How a Body ends on DEC: done, or its first raise (R11, R154). -/
def Decoder.runBody (body : DecM Unit) (d : Decoder) : Decoder :=
  match body d with
  | .ok _ d' => d'
  | .error c d' => d'.raise c

/-- ExecCommand on ENC (R93) for a word other than RESET: legality, the sticky no-op, the Body. -/
def encFrame (legal : Bool) (body : EncM Unit) (e : Encoder) : Encoder :=
  Encoder.finish (if !legal then e.illegal else if e.err then e else e.runBody body)

/-- ExecCommand on DEC (R93) for a word other than RESET. -/
def decFrame (legal : Bool) (body : DecM Unit) (d : Decoder) : Decoder :=
  Decoder.finish (if !legal then d.illegal else if d.err then d.clearResult else d.runBody body)

/-- ExecCommand on ENC for the legal RESET word, whatever ERR is (R93). -/
def encResetFrame (e : Encoder) : Encoder := Encoder.finish e.channelReset

/-- ExecCommand on DEC for the legal RESET word, whatever ERR is (R93). -/
def decResetFrame (d : Decoder) : Decoder := Decoder.finish d.channelReset

/-- ExecCommand on ENC for a word that is no command (R77, R93). -/
def encIllegalFrame (e : Encoder) : Encoder := Encoder.finish e.illegal

/-- ExecCommand on DEC for a word that is no command (R77, R93). -/
def decIllegalFrame (d : Decoder) : Decoder := Decoder.finish d.illegal

/-- A command's outcome: it always completes (R26), on its own channel alone (R4). -/
abbrev StepOutcome := Host.Outcome State Fault Refusal

/-- The next state when ENC becomes e. -/
def State.setEnc (s : State) (e : Encoder) : State := { s with enc := e }

/-- The next state when DEC becomes d. -/
def State.setDec (s : State) (d : Decoder) : State := { s with dec := d }

end Sys2Proof.Machine
end

