-- ==== Sys2Proof/Machine/Operands.lean ====
section
/-! DEFINITION. The operands of the commands (spec 30_encoding.md R75, R76, 42_encoder.md R132): the text operand with
its legality, the integer operand ARG, and the width field N. -/

namespace Sys2Proof.Machine

/-- Byte i of ENC.TBUF (R36, R47): 0 at i >= TXT_MAX, the byte the host wrote, else a free byte fixed for this epoch. -/
def Encoder.tbufRead (e : Encoder) (txtMax i : Nat) : Byte :=
  if txtMax ≤ i then 0
  else
    match e.tbuf.read i with
    | some b => b
    | none => Config.tbufByte e.tbufEpoch i

/-- A host write of byte i of ENC.TBUF (R36): ignored at i >= TXT_MAX. -/
def Encoder.tbufWrite (e : Encoder) (txtMax i : Nat) (b : Byte) : Encoder :=
  if txtMax ≤ i then e else { e with tbuf := e.tbuf.write i b }

/-- The text operand t[0..L-1] = TBUF[0..TLEN-1] (R132). -/
def Encoder.text (e : Encoder) (txtMax : Nat) : List Byte :=
  (List.range e.tlen.toNat).map (fun i => e.tbufRead txtMax i)

/-- The last condition of Legal(ENC, w) (R76): a text command needs TLEN <= TXT_MAX. -/
def Encoder.textLegal (e : Encoder) (txtMax : Nat) : Bool := decide (e.tlen.toNat ≤ txtMax)

/-- ARG[N-1:0] (R75): the low n bits of the integer operand; the bits above are ignored. -/
def argField (n : Nat) (arg : Word) : Word := (arg.setWidth n).setWidth 32

/-- Byte i of DEC.RBUF as the host reads it (R43): 0 at i >= RES_MAX, the result's byte below RLEN while RVALID = 1,
and otherwise the free byte given. -/
def Decoder.rbufRead (d : Decoder) (resMax i : Nat) (free : Byte) : Byte :=
  if resMax ≤ i then 0
  else if d.rvalid && decide (i < d.rlen.toNat) then
    match d.rbuf.read i with
    | some b => b
    | none => free
  else free

end Sys2Proof.Machine
end

