-- ==== Sys2Proof/Machine/ChannelCommands.lean ====
section
/-! DEFINITION. The meanings of the channel commands (spec 40_channel.md R101 to R106): ENC.PUTBITS, ENC.ALIGN,
ENC.RESET, DEC.GETBITS, DEC.ALIGN, DEC.RESET. -/

namespace Sys2Proof.Machine

/-- ENC.PUTBITS n (R101): Body PutBits(N, ARG[N-1:0]); N = 0 or N > 32 is illegal (R77). -/
def execEncPutbits (n : BitVec 6) (s : State) : StepOutcome :=
  .next (s.setEnc (encFrame (widthOk n) (putBits n.toNat (argField n.toNat s.enc.arg)) s.enc))

/-- ENC.ALIGN (R102): Body EncAlign(). -/
def execEncAlign (s : State) : StepOutcome :=
  .next (s.setEnc (encFrame true encAlignBits s.enc))

/-- ENC.RESET (R103): ChannelReset(ENC), whatever ERR is. -/
def execEncReset (s : State) : StepOutcome :=
  .next (s.setEnc (encResetFrame s.enc))

/-- The result of GETBITS (R104): kind 4, the field zero-extended; no byte of RBUF belongs to it (R29). -/
def setFieldResult (v : Word) : DecM Unit := fun d =>
  .ok () { d with rvalid := true, rkind := 4, rlen := 0, rint := v, rbuf := d.rbuf.truncate 0 }

/-- Body of DEC.GETBITS (R104): the result is written only after all N bits are read. -/
def getBitsBody (n : Nat) : DecM Unit := do
  let v ← getBits n
  setFieldResult v

/-- DEC.GETBITS n (R104); N = 0 or N > 32 is illegal (R77). -/
def execDecGetbits (n : BitVec 6) (s : State) : StepOutcome :=
  .next (s.setDec (decFrame (widthOk n) (getBitsBody n.toNat) s.dec))

/-- DEC.ALIGN (R105): Body DecAlign(); the result registers are unchanged. -/
def execDecAlign (s : State) : StepOutcome :=
  .next (s.setDec (decFrame true decAlignBits s.dec))

/-- DEC.RESET (R106): ChannelReset(DEC), whatever ERR is. -/
def execDecReset (s : State) : StepOutcome :=
  .next (s.setDec (decResetFrame s.dec))

end Sys2Proof.Machine
end

