-- ==== Sys2Proof/Machine/DecoderCommands.lean ====
section
/-! DEFINITION. The meaning of DEC.VALUE (spec 43_decoder.md R140 to R148): it reads exactly one value. -/

namespace Sys2Proof.Machine

/-- The store of Append (R141): RBUF[n] <- b. -/
def storeResultByte (n : Nat) (b : Byte) : DecM Unit := fun d =>
  .ok () { d with rbuf := d.rbuf.write n b }

/-- The loop the three text bodies share: `next` gives a byte, or nothing at the terminator; n bytes are assembled and
`room` = RES_MAX - n more fit.  A byte that does not fit raises CAPACITY (R141); the answer is the final n. -/
def readText (next : DecM (Option Byte)) : Nat → Nat → DecM Nat
  | 0, n => do
    match ← next with
    | none => pure n
    | some _ => throw .capacity
  | room + 1, n => do
    match ← next with
    | none => pure n
    | some b => do
      storeResultByte n b
      readText next room (n + 1)

/-- One step of ReadAsciiBody (R142): symbol 128 ends the text. -/
def nextAsciiByte : DecM (Option Byte) := do
  let v ← codeDec ascc
  pure (if v = 128 then none else some (BitVec.ofNat 8 v))

/-- One step of ReadUtf8Body (R143): symbol 256 ends the text. -/
def nextUtf8Byte : DecM (Option Byte) := do
  let v ← codeDec fbc
  pure (if v = 256 then none else some (BitVec.ofNat 8 v))

/-- One step of ReadRawBody (R144): a literal zero byte ends the text. -/
def nextRawByte : DecM (Option Byte) := do
  let v ← getBits 8
  pure (if v = 0 then none else some (v.setWidth 8))

/-- ReadIntBody (R145): the payload is returned as read, whatever its size. -/
def readIntBody : DecM Word := do
  if !(← getBit) then getBits 4
  else if !(← getBit) then getBits 8
  else if !(← getBit) then getBits 16
  else getBits 32

/-- SetResult(tag, n, v) for a text (R146): RBUF[0..n-1] hold the bytes, the others are unspecified. -/
def setTextResult (tag : BitVec 3) (n : Nat) : DecM Unit := fun d =>
  .ok () { d with rvalid := true, rkind := tag, rlen := BitVec.ofNat 15 n, rint := 0, rbuf := d.rbuf.truncate n }

/-- SetResult(3, n, v) (R146): an integer, RLEN = 0. -/
def setIntResult (v : Word) : DecM Unit := fun d =>
  .ok () { d with rvalid := true, rkind := 3, rlen := 0, rint := v, rbuf := d.rbuf.truncate 0 }

/-- Body of DEC.VALUE (R140): the tag, the body it names, the result.  A tag other than 0..3 would be the protocol
violation of R152; TAGC has no such symbol (R147). -/
def valueBody (resMax : Nat) : DecM Unit := do
  let tag ← codeDec tagc
  if tag = 0 then
    let n ← readText nextAsciiByte resMax 0
    setTextResult 0 n
  else if tag = 1 then
    let n ← readText nextUtf8Byte resMax 0
    setTextResult 1 n
  else if tag = 2 then
    let n ← readText nextRawByte resMax 0
    setTextResult 2 n
  else if tag = 3 then
    let v ← readIntBody
    setIntResult v
  else throw .proto

/-- DEC.VALUE (R140). -/
def execDecValue (s : State) : StepOutcome :=
  .next (s.setDec (decFrame true (valueBody s.params.resMax) s.dec))

end Sys2Proof.Machine
end

