-- ==== Sys2Proof/Machine/EncoderCommands.lean ====
section
/-! DEFINITION. The meanings of the encoder's value commands (spec 42_encoder.md R132 to R138): ENC.ASCII, ENC.UTF8,
ENC.RAW, ENC.AUTO, ENC.SYM.  Each writes its Tag code and then the value's body. -/

namespace Sys2Proof.Machine

/-- CodeEnc(TAGC, kind) (R80, R132): the Tag symbol of a value kind. -/
def putTag (kind : Fin 4) : EncM Unit :=
  codeEnc tagc ⟨kind.val, by rw [tagc_length]; exact kind.isLt⟩

/-- The loop of ENC.ASCII (R133): a byte below 128 is coded, a byte with its high bit set is dropped. -/
def putAsciiBytes : List Byte → EncM Unit
  | [] => pure ()
  | b :: bs => do
    if h : b.toNat < 128 then
      codeEnc ascc ⟨b.toNat, by rw [ascc_length]; omega⟩
    putAsciiBytes bs

/-- Body of ENC.ASCII (R133). -/
def asciiBody (t : List Byte) : EncM Unit := do
  putTag 0
  putAsciiBytes t
  codeEnc ascc ⟨128, by rw [ascc_length]; omega⟩

/-- The loop of ENC.UTF8 (R134): every byte is coded. -/
def putUtf8Bytes : List Byte → EncM Unit
  | [] => pure ()
  | b :: bs => do
    codeEnc fbc ⟨b.toNat, by rw [fbc_length]; omega⟩
    putUtf8Bytes bs

/-- Body of ENC.UTF8 (R134). -/
def utf8Body (t : List Byte) : EncM Unit := do
  putTag 1
  putUtf8Bytes t
  codeEnc fbc ⟨256, by rw [fbc_length]; omega⟩

/-- The loop of ENC.RAW (R135): a byte other than 0 is written literally, a zero byte is dropped. -/
def putRawBytes : List Byte → EncM Unit
  | [] => pure ()
  | b :: bs => do
    if b ≠ 0 then
      putBits 8 (b.setWidth 32)
    putRawBytes bs

/-- Body of ENC.RAW (R135): nothing follows the literal zero byte (conflict C1). -/
def rawBody (t : List Byte) : EncM Unit := do
  putTag 2
  putRawBytes t
  putBits 8 0

/-- has_high of R136: some byte is 128 or more. -/
def hasHigh (t : List Byte) : Bool := t.any (fun b => decide (128 ≤ b.toNat))

/-- has_zero of R136: some byte is 0. -/
def hasZero (t : List Byte) : Bool := t.any (fun b => decide (b = 0))

/-- Body of ENC.AUTO (R136): the representation the adaptive selector picks. -/
def autoBody (t : List Byte) : EncM Unit :=
  if !hasHigh t then asciiBody t
  else if !hasZero t then rawBody t
  else utf8Body t

/-- Body of ENC.SYM (R137): the unary bracket bits, then the payload; comparisons are unsigned (R138). -/
def symBody (v : Word) : EncM Unit := do
  putTag 3
  if v.toNat < 16 then
    putBits 1 0b0
    putBits 4 v
  else if v.toNat < 256 then
    putBits 2 0b10
    putBits 8 v
  else if v.toNat < 65536 then
    putBits 3 0b110
    putBits 16 v
  else
    putBits 3 0b111
    putBits 32 v

/-- ENC.ASCII (R133); illegal while TLEN > TXT_MAX (R76). -/
def execEncAscii (s : State) : StepOutcome :=
  .next (s.setEnc
    (encFrame (s.enc.textLegal s.params.txtMax) (asciiBody (s.enc.text s.params.txtMax)) s.enc))

/-- ENC.UTF8 (R134); illegal while TLEN > TXT_MAX (R76). -/
def execEncUtf8 (s : State) : StepOutcome :=
  .next (s.setEnc
    (encFrame (s.enc.textLegal s.params.txtMax) (utf8Body (s.enc.text s.params.txtMax)) s.enc))

/-- ENC.RAW (R135); illegal while TLEN > TXT_MAX (R76). -/
def execEncRaw (s : State) : StepOutcome :=
  .next (s.setEnc
    (encFrame (s.enc.textLegal s.params.txtMax) (rawBody (s.enc.text s.params.txtMax)) s.enc))

/-- ENC.AUTO (R136); illegal while TLEN > TXT_MAX (R76). -/
def execEncAuto (s : State) : StepOutcome :=
  .next (s.setEnc
    (encFrame (s.enc.textLegal s.params.txtMax) (autoBody (s.enc.text s.params.txtMax)) s.enc))

/-- ENC.SYM (R137): every 32-bit ARG has an encoding. -/
def execEncSym (s : State) : StepOutcome :=
  .next (s.setEnc (encFrame true (symBody s.enc.arg) s.enc))

end Sys2Proof.Machine
end

