-- ==== Sys2Proof/Machine/Dispatch.lean ====
section
/-! DEFINITION. The meaning of every command: one arm per row of spec/opcode_table.json. -/

namespace Sys2Proof.Machine

def exec (i : Instr) (s : State) : Host.Outcome State Fault Refusal :=
  match i with
  | .encAscii => Sys2Proof.Machine.execEncAscii s
  | .encUtf8 => Sys2Proof.Machine.execEncUtf8 s
  | .encRaw => Sys2Proof.Machine.execEncRaw s
  | .encAuto => Sys2Proof.Machine.execEncAuto s
  | .encSym => Sys2Proof.Machine.execEncSym s
  | .encPutbits n => Sys2Proof.Machine.execEncPutbits n s
  | .encAlign => Sys2Proof.Machine.execEncAlign s
  | .encReset => Sys2Proof.Machine.execEncReset s
  | .decValue => Sys2Proof.Machine.execDecValue s
  | .decGetbits n => Sys2Proof.Machine.execDecGetbits n s
  | .decAlign => Sys2Proof.Machine.execDecAlign s
  | .decReset => Sys2Proof.Machine.execDecReset s

end Sys2Proof.Machine
end

