-- ==== Sys2Proof/Machine/Registers.lean ====
section
/-! DEFINITION. The host register window (spec 10_state.md R30 to R45, 20_memory.md R57 to R70): the register map, reads
and writes of each register, the hold of a busy channel, and the arrival of accesses. -/

namespace Sys2Proof.Machine

/-! ### The register map -/

/-- The register at an offset of the window (R30); every other offset is unmapped (R44). -/
def Reg.ofOffset (off : Nat) : Reg :=
  if off = 0x0000 then .encStatus
  else if off = 0x0004 then .encCmd
  else if off = 0x0008 then .encArg
  else if off = 0x000C then .encTlen
  else if off = 0x0010 then .encBitcnt
  else if off = 0x0100 then .decStatus
  else if off = 0x0104 then .decCmd
  else if off = 0x0108 then .decRkind
  else if off = 0x010C then .decRlen
  else if off = 0x0110 then .decRint
  else if off = 0x0114 then .decBitcnt
  else if 0x4000 ≤ off ∧ off < 0x8000 then .encTbuf ((off - 0x4000) / 4)
  else if 0x8000 ≤ off ∧ off < 0xC000 then .decRbuf ((off - 0x8000) / 4)
  else .unmapped off

/-- The offset of a register (R30, R89). -/
def Reg.offset : Reg → Nat
  | .encStatus => 0x0000
  | .encCmd => 0x0004
  | .encArg => 0x0008
  | .encTlen => 0x000C
  | .encBitcnt => 0x0010
  | .encTbuf k => 0x4000 + 4 * k
  | .decStatus => 0x0100
  | .decCmd => 0x0104
  | .decRkind => 0x0108
  | .decRlen => 0x010C
  | .decRint => 0x0110
  | .decBitcnt => 0x0114
  | .decRbuf k => 0x8000 + 4 * k
  | .unmapped off => off

/-- The channel a register belongs to; an unmapped offset belongs to none (R30, R44). -/
def Reg.channel : Reg → Option Channel
  | .encStatus => some .enc
  | .encCmd => some .enc
  | .encArg => some .enc
  | .encTlen => some .enc
  | .encBitcnt => some .enc
  | .encTbuf _ => some .enc
  | .decStatus => some .dec
  | .decCmd => some .dec
  | .decRkind => some .dec
  | .decRlen => some .dec
  | .decRint => some .dec
  | .decBitcnt => some .dec
  | .decRbuf _ => some .dec
  | .unmapped _ => none

/-- The register is a STATUS register (R31, R37). -/
def Reg.isStatus : Reg → Bool
  | .encStatus => true
  | .decStatus => true
  | _ => false

/-! ### Reads -/

/-- Word k of a buffer window: byte 4k in bits 7:0 up to byte 4k+3 in bits 31:24 (R36, R43, R57). -/
def windowWord (byteAt : Nat → Byte) (k : Nat) : Word :=
  byteAt (4 * k + 3) ++ byteAt (4 * k + 2) ++ byteAt (4 * k + 1) ++ byteAt (4 * k)

/-- What a read of a register returns (R31 to R45).  `s.free` numbers the free values of this read (R45, U6, U8). -/
def State.regRead (s : State) : Reg → Word
  | .encStatus => s.enc.statusWord (Config.busyStatus s.free)
  | .encCmd => 0
  | .encArg => s.enc.arg
  | .encTlen => s.enc.tlen.setWidth 32
  | .encBitcnt => if s.enc.busy then Config.busyBitcnt s.free else s.enc.bitcnt
  | .encTbuf k => windowWord (s.enc.tbufRead s.params.txtMax) k
  | .decStatus => s.dec.statusWord (Config.busyStatus s.free)
  | .decCmd => 0
  | .decRkind => s.dec.rkind.setWidth 32
  | .decRlen => s.dec.rlen.setWidth 32
  | .decRint => s.dec.rint
  | .decBitcnt => if s.dec.busy then Config.busyBitcnt s.free else s.dec.bitcnt
  | .decRbuf k => windowWord (fun i => s.dec.rbufRead s.params.resMax i (Config.rbufByte s.free i)) k
  | .unmapped _ => 0

/-! ### Writes -/

/-- A write of word k of the ENC_TBUF window: its four bytes (R36). -/
def Encoder.tbufWriteWord (e : Encoder) (txtMax k : Nat) (v : Word) : Encoder :=
  let e := e.tbufWrite txtMax (4 * k) (v.extractLsb' 0 8)
  let e := e.tbufWrite txtMax (4 * k + 1) (v.extractLsb' 8 8)
  let e := e.tbufWrite txtMax (4 * k + 2) (v.extractLsb' 16 8)
  e.tbufWrite txtMax (4 * k + 3) (v.extractLsb' 24 8)

/-- What a write of a register does (R31 to R44, R61): CMD starts a command (BUSY <- 1), ARG, TLEN and the TBUF window
are stored, every other write is ignored. -/
def State.regWrite (s : State) (r : Reg) (v : Word) : State :=
  match r with
  | .encCmd => s.setEnc { s.enc with running := some v }
  | .encArg => s.setEnc { s.enc with arg := v }
  | .encTlen => s.setEnc { s.enc with tlen := v.setWidth 15 }
  | .encTbuf k => s.setEnc (s.enc.tbufWriteWord s.params.txtMax k v)
  | .decCmd => s.setDec { s.dec with running := some v }
  | .encStatus => s
  | .encBitcnt => s
  | .decStatus => s
  | .decRkind => s
  | .decRlen => s
  | .decRint => s
  | .decBitcnt => s
  | .decRbuf _ => s
  | .unmapped _ => s

/-! ### Performing accesses -/

/-- A read's answer goes to the host; the model's counter of free values moves on.  No other state changes (R44). -/
def State.answerRead (s : State) (r : Reg) : State :=
  { s with
    host := { s.host with answers := s.host.answers ++ [(r, s.regRead r)] }
    free := s.free + 1 }

/-- An access is performed (R61: single-copy atomic). -/
def State.performOp (s : State) : HostOp → State
  | .read r => s.answerRead r
  | .write r v => s.regWrite r v

/-- BUSY of a channel (R26). -/
def State.busy (s : State) : Channel → Bool
  | .enc => s.enc.busy
  | .dec => s.dec.busy

/-- The register an access names. -/
def HostOp.reg : HostOp → Reg
  | .read r => r
  | .write r _ => r

/-- The access reads a STATUS register: the one access a busy channel does not hold (R61, R63, R170).  A write of STATUS
waits as every other access does. -/
def HostOp.isStatusRead : HostOp → Bool
  | .read r => r.isStatus
  | .write _ _ => false

/-- The hold of R61 and R63: an access to a busy channel other than a STATUS read waits until BUSY = 0. -/
def State.held (s : State) (op : HostOp) : Bool :=
  match op.reg.channel with
  | some ch => s.busy ch && !op.isStatusRead
  | none => false

/-- The oldest arrived access that is not held, and the others in order: for one channel the order of R63 and R66.
DESIGN CHOICE, log entry 20: accesses to different channels and to unmapped offsets, which no rule orders (R65), are
taken in the order of arrival too. -/
def State.firstFree (s : State) : List HostOp → Option (HostOp × List HostOp)
  | [] => none
  | op :: ops =>
    if s.held op then
      match s.firstFree ops with
      | some (found, others) => some (found, op :: others)
      | none => none
    else some (op, ops)

/-- One access is performed, the oldest that is not held; nothing happens when there is none. -/
def State.serveBus (s : State) : State :=
  match s.firstFree s.host.queue with
  | some (op, others) => { s with host := { s.host with queue := others } }.performOp op
  | none => s

/-! ### Arrival -/

/-- The offset an address has in the window (R30, R69, U10), if it is in the window. -/
def Params.offsetOf (p : Params) (addr : Nat) : Option Nat :=
  if addr < p.base then none
  else if addr - p.base < 0x10000 then some (addr - p.base)
  else if p.aliased then some ((addr - p.base) % 0x10000)
  else none

/-- The address and width of an access. -/
def MemAccess.place : MemAccess → Nat × Nat
  | .read addr width => (addr, width)
  | .write addr width _ => (addr, width)

/-- The access as the block receives it, at a register. -/
def MemAccess.atReg : MemAccess → Reg → HostOp
  | .read _ _, r => .read r
  | .write _ _ v, r => .write r v

/-- An access arrives behind the earlier ones (R66). -/
def State.enqueue (s : State) (op : HostOp) : State :=
  { s with host := { s.host with queue := s.host.queue ++ [op] } }

/-- A host agent issues an access: only aligned 32-bit accesses of the window are defined (R58, U9). -/
def State.issue (s : State) (a : MemAccess) : StepOutcome :=
  match Params.offsetOf s.params a.place.1 with
  | none => .fault .outsideWindow
  | some off =>
    if a.place.2 ≠ 4 then .refused .accessWidth
    else if off % 4 ≠ 0 then .refused .accessAlignment
    else .next (s.enqueue (a.atReg (Reg.ofOffset off)))

end Sys2Proof.Machine
end

