-- ==== Sys2Proof/Machine/Agents.lean ====
section
/-! DEFINITION. The agents' turns (spec 00_scope.md R5, R16, 40_channel.md R93, 70_reset_and_hazards.md R165 to R167):
each channel runs its command word, the bus serves host accesses, the platform asserts block reset. -/

namespace Sys2Proof.Machine

/-- ENC runs the command word it holds (R93): the command the word is, or the illegal word's frame.  Without a running
command there is nothing to do. -/
def State.runEncoder (s : State) : StepOutcome :=
  match s.enc.running with
  | none => .next s
  | some w =>
    match decode .enc w with
    | .ok i => exec i s
    | .error _ => .next (s.setEnc (encIllegalFrame s.enc))

/-- DEC runs the command word it holds (R93). -/
def State.runDecoder (s : State) : StepOutcome :=
  match s.dec.running with
  | none => .next s
  | some w =>
    match decode .dec w with
    | .ok i => exec i s
    | .error _ => .next (s.setDec (decIllegalFrame s.dec))

/-- SINK after only the first k of the exchanges that lead from `s` to `t` (R167): no later Push was made. -/
def Sink.cut (s t : Sink) (k : Nat) : Sink where
  script := s.script.drop (min k (t.asked - s.asked))
  asked := s.asked + min k (t.asked - s.asked)
  accepted := t.accepted.take (s.accepted.length + k)

/-- SOURCE after only the first k of the exchanges that lead from `s` to `t` (R167): no later Pull was made. -/
def Source.cut (s t : Source) (k : Nat) : Source where
  script := s.script.drop (min k (t.asked - s.asked))
  asked := s.asked + min k (t.asked - s.asked)
  pulled := t.pulled.take (s.pulled.length + k)

/-- SINK when the running ENC command is abandoned after k exchanges: bytes already pushed stay (R167). -/
def State.abandonedSink (s : State) (k : Nat) : Sink :=
  match s.runEncoder with
  | .next t => s.enc.sink.cut t.enc.sink k
  | .fault _ => s.enc.sink
  | .refused _ => s.enc.sink

/-- SOURCE when the running DEC command is abandoned after k exchanges: bytes already pulled stay consumed (R167). -/
def State.abandonedSource (s : State) (k : Nat) : Source :=
  match s.runDecoder with
  | .next t => s.dec.source.cut t.dec.source k
  | .fault _ => s.dec.source
  | .refused _ => s.dec.source

/-- A held BITCNT read of a busy channel: the one access that can race with a block reset (U8). -/
def State.racing (s : State) (op : HostOp) : Bool :=
  s.held op && (decide (op = .read .encBitcnt) || decide (op = .read .decBitcnt))

/-- The racing reads are answered while their channel is still busy (U8: any value), and leave the queue.  DESIGN CHOICE,
log entry 19: U8 does not say which held BITCNT reads race; here all of them do, ahead of older held accesses. -/
def State.answerRacing (s : State) : State :=
  (s.host.queue.filter s.racing).foldl State.performOp
    { s with host := { s.host with queue := s.host.queue.filter (fun op => !s.racing op) } }

/-- Every register at its reset value (R46), TBUF and RBUF unspecified (R47); the exchanges made stay made (R167). -/
def State.resetBlock (s : State) (pushes pulls : Nat) : State :=
  { s with
    enc := Encoder.fresh (s.abandonedSink pushes) (s.free + 1)
    dec := Decoder.fresh (s.abandonedSource pulls)
    free := s.free + 1 }

/-- Block reset (R165, R167): a step available to the platform at any time. -/
def State.blockReset (s : State) (pushes pulls : Nat) (race : Bool) : State :=
  (if race then s.answerRacing else s).resetBlock pushes pulls

/-- One agent's turn. -/
def State.takeTurn (s : State) : Turn → StepOutcome
  | .issue a => s.issue a
  | .bus => .next s.serveBus
  | .enc => s.runEncoder
  | .dec => s.runDecoder
  | .blockReset pushes pulls race => .next (s.blockReset pushes pulls race)

/-- One step of the machine: the agent the schedule names takes its turn; with no turn scheduled nothing happens. -/
def State.advance (s : State) : StepOutcome :=
  match s.schedule with
  | [] => .next s
  | t :: rest => { s with schedule := rest }.takeTurn t

/-- The ENC channel holds the command word w and has the next turn. -/
def State.loadWord (s : State) (w : Word) : State :=
  { s with enc := { s.enc with running := some w }, schedule := .enc :: s.schedule }

end Sys2Proof.Machine
end

