-- ==== Sys2Proof/Machine/Step.lean ====
section
/-! DEFINITION. The step of the whole machine, and the state in which the next step runs a given command word. -/

namespace Sys2Proof.Machine

/-- One step: one agent's turn (spec 00_scope.md R5, R16). -/
def step (s : State) : Host.Outcome State Fault Refusal := s.advance

/-- s with the command whose bits are w (bits at nbits and above 0) held by ENC and ENC's turn next.  A word names no
channel (R71), so it is placed on ENC, as decodeTableWord reads it (log entry 8). -/
def State.withFetchWord (s : State) (nbits w : Nat) : State :=
  s.loadWord (BitVec.ofNat 32 (w % 2 ^ nbits))

end Sys2Proof.Machine
end

