-- ==== Sys2Proof/Machine/Assembler.lean ====
section
/-! DEFINITION. The host-side notation of the spec (30_encoding.md R88 to R91): mnemonics, host program lines, operand
macros and pseudo-instructions, each as the host operations it stands for. -/

namespace Sys2Proof.Machine

/-- The mnemonic of a command (R73, R74, R88), without the operand n. -/
def mnemonicOf : Instr → String
  | .encAscii => "ENC.ASCII"
  | .encUtf8 => "ENC.UTF8"
  | .encRaw => "ENC.RAW"
  | .encAuto => "ENC.AUTO"
  | .encSym => "ENC.SYM"
  | .encPutbits _ => "ENC.PUTBITS"
  | .encAlign => "ENC.ALIGN"
  | .encReset => "ENC.RESET"
  | .decValue => "DEC.VALUE"
  | .decGetbits _ => "DEC.GETBITS"
  | .decAlign => "DEC.ALIGN"
  | .decReset => "DEC.RESET"

/-- The CMD register of a channel (R32, R38). -/
def cmdRegOf : Channel → Reg
  | .enc => .encCmd
  | .dec => .decCmd

/-- The STATUS register of a channel (R31, R37). -/
def statusRegOf : Channel → Reg
  | .enc => .encStatus
  | .dec => .decStatus

/-- Issuing a command: one write of its word to its channel's CMD register (R71). -/
def issueCommand (i : Instr) : HostOp := .write (cmdRegOf i.channel) (encode i)

/-- Word k of a text as the macro writes it (R90): bytes past the end are 0. -/
def textWord (t : List Byte) (k : Nat) : Word := windowWord (fun i => t.getD i 0) k

/-- The TBUF writes of the text macro (R90): words 0..ceil(L/4)-1. -/
def textWrites (t : List Byte) : List HostOp :=
  (List.range ((t.length + 3) / 4)).map (fun k => .write (.encTbuf k) (textWord t k))

/-- The operand macros (R90). -/
inductive OperandMacro where
  | sym (v : Word)
  | putbits (n : BitVec 6) (v : Word)
  | ascii (t : List Byte)
  | utf8 (t : List Byte)
  | raw (t : List Byte)
  | auto (t : List Byte)
deriving DecidableEq, Repr

/-- The expansion of an operand macro (R90). -/
def OperandMacro.expand : OperandMacro → List HostOp
  | .sym v => [.write .encArg v, issueCommand .encSym]
  | .putbits n v => [.write .encArg v, issueCommand (.encPutbits n)]
  | .ascii t => textWrites t ++ [.write .encTlen (BitVec.ofNat 32 t.length), issueCommand .encAscii]
  | .utf8 t => textWrites t ++ [.write .encTlen (BitVec.ofNat 32 t.length), issueCommand .encUtf8]
  | .raw t => textWrites t ++ [.write .encTlen (BitVec.ofNat 32 t.length), issueCommand .encRaw]
  | .auto t => textWrites t ++ [.write .encTlen (BitVec.ofNat 32 t.length), issueCommand .encAuto]

/-- The pseudo-instructions (R91). -/
inductive Pseudo where
  | putBit (b : Word)
  | putBool (t : Bool)
  | putByte (b : Word)
  | flush
  | getBit
  | getBool
  | getByte
deriving DecidableEq, Repr

/-- The expansion of a pseudo-instruction: exactly one command, with its operand write where it has one (R91). -/
def Pseudo.expand : Pseudo → List HostOp
  | .putBit b => OperandMacro.expand (.putbits 1 b)
  | .putBool t => OperandMacro.expand (.putbits 1 (if t then 1 else 0))
  | .putByte b => OperandMacro.expand (.putbits 8 b)
  | .flush => [issueCommand .encAlign]
  | .getBit => [issueCommand (.decGetbits 1)]
  | .getBool => [issueCommand (.decGetbits 1)]
  | .getByte => [issueCommand (.decGetbits 8)]

/-- What DEC.GETBOOL answers (R91): true if RINT = 1. -/
def boolResult (rint : Word) : Bool := decide (rint = 1)

/-- A line of a host program (R89). -/
inductive HostLine where
  | w (reg : Reg) (v : Word)
  | r (reg : Reg)
  /-- WAIT: STATUS is read until BUSY reads 0; `reads` says how many reads that took. -/
  | wait (ch : Channel) (reads : Nat)
deriving DecidableEq, Repr

/-- The host operations of a line (R89). -/
def HostLine.expand : HostLine → List HostOp
  | .w reg v => [.write reg v]
  | .r reg => [.read reg]
  | .wait ch reads => List.replicate reads (.read (statusRegOf ch))

/-- A host operation as the platform issues it: MemRead or MemWrite(BASE + off(reg), 4) (R10, R89). -/
def HostOp.access (p : Params) : HostOp → MemAccess
  | .read r => .read (p.base + r.offset) 4
  | .write r v => .write (p.base + r.offset) 4 v

end Sys2Proof.Machine
end

