-- ==== Sys2Proof/Machine/Construction.lean ====
section
/-! DEFINITION. Table construction (spec 41_prefix_code.md R108 to R115): new, bump, bump_range and seal.  It is an
elaboration-time function: no command runs it and no step depends on it. -/

namespace Sys2Proof.Machine

/-- A contract violation of table construction (R112, U1): the construction refuses it. -/
inductive ContractViolation where
  /-- new(n) with n = 0 (R109 asks n >= 1). -/
  | emptyTable
  /-- bump or bump_range after seal. -/
  | bumpAfterSeal
  /-- A symbol outside 0..n-1. -/
  | symbolOutOfRange
  /-- A negative amount. -/
  | negativeAmount
  /-- seal called twice. -/
  | sealedTwice
deriving DecidableEq, Repr

/-- A table under construction: its weights, and whether it has been sealed. -/
structure Builder where
  freq : List Nat
  isSealed : Bool
deriving DecidableEq, Repr

/-- new(n) of R109: every symbol at the baseline weight 1. -/
def Builder.new (n : Nat) : Except ContractViolation Builder :=
  if n = 0 then .error .emptyTable else .ok ⟨List.replicate n 1, false⟩

/-- bump(v, a) of R110. -/
def Builder.bump (b : Builder) (v : Nat) (a : Int) : Except ContractViolation Builder :=
  if b.isSealed then .error .bumpAfterSeal
  else if b.freq.length ≤ v then .error .symbolOutOfRange
  else if a < 0 then .error .negativeAmount
  else .ok { b with freq := b.freq.modify v (· + a.toNat) }

/-- bump(v, a) for `count` symbols from v on. -/
def Builder.bumpFrom : Nat → Nat → Int → Builder → Except ContractViolation Builder
  | 0, _, _, b => .ok b
  | count + 1, v, a, b =>
    match b.bump v a with
    | .ok b' => Builder.bumpFrom count (v + 1) a b'
    | .error e => .error e

/-- bump_range(lo, hi, a) of R111: every v with lo <= v <= hi; nothing when lo > hi.  A sealed table and a negative
amount are refused on an empty range too (R112). -/
def Builder.bumpRange (b : Builder) (lo hi : Nat) (a : Int) : Except ContractViolation Builder :=
  if b.isSealed then .error .bumpAfterSeal
  else if a < 0 then .error .negativeAmount
  else Builder.bumpFrom (hi + 1 - lo) lo a b

/-- A pool element of R113: (weight, order, leaf set), each leaf with its depth below this node. -/
structure PoolNode where
  weight : Nat
  order : Nat
  leaves : List (Nat × Nat)
deriving DecidableEq, Repr

/-- The comparison of R113: weight first, then order. -/
def PoolNode.before (a b : PoolNode) : Bool :=
  decide (a.weight < b.weight) || (decide (a.weight = b.weight) && decide (a.order < b.order))

/-- The least element of a :: pool, and the others. -/
def extractLeast : PoolNode → List PoolNode → PoolNode × List PoolNode
  | a, [] => (a, [])
  | a, b :: pool =>
    if b.before a then
      match extractLeast b pool with
      | (least, others) => (least, a :: others)
    else
      match extractLeast a pool with
      | (least, others) => (least, b :: others)

/-- One merge of R113: both leaf sets go one level down. -/
def PoolNode.merge (a b : PoolNode) (order : Nat) : PoolNode where
  weight := a.weight + b.weight
  order := order
  leaves := (a.leaves ++ b.leaves).map (fun l => (l.1, l.2 + 1))

/-- The loop of R113, `merges` times: each time the two least elements are merged into one of order `next`. -/
def mergePool : Nat → Nat → List PoolNode → List PoolNode
  | 0, _, pool => pool
  | _ + 1, _, [] => []
  | merges + 1, next, p :: pool =>
    match extractLeast p pool with
    | (a, []) => [a]
    | (a, q :: rest) =>
      match extractLeast q rest with
      | (b, others) => mergePool merges (next + 1) (a.merge b next :: others)

/-- The pool R113 starts with: one leaf a symbol, in order. -/
def initialPool (freq : List Nat) : List PoolNode :=
  freq.mapIdx (fun v w => ⟨w, v, [(v, 0)]⟩)

/-- The depth recorded for symbol v. -/
def depthOf (v : Nat) : List (Nat × Nat) → Nat
  | [] => 0
  | l :: ls => if l.1 = v then l.2 else depthOf v ls

/-- SealLengths of R113: L[v] is the depth of leaf v (0 for the one symbol of a table with n = 1, R115). -/
def sealLengths (freq : List Nat) : List Nat :=
  let leaves := (mergePool (freq.length - 1) freq.length (initialPool freq)).flatMap PoolNode.leaves
  (List.range freq.length).map (fun v => depthOf v leaves)

/-- Insertion of a (length, symbol) pair into a list sorted by (length, symbol). -/
def insertByLength (p : Nat × Nat) : List (Nat × Nat) → List (Nat × Nat)
  | [] => [p]
  | q :: qs =>
    if p.1 < q.1 ∨ (p.1 = q.1 ∧ p.2 ≤ q.2) then p :: q :: qs else q :: insertByLength p qs

/-- The symbols sorted by (L[v], v) ascending, as (length, symbol) pairs (R114). -/
def sortedByLength (lengths : List Nat) : List (Nat × Nat) :=
  (lengths.mapIdx (fun v l => (l, v))).foldr insertByLength []

/-- The canonical codes along the sorted symbols, after one of length `prev` got `code` (R114). -/
def assignCodes : Nat → Nat → List (Nat × Nat) → List (Nat × Nat)
  | _, _, [] => []
  | prev, code, (l, v) :: rest =>
    let c := (code + 1) <<< (l - prev)
    (v, c) :: assignCodes l c rest

/-- SealCodes of R114 as (symbol, code) pairs: the first sorted symbol gets code 0. -/
def canonicalCodes (lengths : List Nat) : List (Nat × Nat) :=
  match sortedByLength lengths with
  | [] => []
  | (l, v) :: rest => (v, 0) :: assignCodes l 0 rest

/-- SealCodes of R114: C[v] for every symbol. -/
def sealCodes (lengths : List Nat) : List Nat :=
  (List.range lengths.length).map (fun v => depthOf v (canonicalCodes lengths))

/-- seal() of R113 and R114: (L[v], C[v]) for every symbol v, at whatever lengths the weights give, and the builder, now
sealed. -/
def Builder.seal (b : Builder) : Except ContractViolation (List (Nat × Nat) × Builder) :=
  if b.isSealed then .error .sealedTwice
  else
    let lengths := sealLengths b.freq
    .ok (lengths.zip (sealCodes lengths), { b with isSealed := true })

/-- The table a builder seals to, in the fields of this hardware's tables: LEN 4 bits, CODE 11 bits (R19), which hold
the three tables of R122 to R124. -/
def Builder.sealedTable (b : Builder) : Except ContractViolation CodeTable :=
  b.seal.map (fun r => r.1.map (fun lc => ⟨BitVec.ofNat 4 lc.1, BitVec.ofNat 11 lc.2⟩))

/-- The Tag table's builder (R122): final weights 16, 8, 4 and 1. -/
def tagBuilder : Except ContractViolation Builder := do
  let b ← Builder.new 4
  let b ← b.bump 0 15
  let b ← b.bump 1 7
  b.bump 2 3

/-- The bumps the two byte tables share (R123): letters A-Z += 20, a-z += 30, digits 0-9 += 10. -/
def letterBumps (b : Builder) : Except ContractViolation Builder := do
  let b ← b.bumpRange 0x41 0x5A 20
  let b ← b.bumpRange 0x61 0x7A 30
  b.bumpRange 0x30 0x39 10

/-- The ASCII-alphabet table's builder (R123). -/
def asciiBuilder : Except ContractViolation Builder := do
  let b ← Builder.new 129
  letterBumps b

/-- The Full-byte-alphabet table's builder (R124). -/
def fullByteBuilder : Except ContractViolation Builder := do
  let b ← Builder.new 257
  let b ← letterBumps b
  b.bumpRange 0x80 0xFF 5

/-- The weighted length sum of a weight list and its lengths (R117). -/
def weightedLength (freq lengths : List Nat) : Nat := (List.zipWith (· * ·) freq lengths).sum

end Sys2Proof.Machine
end

