-- ==== Sys2Proof/Machine/Wire.lean ====
section
/-! DEFINITION. The wire format as bit strings, written from the spec's own description of it (30_encoding.md R79 to
R84) and not from the commands' pseudocode; and the bits of each channel's stream (20_memory.md R53). -/

namespace Sys2Proof.Machine

/-- The four value kinds (R13). -/
inductive ValueKind where
  | ascii
  | utf8
  | raw
  | int
deriving DecidableEq, Repr

/-- TagCode(kind), as R80 lists it. -/
def tagCode : ValueKind → List Bool
  | .ascii => [false]
  | .utf8 => [true, false]
  | .raw => [true, true, false]
  | .int => [true, true, true]

/-- The code of symbol v of a table as a bit string, leftmost bit first (R55, R114); no code outside the table. -/
def symbolBits (t : CodeTable) (v : Nat) : List Bool :=
  match t[v]? with
  | some c => bitsOf c.len.toNat (c.code.setWidth 32)
  | none => []

/-- The ASCII body (R81): bytes of 128 and above contribute nothing. -/
def asciiWireBody (t : List Byte) : List Bool :=
  (t.filter (fun b => decide (b.toNat < 128))).flatMap (fun b => symbolBits ascc b.toNat) ++ symbolBits ascc 128

/-- The UTF8 body (R82). -/
def utf8WireBody (t : List Byte) : List Bool :=
  t.flatMap (fun b => symbolBits fbc b.toNat) ++ symbolBits fbc 256

/-- The RAW body (R83): zero bytes contribute nothing; one literal zero byte ends it. -/
def rawWireBody (t : List Byte) : List Bool :=
  (t.filter (fun b => decide (b ≠ 0))).flatMap byteBits ++ byteBits 0

/-- The bracket bits of an INT body (R84). -/
def bracketBits (v : Word) : List Bool :=
  if v.toNat < 16 then [false]
  else if v.toNat < 256 then [true, false]
  else if v.toNat < 65536 then [true, true, false]
  else [true, true, true]

/-- The payload width of an INT body (R84). -/
def payloadWidth (v : Word) : Nat :=
  if v.toNat < 16 then 4 else if v.toNat < 256 then 8 else if v.toNat < 65536 then 16 else 32

/-- The INT body (R84). -/
def intWireBody (v : Word) : List Bool := bracketBits v ++ bitsOf (payloadWidth v) v

/-- A text value of a kind (R80): tag, then body. -/
def textWire : ValueKind → List Byte → List Bool
  | .ascii, t => tagCode .ascii ++ asciiWireBody t
  | .utf8, t => tagCode .utf8 ++ utf8WireBody t
  | .raw, t => tagCode .raw ++ rawWireBody t
  | .int, _ => []

/-- An integer value (R80). -/
def intWire (v : Word) : List Bool := tagCode .int ++ intWireBody v

/-- The kind the adaptive selector picks (R136): no high byte gives ASCII; else no zero byte gives RAW; else UTF8. -/
def autoKind (t : List Byte) : ValueKind :=
  if ∀ b ∈ t, b.toNat < 128 then .ascii
  else if ∀ b ∈ t, b ≠ 0 then .raw
  else .utf8

/-- The codes or literal bytes of a text's kept bytes, without tag and terminator (R81 to R83). -/
def textSymbolBits : ValueKind → List Byte → List Bool
  | .ascii, t => t.flatMap (fun b => symbolBits ascc b.toNat)
  | .utf8, t => t.flatMap (fun b => symbolBits fbc b.toNat)
  | .raw, t => t.flatMap byteBits
  | .int, _ => []

/-- The value DEC_RKIND has for a kind (R29): the Tag symbol. -/
def kindCode : ValueKind → BitVec 3
  | .ascii => 0
  | .utf8 => 1
  | .raw => 2
  | .int => 3

/-- The four bracket and payload forms a decoder accepts (R84, R85, R145). -/
def intForms : List (List Bool × Nat) :=
  [([false], 4), ([true, false], 8), ([true, true, false], 16), ([true, true, true], 32)]

/-- What a text of a kind reads back as (R139): ASCII loses the bytes >= 128, RAW the zero bytes, UTF8 nothing. -/
def keptText : ValueKind → List Byte → List Byte
  | .ascii, t => t.filter (fun b => decide (b.toNat < 128))
  | .utf8, t => t
  | .raw, t => t.filter (fun b => decide (b ≠ 0))
  | .int, _ => []

/-- The bits a command's Body writes when every Push succeeds (R79): a value, N raw bits, 0 to 7 zero bits; the DEC
commands and RESET write none. -/
def wireBitsOf (s : State) : Instr → List Bool
  | .encAscii => textWire .ascii (s.enc.text s.params.txtMax)
  | .encUtf8 => textWire .utf8 (s.enc.text s.params.txtMax)
  | .encRaw => textWire .raw (s.enc.text s.params.txtMax)
  | .encAuto => textWire (autoKind (s.enc.text s.params.txtMax)) (s.enc.text s.params.txtMax)
  | .encSym => intWire s.enc.arg
  | .encPutbits n => bitsOf n.toNat s.enc.arg
  | .encAlign => List.replicate ((8 - s.enc.nbits.toNat) % 8) false
  | .encReset => []
  | .decValue => []
  | .decGetbits _ => []
  | .decAlign => []
  | .decReset => []

/-- The output stream's bits so far (R52, R53): the accepted bytes of this stream, then the pending bits of ACC (R21). -/
def Encoder.streamBits (e : Encoder) : List Bool :=
  (e.sink.accepted.drop e.outBase).flatMap byteBits ++ bitsOf e.nbits.toNat (e.acc.setWidth 32)

/-- SINK after k more Pushes, as far as its answers go (an answer does not depend on the byte offered). -/
def Sink.afterPushes : Nat → Sink → Sink
  | 0, s => s
  | k + 1, s => Sink.afterPushes k (s.push 0)

/-- SINK accepts each of the next k Pushes. -/
abbrev Sink.acceptsNext (k : Nat) (s : Sink) : Prop := ∀ j < k, (Sink.afterPushes j s).answer = .ok

/-- The bytes the script's answers deliver before the first failure. -/
def comingBytes : List PullAnswer → List Byte
  | [] => []
  | .fail :: _ => []
  | .data b :: rest => b :: comingBytes rest

/-- The script's answers before the first failure are followed by a failure. -/
def failsAfterBytes : List PullAnswer → Bool
  | [] => false
  | .fail :: _ => true
  | .data _ :: rest => failsAfterBytes rest

/-- The input bits ahead of the decoder as far as the script gives them (R23, R53): the unconsumed bits of CUR, then
the bits of the bytes to come. -/
def Decoder.bitsAhead (d : Decoder) : List Bool :=
  bitsOf d.nbits.toNat (d.cur.setWidth 32) ++ (comingBytes d.source.script).flatMap byteBits

end Sys2Proof.Machine
end

