-- ==== Sys2Proof/Safety.lean ====
section
/-! DEFINITION. What holds of every state the machine reaches (spec 10_state.md R21, R25, R27 to R29, R40, R43,
93_implementation_defined.md U4, U13), in the terms the statements use. -/

namespace Sys2Proof

open Sys2Proof.Machine

/-- The encoder channel's part: ECODE is NONE, IO or ILLEGAL, and 0 exactly when ERR = 0 (R25, R150, U13); ACC is zero
above its NBITS pending bits (R21); TBUF is canonical and below TXT_MAX (R36); BITCNT is 8 x the bytes SINK accepted on
this stream + NBITS modulo 2^32 while ERR = 0 (R27). -/
structure EncoderInv (p : Params) (e : Encoder) : Prop where
  code_known : e.ecode = 0 ∨ e.ecode = 1 ∨ e.ecode = 3
  code_iff_err : e.ecode = 0 ↔ e.err = false
  acc_above_zero : e.acc.toNat < 2 ^ e.nbits.toNat
  tbuf_wf : Memory.wf e.tbuf = true
  tbuf_below : ∀ c ∈ e.tbuf, c.1 < p.txtMax
  base_le : e.outBase ≤ e.sink.accepted.length
  bitcnt_eq : e.err = false →
    e.bitcnt = BitVec.ofNat 32 (8 * (e.sink.accepted.length - e.outBase) + e.nbits.toNat)

/-- The decoder channel's part: ECODE is NONE, IO, ILLEGAL or CAPACITY, never PROTO (R25, R147, U13); an error leaves no
result (R154); without a result RKIND = 7, RLEN = 0, RINT = 0 (R28); the result registers fit the kind (R29); RLEN is at
most RES_MAX (R40); RBUF is canonical and below RLEN (R43); BITCNT is 8 x the bytes pulled on this stream - NBITS modulo
2^32 (R27). -/
structure DecoderInv (p : Params) (d : Decoder) : Prop where
  code_known : d.ecode = 0 ∨ d.ecode = 1 ∨ d.ecode = 3 ∨ d.ecode = 4
  code_iff_err : d.ecode = 0 ↔ d.err = false
  err_no_result : d.err = true → d.rvalid = false
  no_result : d.rvalid = false → d.rkind = 7 ∧ d.rlen = 0 ∧ d.rint = 0
  result_kind : d.rvalid = true → d.rkind = 0 ∨ d.rkind = 1 ∨ d.rkind = 2 ∨ d.rkind = 3 ∨ d.rkind = 4
  text_no_int : d.rkind = 0 ∨ d.rkind = 1 ∨ d.rkind = 2 → d.rint = 0
  int_no_text : d.rkind = 3 ∨ d.rkind = 4 → d.rlen = 0
  rlen_fits : d.rlen.toNat ≤ p.resMax
  rbuf_wf : Memory.wf d.rbuf = true
  rbuf_below : ∀ c ∈ d.rbuf, c.1 < d.rlen.toNat
  base_le : d.inBase ≤ d.source.pulled.length
  pulled_covers : d.nbits.toNat ≤ 8 * (d.source.pulled.length - d.inBase)
  bitcnt_eq : d.bitcnt = BitVec.ofNat 32 (8 * (d.source.pulled.length - d.inBase) - d.nbits.toNat)

/-- The invariant of the machine. -/
structure Inv (s : State) : Prop where
  params_wf : s.params.wf = true
  encoder : EncoderInv s.params s.enc
  decoder : DecoderInv s.params s.dec

end Sys2Proof
end

