-- ==== Sys2Proof/Certificates/Slice0/Obligations.lean ====
section
/-! DEFINITION. The statements for the provers.  OBLIGATIONS.json lists them with the rules of spec/ they formalise. -/

open Sys2Proof Sys2Proof.Machine

/-! ### Command words (30_encoding.md) -/

/-- A few words of R73 and R74, written out from the maps, decode to their commands. -/
def Obligations.CommandWordsDecode : Prop :=
  decode .enc 0x00000001#32 = .ok .encAscii ∧ decode .enc 0x00000002#32 = .ok .encUtf8 ∧
  decode .enc 0x00000003#32 = .ok .encRaw ∧ decode .enc 0x00000004#32 = .ok .encAuto ∧
  decode .enc 0x00000005#32 = .ok .encSym ∧ decode .enc 0x00002006#32 = .ok (.encPutbits 32) ∧
  decode .enc 0x00000007#32 = .ok .encAlign ∧ decode .enc 0x0000000F#32 = .ok .encReset ∧
  decode .dec 0x00000001#32 = .ok .decValue ∧ decode .dec 0x00000106#32 = .ok (.decGetbits 1) ∧
  decode .dec 0x00000007#32 = .ok .decAlign ∧ decode .dec 0x0000000F#32 = .ok .decReset

/-- R71 to R74, R78: a channel decodes a word to a command exactly when the command is the channel's and the word is
its encoding; so decoding inverts encoding, and no word has two meanings on a channel. -/
def Obligations.DecodeInvertsEncode : Prop :=
  ∀ (ch : Channel) (w : Word) (i : Instr), decode ch w = .ok i ↔ i.channel = ch ∧ encode i = w

/-- R76, R77: Legal(ch, w) is true exactly of the words that decode to a well-formed command whose text operand, if it
has one, fits TXT_MAX. -/
def Obligations.LegalWordsAreWellFormedCommands : Prop :=
  ∀ (ch : Channel) (tlen txtMax : Nat) (w : Word),
    legalWord ch tlen txtMax w = true ↔
      ∃ i, decode ch w = .ok i ∧ i.wellFormed = true ∧
        ((i = .encAscii ∨ i = .encUtf8 ∨ i = .encRaw ∨ i = .encAuto) → tlen ≤ txtMax)

/-- The step whose turn is a channel's runs the command its word decodes to, in the state with that turn used up. -/
def Obligations.StepRunsDecodedCommand : Prop :=
  (∀ (s : State) (rest : List Turn) (w : Word) (i : Instr),
    s.schedule = .enc :: rest → s.enc.running = some w → decode .enc w = .ok i → i.wellFormed = true →
      step s = exec i { s with schedule := rest }) ∧
  (∀ (s : State) (rest : List Turn) (w : Word) (i : Instr),
    s.schedule = .dec :: rest → s.dec.running = some w → decode .dec w = .ok i → i.wellFormed = true →
      step s = exec i { s with schedule := rest })

/-- R107 with R93: an illegal word moves no byte, records ILLEGAL if the channel had no error, clears the result on DEC,
and leaves the channel idle with ERR = 1. -/
def Obligations.IllegalWordRecordsIllegal : Prop :=
  (∀ (s : State) (rest : List Turn) (w : Word),
    s.schedule = .enc :: rest → s.enc.running = some w →
    legalWord .enc s.enc.tlen.toNat s.params.txtMax w = false →
      step s = .next { s with
        schedule := rest
        enc := { s.enc with running := none, err := true, ecode := if s.enc.err then s.enc.ecode else 3 } }) ∧
  (∀ (s : State) (rest : List Turn) (w : Word),
    s.schedule = .dec :: rest → s.dec.running = some w → legalWord .dec 0 0 w = false →
      step s = .next { s with
        schedule := rest
        dec := { s.dec with
          running := none, err := true, ecode := if s.dec.err then s.dec.ecode else 3
          rvalid := false, rkind := 7, rlen := 0, rint := 0, rbuf := [] } })

/-! ### Encoder commands (42_encoder.md, 40_channel.md) -/

/-- R81, R133: ENC.ASCII puts, bit by bit, the ASCII value of its text, whatever SINK answers. -/
def Obligations.EncAsciiPutsItsValue : Prop :=
  ∀ s : State, s.enc.tlen.toNat ≤ s.params.txtMax → s.enc.err = false →
    exec .encAscii s = .next (s.setEnc (Encoder.finish (s.enc.runBody
      (putBitString (textWire .ascii (s.enc.text s.params.txtMax))))))

/-- R82, R134: ENC.UTF8 puts the UTF8-style value of its text. -/
def Obligations.EncUtf8PutsItsValue : Prop :=
  ∀ s : State, s.enc.tlen.toNat ≤ s.params.txtMax → s.enc.err = false →
    exec .encUtf8 s = .next (s.setEnc (Encoder.finish (s.enc.runBody
      (putBitString (textWire .utf8 (s.enc.text s.params.txtMax))))))

/-- R83, R135: ENC.RAW puts the raw value of its text: no coded terminator after the zero byte (C1). -/
def Obligations.EncRawPutsItsValue : Prop :=
  ∀ s : State, s.enc.tlen.toNat ≤ s.params.txtMax → s.enc.err = false →
    exec .encRaw s = .next (s.setEnc (Encoder.finish (s.enc.runBody
      (putBitString (textWire .raw (s.enc.text s.params.txtMax))))))

/-- R136: ENC.AUTO puts the value of the kind the selector picks: ASCII without a high byte, RAW with a high byte and
no zero byte, UTF8 with both. -/
def Obligations.EncAutoPutsTheSelectedValue : Prop :=
  ∀ s : State, s.enc.tlen.toNat ≤ s.params.txtMax → s.enc.err = false →
    exec .encAuto s = .next (s.setEnc (Encoder.finish (s.enc.runBody
      (putBitString (textWire (autoKind (s.enc.text s.params.txtMax)) (s.enc.text s.params.txtMax))))))

/-- R84, R137: ENC.SYM puts the integer value of ARG: tag, bracket bits, payload. -/
def Obligations.EncSymPutsItsValue : Prop :=
  ∀ s : State, s.enc.err = false →
    exec .encSym s = .next (s.setEnc (Encoder.finish (s.enc.runBody (putBitString (intWire s.enc.arg)))))

/-- R75, R101: ENC.PUTBITS n puts ARG[n-1:0], most significant bit first; the bits of ARG above are ignored. -/
def Obligations.EncPutbitsPutsTheField : Prop :=
  ∀ (s : State) (n : BitVec 6), 1 ≤ n.toNat → n.toNat ≤ 32 → s.enc.err = false →
    exec (.encPutbits n) s = .next (s.setEnc (Encoder.finish (s.enc.runBody
      (putBitString (bitsOf n.toNat s.enc.arg)))))

/-- R97, R102: ENC.ALIGN puts 8 - NBITS zero bits when NBITS > 0, and nothing when NBITS = 0. -/
def Obligations.EncAlignPadsWithZeros : Prop :=
  ∀ s : State, s.enc.err = false →
    exec .encAlign s = .next (s.setEnc (Encoder.finish (s.enc.runBody
      (putBitString (List.replicate (if s.enc.nbits = 0 then 0 else 8 - s.enc.nbits.toNat) false)))))

/-- R103: ENC.RESET, in any state: no error, no pending bit, BITCNT 0; ARG, TLEN and TBUF kept, nothing pushed.  (outBase
is the model's mark of where the new stream begins.) -/
def Obligations.EncResetStartsANewStream : Prop :=
  ∀ s : State, exec .encReset s = .next { s with enc := { s.enc with
    running := none, err := false, ecode := 0, acc := 0, nbits := 0, bitcnt := 0
    outBase := s.enc.sink.accepted.length } }

/-- R79 and R53, R95: with SINK accepting, each ENC command but RESET completes with no error and appends exactly its
wire bits to the output stream; BITCNT counts them modulo 2^32; the operands and everything outside ENC are unchanged. -/
def Obligations.EncCommandsAppendTheirWireBits : Prop :=
  ∀ (i : Instr) (s : State), i.channel = .enc → i ≠ .encReset → i.wellFormed = true →
    ((i = .encAscii ∨ i = .encUtf8 ∨ i = .encRaw ∨ i = .encAuto) → s.enc.tlen.toNat ≤ s.params.txtMax) →
    s.enc.err = false → s.enc.outBase ≤ s.enc.sink.accepted.length →
    Sink.acceptsNext ((s.enc.nbits.toNat + (wireBitsOf s i).length) / 8) s.enc.sink →
      ∃ e : Encoder, exec i s = .next (s.setEnc e) ∧
        e.streamBits = s.enc.streamBits ++ wireBitsOf s i ∧
        e.bitcnt = s.enc.bitcnt + BitVec.ofNat 32 (wireBitsOf s i).length ∧
        e.nbits.toNat = (s.enc.nbits.toNat + (wireBitsOf s i).length) % 8 ∧
        e.sink.accepted.length = s.enc.sink.accepted.length + (s.enc.nbits.toNat + (wireBitsOf s i).length) / 8 ∧
        e.running = none ∧ e.err = false ∧ e.ecode = s.enc.ecode ∧ e.arg = s.enc.arg ∧ e.tlen = s.enc.tlen ∧
        e.tbuf = s.enc.tbuf ∧ e.tbufEpoch = s.enc.tbufEpoch ∧ e.outBase = s.enc.outBase

/-- R95, R151, R154: when SINK refuses the (k+1)-th byte a command completes, the command ends there with IO: the byte is
lost, ACC and NBITS are 0, BITCNT counts the bit that completed it, k bytes are kept, and nothing later is written. -/
def Obligations.RefusedByteEndsTheCommandWithIo : Prop :=
  ∀ (i : Instr) (s : State) (k : Nat), i.channel = .enc → i ≠ .encReset → i.wellFormed = true →
    ((i = .encAscii ∨ i = .encUtf8 ∨ i = .encRaw ∨ i = .encAuto) → s.enc.tlen.toNat ≤ s.params.txtMax) →
    s.enc.err = false → s.enc.outBase ≤ s.enc.sink.accepted.length →
    Sink.acceptsNext k s.enc.sink → (Sink.afterPushes k s.enc.sink).answer = .fail →
    8 * (k + 1) ≤ s.enc.nbits.toNat + (wireBitsOf s i).length →
      ∃ e : Encoder, exec i s = .next (s.setEnc e) ∧
        e.err = true ∧ e.ecode = 1 ∧ e.running = none ∧ e.acc = 0 ∧ e.nbits = 0 ∧
        e.bitcnt = s.enc.bitcnt + BitVec.ofNat 32 (8 * (k + 1) - s.enc.nbits.toNat) ∧
        e.sink.asked = s.enc.sink.asked + (k + 1) ∧
        e.sink.accepted.length = s.enc.sink.accepted.length + k ∧
        e.streamBits <+: s.enc.streamBits ++ wireBitsOf s i ∧
        e.arg = s.enc.arg ∧ e.tlen = s.enc.tlen ∧ e.tbuf = s.enc.tbuf ∧ e.tbufEpoch = s.enc.tbufEpoch

/-- Every ENC command completes in every state and leaves alone everything but its stream registers: DEC, the host
side, the parameters, ARG, TLEN, every byte of TBUF; the bytes SINK had accepted stay, in order (R17, R33, R61, R62). -/
def Obligations.EncCommandFrame : Prop :=
  ∀ (i : Instr) (s : State), i.channel = .enc →
    ∃ e : Encoder, exec i s = .next (s.setEnc e) ∧
      e.running = none ∧ e.arg = s.enc.arg ∧ e.tlen = s.enc.tlen ∧ e.tbufEpoch = s.enc.tbufEpoch ∧
      (∀ j, e.tbufRead s.params.txtMax j = s.enc.tbufRead s.params.txtMax j) ∧
      s.enc.sink.accepted <+: e.sink.accepted ∧ s.enc.sink.asked ≤ e.sink.asked

/-! ### Decoder commands (43_decoder.md, 40_channel.md) -/

/-- R99, R104: DEC.GETBITS n reads the next n bits, the first the most significant, into RINT with RKIND = 4 and
RLEN = 0, and consumes exactly those bits. -/
def Obligations.DecGetbitsReadsTheField : Prop :=
  ∀ (s : State) (n : BitVec 6) (field rest : List Bool), 1 ≤ n.toNat → n.toNat ≤ 32 → s.dec.err = false →
    field.length = n.toNat → s.dec.bitsAhead = field ++ rest →
      ∃ d : Decoder, exec (.decGetbits n) s = .next (s.setDec d) ∧
        d.running = none ∧ d.err = false ∧ d.ecode = s.dec.ecode ∧
        d.rvalid = true ∧ d.rkind = 4 ∧ d.rlen = 0 ∧ d.rint = BitVec.ofNat 32 (valueOf field) ∧
        d.bitsAhead = rest ∧ d.bitcnt = s.dec.bitcnt + BitVec.ofNat 32 n.toNat ∧ d.inBase = s.dec.inBase

/-- R98, R104, R154: when SOURCE fails before the n-th bit, DEC.GETBITS ends with IO, returns no truncated value, and
has consumed exactly the bits there were. -/
def Obligations.DecGetbitsOnShortInputRaisesIo : Prop :=
  ∀ (s : State) (n : BitVec 6), 1 ≤ n.toNat → n.toNat ≤ 32 → s.dec.err = false →
    s.dec.bitsAhead.length < n.toNat → failsAfterBytes s.dec.source.script = true →
      ∃ d : Decoder, exec (.decGetbits n) s = .next (s.setDec d) ∧
        d.running = none ∧ d.err = true ∧ d.ecode = 1 ∧
        d.rvalid = false ∧ d.rkind = 7 ∧ d.rlen = 0 ∧ d.rint = 0 ∧ d.rbuf = [] ∧
        d.nbits = 0 ∧ d.bitcnt = s.dec.bitcnt + BitVec.ofNat 32 s.dec.bitsAhead.length

/-- R120: reading one symbol: with the code of symbol v next in the stream, CodeDec returns v and consumes exactly it. -/
def Obligations.CodeDecReadsTheNextCode : Prop :=
  ∀ (t : CodeTable) (v : Nat) (d : Decoder) (rest : List Bool), t = tagc ∨ t = ascc ∨ t = fbc → v < t.length →
    d.bitsAhead = symbolBits t v ++ rest →
      ∃ d' : Decoder, codeDec t d = .ok v d' ∧ d'.bitsAhead = rest ∧
        d'.bitcnt = d.bitcnt + BitVec.ofNat 32 (symbolBits t v).length

/-- R145, R85: DEC.VALUE on an integer value returns the payload as read under any of the four brackets, minimal or
not, and consumes exactly the value. -/
def Obligations.DecValueReadsAnInteger : Prop :=
  ∀ (s : State) (form : List Bool × Nat) (payload rest : List Bool), s.dec.err = false →
    form ∈ intForms → payload.length = form.2 →
    s.dec.bitsAhead = tagCode .int ++ form.1 ++ payload ++ rest →
      ∃ d : Decoder, exec .decValue s = .next (s.setDec d) ∧
        d.running = none ∧ d.err = false ∧ d.ecode = s.dec.ecode ∧
        d.rvalid = true ∧ d.rkind = 3 ∧ d.rlen = 0 ∧ d.rint = BitVec.ofNat 32 (valueOf payload) ∧
        d.bitsAhead = rest ∧
        d.bitcnt = s.dec.bitcnt + BitVec.ofNat 32 (3 + form.1.length + form.2) ∧ d.inBase = s.dec.inBase

/-- R142, R143, R144, R146: DEC.VALUE on a text value returns its kind and its bytes, with RLEN their number and
RINT = 0, and consumes exactly the value; a text of exactly RES_MAX bytes fits (R141). -/
def Obligations.DecValueReadsAText : Prop :=
  ∀ (s : State) (kind : ValueKind) (text : List Byte) (rest : List Bool), s.params.wf = true → s.dec.err = false →
    kind ≠ .int → (keptText kind text).length ≤ s.params.resMax →
    s.dec.bitsAhead = textWire kind text ++ rest →
      ∃ d : Decoder, exec .decValue s = .next (s.setDec d) ∧
        d.running = none ∧ d.err = false ∧ d.ecode = s.dec.ecode ∧
        d.rvalid = true ∧ d.rkind = kindCode kind ∧ d.rlen.toNat = (keptText kind text).length ∧ d.rint = 0 ∧
        (∀ (j : Nat) (b free : Byte), (keptText kind text)[j]? = some b → d.rbufRead s.params.resMax j free = b) ∧
        d.bitsAhead = rest ∧
        d.bitcnt = s.dec.bitcnt + BitVec.ofNat 32 (textWire kind text).length ∧ d.inBase = s.dec.inBase

/-- R141, R154: a text of more than RES_MAX bytes ends DEC.VALUE with CAPACITY at byte RES_MAX + 1: the result is cleared
and exactly the bits up to that byte's last are consumed. -/
def Obligations.DecValueTooLongRaisesCapacity : Prop :=
  ∀ (s : State) (kind : ValueKind) (text : List Byte) (rest : List Bool), s.dec.err = false →
    kind ≠ .int → s.params.resMax < (keptText kind text).length →
    s.dec.bitsAhead = textWire kind text ++ rest →
      ∃ d : Decoder, exec .decValue s = .next (s.setDec d) ∧
        d.running = none ∧ d.err = true ∧ d.ecode = 4 ∧
        d.rvalid = false ∧ d.rkind = 7 ∧ d.rlen = 0 ∧ d.rint = 0 ∧ d.rbuf = [] ∧
        d.bitsAhead = s.dec.bitsAhead.drop ((tagCode kind).length +
          (textSymbolBits kind ((keptText kind text).take (s.params.resMax + 1))).length)

/-- R121, R140, R154: when the input ends inside a text value, DEC.VALUE ends with IO: no partial result, and exactly the bits
there were are consumed. -/
def Obligations.DecValueOnShortInputRaisesIo : Prop :=
  ∀ (s : State) (kind : ValueKind) (text : List Byte) (missing : List Bool), s.dec.err = false →
    kind ≠ .int → (keptText kind text).length ≤ s.params.resMax → missing ≠ [] →
    s.dec.bitsAhead ++ missing = textWire kind text → failsAfterBytes s.dec.source.script = true →
      ∃ d : Decoder, exec .decValue s = .next (s.setDec d) ∧
        d.running = none ∧ d.err = true ∧ d.ecode = 1 ∧
        d.rvalid = false ∧ d.rkind = 7 ∧ d.rlen = 0 ∧ d.rint = 0 ∧ d.rbuf = [] ∧
        d.nbits = 0 ∧ d.bitcnt = s.dec.bitcnt + BitVec.ofNat 32 s.dec.bitsAhead.length

/-- R147: CodeDec(TAGC) returns only 0, 1, 2 or 3, and on any input at all DEC.VALUE reads a value or raises IO or
CAPACITY, never PROTO. -/
def Obligations.ProtoIsNeverRaised : Prop :=
  (∀ (d d' : Decoder) (v : Nat), codeDec tagc d = .ok v d' → v < 4) ∧
  (∀ (resMax : Nat) (c : ErrorCode) (d d' : Decoder), valueBody resMax d = .error c d' → c = .io ∨ c = .capacity)

/-- R100, R105: DEC.ALIGN discards the unconsumed bits of CUR and counts them; it pulls nothing and keeps the result; the
next bit read is bit 7 of the next byte SOURCE delivers. -/
def Obligations.DecAlignSkipsToTheByteBoundary : Prop :=
  ∀ s : State, s.dec.err = false →
    exec .decAlign s = .next { s with dec := { s.dec with
      running := none, nbits := 0, bitcnt := s.dec.bitcnt + BitVec.ofNat 32 s.dec.nbits.toNat } } ∧
    ∀ (t : State) (b : Byte), exec .decAlign s = .next t → s.dec.source.answer = .data b →
      ∃ d : Decoder, getBit t.dec = .ok (b.getLsbD 7) d

/-- R106: DEC.RESET, in any state: no error, no unconsumed bit, BITCNT 0, no result; nothing pulled.  (inBase is the
model's mark of where the new stream begins.) -/
def Obligations.DecResetStartsANewStream : Prop :=
  ∀ s : State, exec .decReset s = .next { s with dec := { s.dec with
    running := none, err := false, ecode := 0, cur := 0, nbits := 0, bitcnt := 0
    rvalid := false, rkind := 7, rlen := 0, rint := 0, rbuf := []
    inBase := s.dec.source.pulled.length } }

/-- Every DEC command completes in every state and leaves alone everything but DEC's own registers: ENC with every byte
of TBUF, the host side, the parameters; the bytes already pulled stay, in order (R17, R61, R62). -/
def Obligations.DecCommandFrame : Prop :=
  ∀ (i : Instr) (s : State), i.channel = .dec →
    ∃ d : Decoder, exec i s = .next (s.setDec d) ∧ d.running = none ∧
      s.dec.source.pulled <+: d.source.pulled ∧ s.dec.source.asked ≤ d.source.asked ∧
      ((i = .decAlign ∨ i = .decReset) → d.source = s.dec.source)

/-! ### Errors (60_exceptions.md, 40_channel.md) -/

/-- R94, R156: on a channel with ERR = 1 every command word but the legal RESET, illegal words too, completes with ERR
and ECODE as they were, moves no byte and changes no register but BUSY and, on DEC, the result registers, which are
cleared. -/
def Obligations.ErroredChannelIsInert : Prop :=
  (∀ (s : State) (rest : List Turn) (w : Word),
    s.schedule = .enc :: rest → s.enc.running = some w → s.enc.err = true → w ≠ 0x0000000F#32 →
      step s = .next { s with schedule := rest, enc := { s.enc with running := none } }) ∧
  (∀ (s : State) (rest : List Turn) (w : Word),
    s.schedule = .dec :: rest → s.dec.running = some w → s.dec.err = true → w ≠ 0x0000000F#32 →
      step s = .next { s with
        schedule := rest
        dec := { s.dec with running := none, rvalid := false, rkind := 7, rlen := 0, rint := 0, rbuf := [] } })

/-- R24, R158: only the channel's own RESET command and block reset clear ERR: in any step that leaves ERR = 0 where it
was 1, the turn was a block reset or the channel's with the word 0x0000000F. -/
def Obligations.OnlyResetsClearAnError : Prop :=
  ∀ s t : State, step s = .next t →
    (s.enc.err = true → t.enc.err = false →
      (∃ p q r rest, s.schedule = .blockReset p q r :: rest) ∨
      (∃ rest, s.schedule = .enc :: rest ∧ s.enc.running = some 0x0000000F#32)) ∧
    (s.dec.err = true → t.dec.err = false →
      (∃ p q r rest, s.schedule = .blockReset p q r :: rest) ∨
      (∃ rest, s.schedule = .dec :: rest ∧ s.dec.running = some 0x0000000F#32))

/-- R25, R156: a step that leaves a channel's ERR = 1 keeps its ECODE: the code of the first error stays. -/
def Obligations.FirstErrorCodeIsKept : Prop :=
  ∀ s t : State, step s = .next t →
    (s.enc.err = true → t.enc.err = true → t.enc.ecode = s.enc.ecode) ∧
    (s.dec.err = true → t.dec.err = true → t.dec.ecode = s.dec.ecode)

/-! ### Round trips (42_encoder.md R139, 43_decoder.md R149) -/

/-- R139, R149: what ENC.ASCII, ENC.UTF8 and ENC.RAW add to the output stream, DEC.VALUE reads back as the kept text of
that kind, wherever those bits stand in a stream. -/
def Obligations.TextCommandsRoundTrip : Prop :=
  ∀ (s u : State) (i : Instr) (kind : ValueKind) (rest : List Bool),
    (i, kind) ∈ [(Instr.encAscii, ValueKind.ascii), (Instr.encUtf8, ValueKind.utf8), (Instr.encRaw, ValueKind.raw)] →
    s.enc.tlen.toNat ≤ s.params.txtMax → s.enc.err = false → s.enc.outBase ≤ s.enc.sink.accepted.length →
    Sink.acceptsNext ((s.enc.nbits.toNat + (wireBitsOf s i).length) / 8) s.enc.sink →
    u.params.wf = true → u.dec.err = false → s.enc.tlen.toNat ≤ u.params.resMax →
      ∃ (e : Encoder), exec i s = .next (s.setEnc e) ∧
        (u.dec.bitsAhead = e.streamBits.drop s.enc.streamBits.length ++ rest →
          ∃ d : Decoder, exec .decValue u = .next (u.setDec d) ∧ d.rvalid = true ∧ d.rkind = kindCode kind ∧
            d.bitsAhead = rest ∧ d.rlen.toNat = (keptText kind (s.enc.text s.params.txtMax)).length ∧
            ∀ (j : Nat) (b free : Byte), (keptText kind (s.enc.text s.params.txtMax))[j]? = some b →
              d.rbufRead u.params.resMax j free = b)

/-- R139, R149: ENC.AUTO is lossless: DEC.VALUE reads back every text exactly. -/
def Obligations.AutoRoundTripIsLossless : Prop :=
  ∀ (s u : State) (rest : List Bool),
    s.enc.tlen.toNat ≤ s.params.txtMax → s.enc.err = false → s.enc.outBase ≤ s.enc.sink.accepted.length →
    Sink.acceptsNext ((s.enc.nbits.toNat + (wireBitsOf s .encAuto).length) / 8) s.enc.sink →
    u.params.wf = true → u.dec.err = false → s.enc.tlen.toNat ≤ u.params.resMax →
      ∃ (e : Encoder), exec .encAuto s = .next (s.setEnc e) ∧
        (u.dec.bitsAhead = e.streamBits.drop s.enc.streamBits.length ++ rest →
          ∃ d : Decoder, exec .decValue u = .next (u.setDec d) ∧ d.rvalid = true ∧
            d.bitsAhead = rest ∧ d.rlen = s.enc.tlen ∧
            ∀ (j : Nat) (b free : Byte), (s.enc.text s.params.txtMax)[j]? = some b →
              d.rbufRead u.params.resMax j free = b)

/-- R149: decode_symbol(encode_symbol(v)) = v for every 32-bit v. -/
def Obligations.IntegerRoundTrip : Prop :=
  ∀ (s u : State) (rest : List Bool), s.enc.err = false → s.enc.outBase ≤ s.enc.sink.accepted.length →
    Sink.acceptsNext ((s.enc.nbits.toNat + (intWire s.enc.arg).length) / 8) s.enc.sink → u.dec.err = false →
      ∃ (e : Encoder), exec .encSym s = .next (s.setEnc e) ∧
        (u.dec.bitsAhead = e.streamBits.drop s.enc.streamBits.length ++ rest →
          ∃ d : Decoder, exec .decValue u = .next (u.setDec d) ∧ d.rvalid = true ∧ d.rkind = 3 ∧
            d.rint = s.enc.arg ∧ d.bitsAhead = rest)

/-! ### Code tables (41_prefix_code.md) -/

/-- R108, R125, R128, R129: the three listings are what the construction of R113 and R114 gives on the weights of R122 to
R124; their weighted length sums are 47, 9465 and 16976 (R125 to R127). -/
def Obligations.TablesMatchTheConstruction : Prop :=
  (tagBuilder.bind Builder.sealedTable).toOption = some tagc ∧
  (asciiBuilder.bind Builder.sealedTable).toOption = some ascc ∧
  (fullByteBuilder.bind Builder.sealedTable).toOption = some fbc ∧
  (tagBuilder.map (fun b => weightedLength b.freq (tagc.map (fun c => c.len.toNat)))).toOption = some 47 ∧
  (asciiBuilder.map (fun b => weightedLength b.freq (ascc.map (fun c => c.len.toNat)))).toOption = some 9465 ∧
  (fullByteBuilder.map (fun b => weightedLength b.freq (fbc.map (fun c => c.len.toNat)))).toOption = some 16976

/-- R118 for all weights, 0 included: the code lengths of a sealed table of two or more symbols are complete: the sum of
2^-L[v] is 1 (both sides multiplied by 2^m for an m no length exceeds). -/
def Obligations.ConstructedLengthsAreComplete : Prop :=
  ∀ (freq : List Nat) (m : Nat), 2 ≤ freq.length → (∀ l ∈ sealLengths freq, l ≤ m) →
    ((sealLengths freq).map (fun l => 2 ^ (m - l))).sum = 2 ^ m

/-- R118 for all weights: in a sealed table no code is a prefix of another: cut to the shorter code's length, a code of
another symbol is never the shorter code. -/
def Obligations.ConstructedCodesArePrefixFree : Prop :=
  ∀ (freq : List Nat) (u v lu lv cu cv : Nat), 2 ≤ freq.length → u ≠ v →
    (sealLengths freq)[u]? = some lu → (sealLengths freq)[v]? = some lv →
    (sealCodes (sealLengths freq))[u]? = some cu → (sealCodes (sealLengths freq))[v]? = some cv →
    lu ≤ lv → cv >>> (lv - lu) ≠ cu

/-- R87: every one of the three tables is complete and prefix-free: a long enough bit string starts with the code of
exactly one symbol. -/
def Obligations.EveryBitStringStartsWithOneCode : Prop :=
  ∀ (t : CodeTable) (bits : List Bool), t = tagc ∨ t = ascc ∨ t = fbc → t.longest ≤ bits.length →
    ∃ v, (v < t.length ∧ symbolBits t v <+: bits) ∧ ∀ u, u < t.length → symbolBits t u <+: bits → u = v

/-- R180's bounds on the bits of a text value of each kind, and the exact number of bits of an integer value. -/
def Obligations.EncodedValueLengths : Prop :=
  (∀ t : List Byte, (textWire .ascii t).length ≤ 11 + 11 * t.length) ∧
  (∀ t : List Byte, (textWire .utf8 t).length ≤ 12 + 11 * t.length) ∧
  (∀ t : List Byte, (textWire .raw t).length ≤ 11 + 8 * t.length) ∧
  (∀ v : Word, (intWire v).length =
    if v.toNat < 16 then 8 else if v.toNat < 256 then 13 else if v.toNat < 65536 then 22 else 38)

/-! ### The host register window (10_state.md, 20_memory.md) -/

/-- R31 (and R45 while busy): the layout of ENC_STATUS; writes are ignored; it reads 0 after reset. -/
def Obligations.EncStatusLayout : Prop :=
  Reg.ofOffset 0x0000 = .encStatus ∧
  (∀ (s : State) (j : Nat), s.enc.busy = false → (s.regRead .encStatus).getLsbD j =
    if j = 1 then s.enc.err
    else if 4 ≤ j ∧ j ≤ 6 then s.enc.ecode.getLsbD (j - 4)
    else if 8 ≤ j ∧ j ≤ 10 then s.enc.nbits.getLsbD (j - 8)
    else false) ∧
  (∀ s : State, s.enc.busy = true → (s.regRead .encStatus).getLsbD 0 = true ∧
    ∀ j, j ≠ 0 → j ≠ 1 → ¬ (4 ≤ j ∧ j ≤ 6) → ¬ (8 ≤ j ∧ j ≤ 10) → (s.regRead .encStatus).getLsbD j = false) ∧
  (∀ (s : State) (v : Word), s.regWrite .encStatus v = s) ∧
  State.reset.regRead .encStatus = 0

/-- R37 (and R45 while busy): the layout of DEC_STATUS; writes are ignored; it reads 0 after reset. -/
def Obligations.DecStatusLayout : Prop :=
  Reg.ofOffset 0x0100 = .decStatus ∧
  (∀ (s : State) (j : Nat), s.dec.busy = false → (s.regRead .decStatus).getLsbD j =
    if j = 1 then s.dec.err
    else if 4 ≤ j ∧ j ≤ 6 then s.dec.ecode.getLsbD (j - 4)
    else if 8 ≤ j ∧ j ≤ 10 then s.dec.nbits.getLsbD (j - 8)
    else if j = 12 then s.dec.rvalid
    else false) ∧
  (∀ s : State, s.dec.busy = true → (s.regRead .decStatus).getLsbD 0 = true ∧
    ∀ j, j ≠ 0 → j ≠ 1 → ¬ (4 ≤ j ∧ j ≤ 6) → ¬ (8 ≤ j ∧ j ≤ 10) → j ≠ 12 →
      (s.regRead .decStatus).getLsbD j = false) ∧
  (∀ (s : State) (v : Word), s.regWrite .decStatus v = s) ∧
  State.reset.regRead .decStatus = 0

/-- R33, R34: ENC_ARG reads the last value written, ENC_TLEN its low 15 bits; no command changes them; both
are 0 after reset. -/
def Obligations.OperandRegistersKeepTheHostsValue : Prop :=
  (∀ (s : State) (v : Word), (s.regWrite .encArg v).regRead .encArg = v ∧
    (s.regWrite .encTlen v).regRead .encTlen = v &&& 0x00007FFF#32) ∧
  (∀ (i : Instr) (s t : State), exec i s = .next t →
    t.regRead .encArg = s.regRead .encArg ∧ t.regRead .encTlen = s.regRead .encTlen) ∧
  State.reset.regRead .encArg = 0 ∧ State.reset.regRead .encTlen = 0

/-- R36: the ENC_TBUF window: a write of word k stores its four bytes, the lowest-numbered in bits 7:0, except at indexes
of TXT_MAX and above, which read 0; every other byte is unchanged; a read gives the bytes in the same lanes. -/
def Obligations.TbufWindowStoresFourBytes : Prop :=
  (∀ (s : State) (k j : Nat) (v : Word),
    (s.regWrite (.encTbuf k) v).enc.tbufRead s.params.txtMax j =
      if s.params.txtMax ≤ j then 0
      else if 4 * k ≤ j ∧ j < 4 * k + 4 then v.extractLsb' (8 * (j - 4 * k)) 8
      else s.enc.tbufRead s.params.txtMax j) ∧
  (∀ (s : State) (k lane : Nat), lane < 4 →
    (s.regRead (.encTbuf k)).extractLsb' (8 * lane) 8 = s.enc.tbufRead s.params.txtMax (4 * k + lane))

/-- R43: the DEC_RBUF window: lane l of word k is result byte 4k + l below RLEN while RVALID = 1, and 0 at indexes of
RES_MAX and above; writes are ignored. -/
def Obligations.RbufWindowReadsTheResult : Prop :=
  (∀ (s : State) (k lane : Nat) (b : Byte), lane < 4 → 4 * k + lane < s.params.resMax → s.dec.rvalid = true →
    4 * k + lane < s.dec.rlen.toNat → s.dec.rbuf.read (4 * k + lane) = some b →
    (s.regRead (.decRbuf k)).extractLsb' (8 * lane) 8 = b) ∧
  (∀ (s : State) (k lane : Nat), lane < 4 → s.params.resMax ≤ 4 * k + lane →
    (s.regRead (.decRbuf k)).extractLsb' (8 * lane) 8 = 0) ∧
  (∀ (s : State) (k : Nat) (v : Word), s.regWrite (.decRbuf k) v = s)

/-- R44 (with R32, R38): unmapped offsets and write-only registers read 0; writes to unmapped offsets and read-only
registers change nothing; a read changes no register, no stream and no buffer: only the answer to the host and the
model's counter of free values. -/
def Obligations.OtherAccessesHaveNoEffect : Prop :=
  (∀ (s : State) (off : Nat) (v : Word), s.regRead (.unmapped off) = 0 ∧ s.regWrite (.unmapped off) v = s) ∧
  (∀ s : State, s.regRead .encCmd = 0 ∧ s.regRead .decCmd = 0) ∧
  (∀ (s : State) (r : Reg) (v : Word),
    r ∈ [Reg.encStatus, Reg.encBitcnt, Reg.decStatus, Reg.decRkind, Reg.decRlen, Reg.decRint, Reg.decBitcnt] →
      s.regWrite r v = s) ∧
  (∀ (s : State) (k : Nat) (v : Word), s.regWrite (.decRbuf k) v = s) ∧
  (∀ (s : State) (r : Reg), s.performOp (.read r) =
    { s with host := { s.host with answers := s.host.answers ++ [(r, s.regRead r)] }, free := s.free + 1 })

/-- R38 (with R32, R61): ENC_CMD is at offset 0x0004 and DEC_CMD at 0x0104; they read 0; a write of a word starts that
command on the channel (BUSY becomes 1) and changes nothing else. -/
def Obligations.CommandWriteStartsTheChannel : Prop :=
  Reg.ofOffset 0x0004 = .encCmd ∧ Reg.ofOffset 0x0104 = .decCmd ∧
  (∀ s : State, s.regRead .encCmd = 0 ∧ s.regRead .decCmd = 0) ∧
  (∀ (s : State) (w : Word),
    s.performOp (.write .encCmd w) = { s with enc := { s.enc with running := some w } } ∧
    s.performOp (.write .decCmd w) = { s with dec := { s.dec with running := some w } })

/-- R63: while a channel is busy the bus changes nothing of it, and its held accesses stay queued in their order. -/
def Obligations.BusyChannelHoldsItsAccesses : Prop :=
  ∀ (s t : State) (rest : List Turn), s.schedule = .bus :: rest → step s = .next t →
    (s.enc.busy = true → t.enc = s.enc) ∧ (s.dec.busy = true → t.dec = s.dec) ∧
    t.host.queue.filter s.held = s.host.queue.filter s.held

/-- The bus performs the oldest arrived access that is not held; the others keep their order.  With every access held,
nothing happens.  For the accesses to one channel this is the order of arrival of R66 with the hold of R63; that the bus
keeps one order over both channels and the unmapped offsets is the model's choice (log entry 20; R65 orders no access to
one channel with the other). -/
def Obligations.BusServesTheOldestFreeAccess : Prop :=
  ∀ (s : State) (rest : List Turn), s.schedule = .bus :: rest →
    (∀ (before after : List HostOp) (op : HostOp), s.host.queue = before ++ op :: after →
      (∀ x ∈ before, s.held x = true) → s.held op = false →
      step s = .next (State.performOp
        { s with schedule := rest, host := { s.host with queue := before ++ after } } op)) ∧
    ((∀ x ∈ s.host.queue, s.held x = true) → step s = .next { s with schedule := rest })

/-- R58 and R30: a 4-byte access at a multiple of 4 in the window arrives as an access to the register at its offset;
any other width, or any other offset, is refused; an address outside the window is a fault. -/
def Obligations.OnlyAlignedWordAccessesArrive : Prop :=
  ∀ (s : State) (addr width off : Nat) (v : Word), s.params.aliased = false →
    (s.params.base + off = addr → off < 0x10000 → width = 4 → off % 4 = 0 →
      s.issue (.read addr width) = .next (s.enqueue (.read (Reg.ofOffset off))) ∧
      s.issue (.write addr width v) = .next (s.enqueue (.write (Reg.ofOffset off) v))) ∧
    (s.params.base + off = addr → off < 0x10000 → width ≠ 4 ∨ off % 4 ≠ 0 →
      (s.issue (.read addr width) = .refused .accessWidth ∨ s.issue (.read addr width) = .refused .accessAlignment) ∧
      (s.issue (.write addr width v) = .refused .accessWidth ∨
        s.issue (.write addr width v) = .refused .accessAlignment)) ∧
    (addr < s.params.base ∨ s.params.base + 0x10000 ≤ addr →
      s.issue (.read addr width) = .fault .outsideWindow ∧ s.issue (.write addr width v) = .fault .outsideWindow)

/-- R30: every register stands at its offset of the map, and every other word of the 64 KiB window is unmapped. -/
def Obligations.RegisterMapOffsets : Prop :=
  (∀ r : Reg, r ∈ [Reg.encStatus, Reg.encCmd, Reg.encArg, Reg.encTlen, Reg.encBitcnt, Reg.decStatus, Reg.decCmd,
    Reg.decRkind, Reg.decRlen, Reg.decRint, Reg.decBitcnt] → Reg.ofOffset r.offset = r) ∧
  (∀ k : Nat, k < 4096 → Reg.ofOffset (0x4000 + 4 * k) = .encTbuf k ∧ Reg.ofOffset (0x8000 + 4 * k) = .decRbuf k ∧
    (Reg.encTbuf k).offset = 0x4000 + 4 * k ∧ (Reg.decRbuf k).offset = 0x8000 + 4 * k) ∧
  (∀ off : Nat, off < 0x10000 → off % 4 = 0 →
    off ∉ [0x0000, 0x0004, 0x0008, 0x000C, 0x0010, 0x0100, 0x0104, 0x0108, 0x010C, 0x0110, 0x0114] →
    ¬ (0x4000 ≤ off ∧ off < 0xC000) → Reg.ofOffset off = .unmapped off)

/-- R65, R90: performing the operations of any of the four text macros on an idle ENC makes the command's operand exactly
the text, with the macro's command word started; nothing else of the block changes but TBUF, TLEN and BUSY. -/
def Obligations.TextMacroLoadsItsOperand : Prop :=
  ∀ (s : State) (t : List Byte) (mac : OperandMacro) (word : Word),
    s.enc.busy = false → t.length ≤ s.params.txtMax → s.params.wf = true →
    (mac, word) ∈ [(OperandMacro.ascii t, 0x00000001#32), (OperandMacro.utf8 t, 0x00000002#32),
      (OperandMacro.raw t, 0x00000003#32), (OperandMacro.auto t, 0x00000004#32)] →
    ∀ u : State, u = mac.expand.foldl State.performOp s →
      u.enc.text u.params.txtMax = t ∧ u.enc.tlen.toNat = t.length ∧ u.enc.running = some word ∧
      u = { s with enc := { s.enc with running := some word, tlen := u.enc.tlen, tbuf := u.enc.tbuf } }

/-! ### Reset (70_reset_and_hazards.md) -/

/-- R46, R165, R167: block reset leaves every register at its reset value and RBUF and TBUF unwritten; the parameters
stay; the bytes SINK and SOURCE have exchanged stay exchanged. -/
def Obligations.BlockResetGivesTheResetRegisters : Prop :=
  ∀ (s : State) (p q : Nat) (r : Bool) (rest : List Turn), s.schedule = .blockReset p q r :: rest →
    ∃ t : State, step s = .next t ∧
      t.enc.running = none ∧ t.enc.err = false ∧ t.enc.ecode = 0 ∧ t.enc.acc = 0 ∧ t.enc.nbits = 0 ∧
      t.enc.bitcnt = 0 ∧ t.enc.arg = 0 ∧ t.enc.tlen = 0 ∧ t.enc.tbuf = [] ∧
      t.dec.running = none ∧ t.dec.err = false ∧ t.dec.ecode = 0 ∧ t.dec.cur = 0 ∧ t.dec.nbits = 0 ∧
      t.dec.bitcnt = 0 ∧ t.dec.rvalid = false ∧ t.dec.rkind = 7 ∧ t.dec.rlen = 0 ∧ t.dec.rint = 0 ∧ t.dec.rbuf = [] ∧
      t.params = s.params ∧ t.schedule = rest ∧
      s.enc.sink.accepted <+: t.enc.sink.accepted ∧ s.dec.source.pulled <+: t.dec.source.pulled

/-- R167: a command abandoned by block reset after k exchanges: the bytes SINK held stay, and of the bytes the whole
command would have added exactly those of its first k Pushes are there; no later Push is requested; after none of them
SINK is as before the command, after all of them as after it; likewise SOURCE.  Block reset leaves SINK and SOURCE so.
(The exchange count is the model's, log entry 1.) -/
def Obligations.AbandonedCommandKeepsItsFirstExchanges : Prop :=
  (∀ (s t : State) (k : Nat), s.runEncoder = .next t →
    s.enc.sink.accepted <+: (s.abandonedSink k).accepted ∧
    (s.abandonedSink k).accepted = t.enc.sink.accepted.take (s.enc.sink.accepted.length + k) ∧
    (s.abandonedSink k).asked = s.enc.sink.asked + min k (t.enc.sink.asked - s.enc.sink.asked) ∧
    (k = 0 → s.abandonedSink k = s.enc.sink) ∧
    (t.enc.sink.asked ≤ s.enc.sink.asked + k → s.abandonedSink k = t.enc.sink)) ∧
  (∀ (s t : State) (k : Nat), s.runDecoder = .next t →
    s.dec.source.pulled <+: (s.abandonedSource k).pulled ∧
    (s.abandonedSource k).pulled = t.dec.source.pulled.take (s.dec.source.pulled.length + k) ∧
    (s.abandonedSource k).asked = s.dec.source.asked + min k (t.dec.source.asked - s.dec.source.asked) ∧
    (k = 0 → s.abandonedSource k = s.dec.source) ∧
    (t.dec.source.asked ≤ s.dec.source.asked + k → s.abandonedSource k = t.dec.source)) ∧
  (∀ (s u : State) (p q : Nat) (r : Bool) (rest : List Turn), s.schedule = .blockReset p q r :: rest →
    step s = .next u → u.enc.sink = s.abandonedSink p ∧ u.dec.source = s.abandonedSource q)

/-- R46, R166: what the host reads after reset (vector B14). -/
def Obligations.ResetRegistersReadAsListed : Prop :=
  State.reset.regRead .encStatus = 0 ∧ State.reset.regRead .encArg = 0 ∧ State.reset.regRead .encTlen = 0 ∧
  State.reset.regRead .encBitcnt = 0 ∧ State.reset.regRead .decStatus = 0 ∧ State.reset.regRead .decRkind = 7 ∧
  State.reset.regRead .decRlen = 0 ∧ State.reset.regRead .decRint = 0 ∧ State.reset.regRead .decBitcnt = 0

/-! ### The whole machine -/

/-- The invariant (Sys2Proof/Safety.lean) holds after reset. -/
def Obligations.ResetSatisfiesTheInvariant : Prop := Inv State.reset

/-- Every step keeps the invariant, from every state that has it. -/
def Obligations.EveryStepKeepsTheInvariant : Prop :=
  ∀ s t : State, Inv s → step s = .next t → Inv t

/-- R163, R65: the channels share no writable state: what an ENC command does to ENC depends on ENC and the parameters
alone, what a DEC command does to DEC on DEC and the parameters alone. -/
def Obligations.ChannelsAreIndependent : Prop :=
  ∀ (i : Instr) (s s' t t' : State), s.params = s'.params → exec i s = .next t → exec i s' = .next t' →
    (i.channel = .enc → s.enc = s'.enc → t.enc = t'.enc ∧ t.dec = s.dec ∧ t'.dec = s'.dec) ∧
    (i.channel = .dec → s.dec = s'.dec → t.dec = t'.dec ∧ t.enc = s.enc ∧ t'.enc = s'.enc)

/-! ### Short integer inputs, register reads, and which accesses a busy channel holds -/

/-- R145, R154: when the input ends inside an integer value of any of the four forms, DEC.VALUE ends with IO: no truncated
integer, and exactly the bits there were are consumed. -/
def Obligations.DecValueOnShortIntegerRaisesIo : Prop :=
  ∀ (s : State) (form : List Bool × Nat) (payload missing : List Bool), s.dec.err = false →
    form ∈ intForms → payload.length = form.2 → missing ≠ [] →
    s.dec.bitsAhead ++ missing = tagCode .int ++ form.1 ++ payload → failsAfterBytes s.dec.source.script = true →
      ∃ d : Decoder, exec .decValue s = .next (s.setDec d) ∧
        d.running = none ∧ d.err = true ∧ d.ecode = 1 ∧
        d.rvalid = false ∧ d.rkind = 7 ∧ d.rlen = 0 ∧ d.rint = 0 ∧ d.rbuf = [] ∧
        d.nbits = 0 ∧ d.bitcnt = s.dec.bitcnt + BitVec.ofNat 32 s.dec.bitsAhead.length

/-- R33 to R35, R39 to R42: in every state a read of ARG, TLEN, RKIND, RLEN and RINT, and of BITCNT on an idle channel,
returns the register, in its low bits, with the bits above it 0. -/
def Obligations.RegistersReadTheirValues : Prop :=
  (∀ s : State, s.regRead .encArg = s.enc.arg ∧ s.regRead .decRint = s.dec.rint) ∧
  (∀ s : State, s.enc.busy = false → s.regRead .encBitcnt = s.enc.bitcnt) ∧
  (∀ s : State, s.dec.busy = false → s.regRead .decBitcnt = s.dec.bitcnt) ∧
  (∀ (s : State) (j : Nat), (s.regRead .encTlen).getLsbD j = (decide (j < 15) && s.enc.tlen.getLsbD j)) ∧
  (∀ (s : State) (j : Nat), (s.regRead .decRkind).getLsbD j = (decide (j < 3) && s.dec.rkind.getLsbD j)) ∧
  (∀ (s : State) (j : Nat), (s.regRead .decRlen).getLsbD j = (decide (j < 15) && s.dec.rlen.getLsbD j))

/-- R61, R63: of the accesses to a busy channel, writes of STATUS too, every one is held but the read of its STATUS; an
idle channel holds none, and an unmapped offset is never held. -/
def Obligations.OnlyStatusReadsPassABusyChannel : Prop :=
  (∀ (s : State) (op : HostOp) (ch : Channel), op.reg.channel = some ch → s.busy ch = true →
    (s.held op = false ↔ op = .read (statusRegOf ch))) ∧
  (∀ (s : State) (op : HostOp) (ch : Channel), op.reg.channel = some ch → s.busy ch = false → s.held op = false) ∧
  (∀ (s : State) (op : HostOp), op.reg.channel = none → s.held op = false)
end

