-- ==== Sys2Proof/Laws/State.lean ====
section
/-! SUPPORT. What each update of State, Encoder and Decoder does to each field, true by unfolding the update once; later
proofs cite these by simp and never unfold a record update. -/

namespace Sys2Proof.Machine

/-! ### State.setEnc -/

@[simp] theorem setEnc_params (s : State) (e : Encoder) :
    (s.setEnc e).params = s.params := rfl

@[simp] theorem setEnc_enc (s : State) (e : Encoder) :
    (s.setEnc e).enc = e := rfl

@[simp] theorem setEnc_dec (s : State) (e : Encoder) :
    (s.setEnc e).dec = s.dec := rfl

@[simp] theorem setEnc_host (s : State) (e : Encoder) :
    (s.setEnc e).host = s.host := rfl

@[simp] theorem setEnc_schedule (s : State) (e : Encoder) :
    (s.setEnc e).schedule = s.schedule := rfl

@[simp] theorem setEnc_free (s : State) (e : Encoder) :
    (s.setEnc e).free = s.free := rfl

/-! ### State.setDec -/

@[simp] theorem setDec_params (s : State) (d : Decoder) :
    (s.setDec d).params = s.params := rfl

@[simp] theorem setDec_enc (s : State) (d : Decoder) :
    (s.setDec d).enc = s.enc := rfl

@[simp] theorem setDec_dec (s : State) (d : Decoder) :
    (s.setDec d).dec = d := rfl

@[simp] theorem setDec_host (s : State) (d : Decoder) :
    (s.setDec d).host = s.host := rfl

@[simp] theorem setDec_schedule (s : State) (d : Decoder) :
    (s.setDec d).schedule = s.schedule := rfl

@[simp] theorem setDec_free (s : State) (d : Decoder) :
    (s.setDec d).free = s.free := rfl

/-! ### State.enqueue -/

@[simp] theorem enqueue_params (s : State) (op : HostOp) :
    (s.enqueue op).params = s.params := rfl

@[simp] theorem enqueue_enc (s : State) (op : HostOp) :
    (s.enqueue op).enc = s.enc := rfl

@[simp] theorem enqueue_dec (s : State) (op : HostOp) :
    (s.enqueue op).dec = s.dec := rfl

@[simp] theorem enqueue_host (s : State) (op : HostOp) :
    (s.enqueue op).host = ⟨s.host.queue ++ [op], s.host.answers⟩ := rfl

@[simp] theorem enqueue_schedule (s : State) (op : HostOp) :
    (s.enqueue op).schedule = s.schedule := rfl

@[simp] theorem enqueue_free (s : State) (op : HostOp) :
    (s.enqueue op).free = s.free := rfl

/-! ### State.answerRead -/

@[simp] theorem answerRead_params (s : State) (r : Reg) :
    (s.answerRead r).params = s.params := rfl

@[simp] theorem answerRead_enc (s : State) (r : Reg) :
    (s.answerRead r).enc = s.enc := rfl

@[simp] theorem answerRead_dec (s : State) (r : Reg) :
    (s.answerRead r).dec = s.dec := rfl

@[simp] theorem answerRead_host (s : State) (r : Reg) :
    (s.answerRead r).host = ⟨s.host.queue, s.host.answers ++ [(r, s.regRead r)]⟩ := rfl

@[simp] theorem answerRead_schedule (s : State) (r : Reg) :
    (s.answerRead r).schedule = s.schedule := rfl

@[simp] theorem answerRead_free (s : State) (r : Reg) :
    (s.answerRead r).free = s.free + 1 := rfl

/-! ### State.loadWord -/

@[simp] theorem loadWord_params (s : State) (w : Word) :
    (s.loadWord w).params = s.params := rfl

@[simp] theorem loadWord_dec (s : State) (w : Word) :
    (s.loadWord w).dec = s.dec := rfl

@[simp] theorem loadWord_host (s : State) (w : Word) :
    (s.loadWord w).host = s.host := rfl

@[simp] theorem loadWord_schedule (s : State) (w : Word) :
    (s.loadWord w).schedule = .enc :: s.schedule := rfl

@[simp] theorem loadWord_free (s : State) (w : Word) :
    (s.loadWord w).free = s.free := rfl

/-! ### State.resetBlock -/

@[simp] theorem resetBlock_params (s : State) (p q : Nat) :
    (s.resetBlock p q).params = s.params := rfl

@[simp] theorem resetBlock_enc (s : State) (p q : Nat) :
    (s.resetBlock p q).enc = Encoder.fresh (s.abandonedSink p) (s.free + 1) := rfl

@[simp] theorem resetBlock_dec (s : State) (p q : Nat) :
    (s.resetBlock p q).dec = Decoder.fresh (s.abandonedSource q) := rfl

@[simp] theorem resetBlock_host (s : State) (p q : Nat) :
    (s.resetBlock p q).host = s.host := rfl

@[simp] theorem resetBlock_schedule (s : State) (p q : Nat) :
    (s.resetBlock p q).schedule = s.schedule := rfl

@[simp] theorem resetBlock_free (s : State) (p q : Nat) :
    (s.resetBlock p q).free = s.free + 1 := rfl

/-! ### Encoder.finish -/

@[simp] theorem encFinish_running (e : Encoder) :
    (e.finish).running = none := rfl

@[simp] theorem encFinish_err (e : Encoder) :
    (e.finish).err = e.err := rfl

@[simp] theorem encFinish_ecode (e : Encoder) :
    (e.finish).ecode = e.ecode := rfl

@[simp] theorem encFinish_acc (e : Encoder) :
    (e.finish).acc = e.acc := rfl

@[simp] theorem encFinish_nbits (e : Encoder) :
    (e.finish).nbits = e.nbits := rfl

@[simp] theorem encFinish_bitcnt (e : Encoder) :
    (e.finish).bitcnt = e.bitcnt := rfl

@[simp] theorem encFinish_arg (e : Encoder) :
    (e.finish).arg = e.arg := rfl

@[simp] theorem encFinish_tlen (e : Encoder) :
    (e.finish).tlen = e.tlen := rfl

@[simp] theorem encFinish_tbuf (e : Encoder) :
    (e.finish).tbuf = e.tbuf := rfl

@[simp] theorem encFinish_tbufEpoch (e : Encoder) :
    (e.finish).tbufEpoch = e.tbufEpoch := rfl

@[simp] theorem encFinish_sink (e : Encoder) :
    (e.finish).sink = e.sink := rfl

@[simp] theorem encFinish_outBase (e : Encoder) :
    (e.finish).outBase = e.outBase := rfl

/-! ### Encoder.raise -/

@[simp] theorem encRaise_running (e : Encoder) (c : ErrorCode) :
    (e.raise c).running = e.running := rfl

@[simp] theorem encRaise_err (e : Encoder) (c : ErrorCode) :
    (e.raise c).err = true := rfl

@[simp] theorem encRaise_ecode (e : Encoder) (c : ErrorCode) :
    (e.raise c).ecode = c.code := rfl

@[simp] theorem encRaise_acc (e : Encoder) (c : ErrorCode) :
    (e.raise c).acc = e.acc := rfl

@[simp] theorem encRaise_nbits (e : Encoder) (c : ErrorCode) :
    (e.raise c).nbits = e.nbits := rfl

@[simp] theorem encRaise_bitcnt (e : Encoder) (c : ErrorCode) :
    (e.raise c).bitcnt = e.bitcnt := rfl

@[simp] theorem encRaise_arg (e : Encoder) (c : ErrorCode) :
    (e.raise c).arg = e.arg := rfl

@[simp] theorem encRaise_tlen (e : Encoder) (c : ErrorCode) :
    (e.raise c).tlen = e.tlen := rfl

@[simp] theorem encRaise_tbuf (e : Encoder) (c : ErrorCode) :
    (e.raise c).tbuf = e.tbuf := rfl

@[simp] theorem encRaise_tbufEpoch (e : Encoder) (c : ErrorCode) :
    (e.raise c).tbufEpoch = e.tbufEpoch := rfl

@[simp] theorem encRaise_sink (e : Encoder) (c : ErrorCode) :
    (e.raise c).sink = e.sink := rfl

@[simp] theorem encRaise_outBase (e : Encoder) (c : ErrorCode) :
    (e.raise c).outBase = e.outBase := rfl

/-! ### Encoder.channelReset -/

@[simp] theorem encChannelReset_running (e : Encoder) :
    (e.channelReset).running = e.running := rfl

@[simp] theorem encChannelReset_err (e : Encoder) :
    (e.channelReset).err = false := rfl

@[simp] theorem encChannelReset_ecode (e : Encoder) :
    (e.channelReset).ecode = 0 := rfl

@[simp] theorem encChannelReset_acc (e : Encoder) :
    (e.channelReset).acc = 0 := rfl

@[simp] theorem encChannelReset_nbits (e : Encoder) :
    (e.channelReset).nbits = 0 := rfl

@[simp] theorem encChannelReset_bitcnt (e : Encoder) :
    (e.channelReset).bitcnt = 0 := rfl

@[simp] theorem encChannelReset_arg (e : Encoder) :
    (e.channelReset).arg = e.arg := rfl

@[simp] theorem encChannelReset_tlen (e : Encoder) :
    (e.channelReset).tlen = e.tlen := rfl

@[simp] theorem encChannelReset_tbuf (e : Encoder) :
    (e.channelReset).tbuf = e.tbuf := rfl

@[simp] theorem encChannelReset_tbufEpoch (e : Encoder) :
    (e.channelReset).tbufEpoch = e.tbufEpoch := rfl

@[simp] theorem encChannelReset_sink (e : Encoder) :
    (e.channelReset).sink = e.sink := rfl

@[simp] theorem encChannelReset_outBase (e : Encoder) :
    (e.channelReset).outBase = e.sink.accepted.length := rfl

/-! ### Encoder.fresh -/

@[simp] theorem encFresh_running (k : Sink) (n : Nat) :
    (Encoder.fresh k n).running = none := rfl

@[simp] theorem encFresh_err (k : Sink) (n : Nat) :
    (Encoder.fresh k n).err = false := rfl

@[simp] theorem encFresh_ecode (k : Sink) (n : Nat) :
    (Encoder.fresh k n).ecode = 0 := rfl

@[simp] theorem encFresh_acc (k : Sink) (n : Nat) :
    (Encoder.fresh k n).acc = 0 := rfl

@[simp] theorem encFresh_nbits (k : Sink) (n : Nat) :
    (Encoder.fresh k n).nbits = 0 := rfl

@[simp] theorem encFresh_bitcnt (k : Sink) (n : Nat) :
    (Encoder.fresh k n).bitcnt = 0 := rfl

@[simp] theorem encFresh_arg (k : Sink) (n : Nat) :
    (Encoder.fresh k n).arg = 0 := rfl

@[simp] theorem encFresh_tlen (k : Sink) (n : Nat) :
    (Encoder.fresh k n).tlen = 0 := rfl

@[simp] theorem encFresh_tbuf (k : Sink) (n : Nat) :
    (Encoder.fresh k n).tbuf = [] := rfl

@[simp] theorem encFresh_tbufEpoch (k : Sink) (n : Nat) :
    (Encoder.fresh k n).tbufEpoch = n := rfl

@[simp] theorem encFresh_sink (k : Sink) (n : Nat) :
    (Encoder.fresh k n).sink = k := rfl

@[simp] theorem encFresh_outBase (k : Sink) (n : Nat) :
    (Encoder.fresh k n).outBase = k.accepted.length := rfl

/-! ### Decoder.finish -/

@[simp] theorem decFinish_running (d : Decoder) :
    (d.finish).running = none := rfl

@[simp] theorem decFinish_err (d : Decoder) :
    (d.finish).err = d.err := rfl

@[simp] theorem decFinish_ecode (d : Decoder) :
    (d.finish).ecode = d.ecode := rfl

@[simp] theorem decFinish_cur (d : Decoder) :
    (d.finish).cur = d.cur := rfl

@[simp] theorem decFinish_nbits (d : Decoder) :
    (d.finish).nbits = d.nbits := rfl

@[simp] theorem decFinish_bitcnt (d : Decoder) :
    (d.finish).bitcnt = d.bitcnt := rfl

@[simp] theorem decFinish_rvalid (d : Decoder) :
    (d.finish).rvalid = d.rvalid := rfl

@[simp] theorem decFinish_rkind (d : Decoder) :
    (d.finish).rkind = d.rkind := rfl

@[simp] theorem decFinish_rlen (d : Decoder) :
    (d.finish).rlen = d.rlen := rfl

@[simp] theorem decFinish_rint (d : Decoder) :
    (d.finish).rint = d.rint := rfl

@[simp] theorem decFinish_rbuf (d : Decoder) :
    (d.finish).rbuf = d.rbuf := rfl

@[simp] theorem decFinish_source (d : Decoder) :
    (d.finish).source = d.source := rfl

@[simp] theorem decFinish_inBase (d : Decoder) :
    (d.finish).inBase = d.inBase := rfl

/-! ### Decoder.clearResult -/

@[simp] theorem clearResult_running (d : Decoder) :
    (d.clearResult).running = d.running := rfl

@[simp] theorem clearResult_err (d : Decoder) :
    (d.clearResult).err = d.err := rfl

@[simp] theorem clearResult_ecode (d : Decoder) :
    (d.clearResult).ecode = d.ecode := rfl

@[simp] theorem clearResult_cur (d : Decoder) :
    (d.clearResult).cur = d.cur := rfl

@[simp] theorem clearResult_nbits (d : Decoder) :
    (d.clearResult).nbits = d.nbits := rfl

@[simp] theorem clearResult_bitcnt (d : Decoder) :
    (d.clearResult).bitcnt = d.bitcnt := rfl

@[simp] theorem clearResult_rvalid (d : Decoder) :
    (d.clearResult).rvalid = false := rfl

@[simp] theorem clearResult_rkind (d : Decoder) :
    (d.clearResult).rkind = 7 := rfl

@[simp] theorem clearResult_rlen (d : Decoder) :
    (d.clearResult).rlen = 0 := rfl

@[simp] theorem clearResult_rint (d : Decoder) :
    (d.clearResult).rint = 0 := rfl

@[simp] theorem clearResult_rbuf (d : Decoder) :
    (d.clearResult).rbuf = [] := rfl

@[simp] theorem clearResult_source (d : Decoder) :
    (d.clearResult).source = d.source := rfl

@[simp] theorem clearResult_inBase (d : Decoder) :
    (d.clearResult).inBase = d.inBase := rfl

/-! ### Decoder.raise -/

@[simp] theorem decRaise_running (d : Decoder) (c : ErrorCode) :
    (d.raise c).running = d.running := rfl

@[simp] theorem decRaise_err (d : Decoder) (c : ErrorCode) :
    (d.raise c).err = true := rfl

@[simp] theorem decRaise_ecode (d : Decoder) (c : ErrorCode) :
    (d.raise c).ecode = c.code := rfl

@[simp] theorem decRaise_cur (d : Decoder) (c : ErrorCode) :
    (d.raise c).cur = d.cur := rfl

@[simp] theorem decRaise_nbits (d : Decoder) (c : ErrorCode) :
    (d.raise c).nbits = d.nbits := rfl

@[simp] theorem decRaise_bitcnt (d : Decoder) (c : ErrorCode) :
    (d.raise c).bitcnt = d.bitcnt := rfl

@[simp] theorem decRaise_rvalid (d : Decoder) (c : ErrorCode) :
    (d.raise c).rvalid = false := rfl

@[simp] theorem decRaise_rkind (d : Decoder) (c : ErrorCode) :
    (d.raise c).rkind = 7 := rfl

@[simp] theorem decRaise_rlen (d : Decoder) (c : ErrorCode) :
    (d.raise c).rlen = 0 := rfl

@[simp] theorem decRaise_rint (d : Decoder) (c : ErrorCode) :
    (d.raise c).rint = 0 := rfl

@[simp] theorem decRaise_rbuf (d : Decoder) (c : ErrorCode) :
    (d.raise c).rbuf = [] := rfl

@[simp] theorem decRaise_source (d : Decoder) (c : ErrorCode) :
    (d.raise c).source = d.source := rfl

@[simp] theorem decRaise_inBase (d : Decoder) (c : ErrorCode) :
    (d.raise c).inBase = d.inBase := rfl

/-! ### Decoder.channelReset -/

@[simp] theorem decChannelReset_running (d : Decoder) :
    (d.channelReset).running = d.running := rfl

@[simp] theorem decChannelReset_err (d : Decoder) :
    (d.channelReset).err = false := rfl

@[simp] theorem decChannelReset_ecode (d : Decoder) :
    (d.channelReset).ecode = 0 := rfl

@[simp] theorem decChannelReset_cur (d : Decoder) :
    (d.channelReset).cur = 0 := rfl

@[simp] theorem decChannelReset_nbits (d : Decoder) :
    (d.channelReset).nbits = 0 := rfl

@[simp] theorem decChannelReset_bitcnt (d : Decoder) :
    (d.channelReset).bitcnt = 0 := rfl

@[simp] theorem decChannelReset_rvalid (d : Decoder) :
    (d.channelReset).rvalid = false := rfl

@[simp] theorem decChannelReset_rkind (d : Decoder) :
    (d.channelReset).rkind = 7 := rfl

@[simp] theorem decChannelReset_rlen (d : Decoder) :
    (d.channelReset).rlen = 0 := rfl

@[simp] theorem decChannelReset_rint (d : Decoder) :
    (d.channelReset).rint = 0 := rfl

@[simp] theorem decChannelReset_rbuf (d : Decoder) :
    (d.channelReset).rbuf = [] := rfl

@[simp] theorem decChannelReset_source (d : Decoder) :
    (d.channelReset).source = d.source := rfl

@[simp] theorem decChannelReset_inBase (d : Decoder) :
    (d.channelReset).inBase = d.source.pulled.length := rfl

/-! ### Decoder.fresh -/

@[simp] theorem decFresh_running (k : Source) :
    (Decoder.fresh k).running = none := rfl

@[simp] theorem decFresh_err (k : Source) :
    (Decoder.fresh k).err = false := rfl

@[simp] theorem decFresh_ecode (k : Source) :
    (Decoder.fresh k).ecode = 0 := rfl

@[simp] theorem decFresh_cur (k : Source) :
    (Decoder.fresh k).cur = 0 := rfl

@[simp] theorem decFresh_nbits (k : Source) :
    (Decoder.fresh k).nbits = 0 := rfl

@[simp] theorem decFresh_bitcnt (k : Source) :
    (Decoder.fresh k).bitcnt = 0 := rfl

@[simp] theorem decFresh_rvalid (k : Source) :
    (Decoder.fresh k).rvalid = false := rfl

@[simp] theorem decFresh_rkind (k : Source) :
    (Decoder.fresh k).rkind = 7 := rfl

@[simp] theorem decFresh_rlen (k : Source) :
    (Decoder.fresh k).rlen = 0 := rfl

@[simp] theorem decFresh_rint (k : Source) :
    (Decoder.fresh k).rint = 0 := rfl

@[simp] theorem decFresh_rbuf (k : Source) :
    (Decoder.fresh k).rbuf = [] := rfl

@[simp] theorem decFresh_source (k : Source) :
    (Decoder.fresh k).source = k := rfl

@[simp] theorem decFresh_inBase (k : Source) :
    (Decoder.fresh k).inBase = k.pulled.length := rfl

end Sys2Proof.Machine
end

