-- ==== Sys2Proof/Laws/Memory.lean ====
section
/-! SUPPORT. The laws of the byte arrays (TBUF, RBUF): what a read gives after a write or a cut, and that every
operation keeps the canonical form. -/

namespace Sys2Proof.Machine

@[simp] theorem memory_read_nil (i : Nat) : Memory.read [] i = none := rfl

@[simp] theorem memory_read_cons (c : Host.Cell) (m : Memory) (i : Nat) :
    Memory.read (c :: m) i = if c.1 = i then some c.2 else Memory.read m i := rfl

@[simp] theorem memory_wf_nil : Memory.wf [] = true := rfl

/-- A read of the written index gives the byte written, whatever the array. -/
theorem memory_read_write_same (m : Memory) (i : Nat) (b : Byte) : (m.write i b).read i = some b := by
  induction m with
  | nil => simp [Memory.write]
  | cons c m ih =>
    simp only [Memory.write]
    split
    · simp
    · split
      · simp
      · rename_i h1 h2
        simp [Ne.symm h2, ih]

/-- A read of any other index gives what it gave before. -/
theorem memory_read_write_other (m : Memory) (i j : Nat) (b : Byte) (h : i ≠ j) :
    (m.write i b).read j = m.read j := by
  induction m with
  | nil => simp [Memory.write, h]
  | cons c m ih =>
    simp only [Memory.write]
    split
    · simp [h]
    · split
      · rename_i h1 h2
        simp [h, ← h2]
      · simp [ih]

/-- Everything a write does to reads. -/
theorem memory_read_write (m : Memory) (i j : Nat) (b : Byte) :
    (m.write i b).read j = if i = j then some b else m.read j := by
  split
  · rename_i h
    subst h
    exact memory_read_write_same m i b
  · rename_i h
    exact memory_read_write_other m i j b h

/-- A cut array keeps the bytes below n and has no value from n on. -/
theorem memory_read_truncate (m : Memory) (n j : Nat) :
    (m.truncate n).read j = if j < n then m.read j else none := by
  induction m with
  | nil => simp [Memory.truncate]
  | cons c m ih =>
    simp only [Memory.truncate, List.filter_cons] at ih ⊢
    by_cases hc : c.1 < n
    · simp only [hc, decide_true, if_true, memory_read_cons, ih]
      split <;> split <;> simp_all
    · simp only [hc, decide_false, Bool.false_eq_true, if_false, ih, memory_read_cons]
      split
      · rename_i hj
        rw [if_neg (by omega)]
      · rfl

theorem memory_mem_write (m : Memory) (i : Nat) (b : Byte) (c : Host.Cell) (h : c ∈ m.write i b) :
    c = (i, b) ∨ c ∈ m := by
  induction m with
  | nil => simpa [Memory.write] using h
  | cons a m ih =>
    simp only [Memory.write] at h
    split at h
    · simpa using h
    · split at h
      · rcases List.mem_cons.mp h with h | h
        · exact .inl h
        · exact .inr (List.mem_cons_of_mem _ h)
      · rcases List.mem_cons.mp h with h | h
        · exact .inr (h ▸ List.mem_cons_self)
        · rcases ih h with h | h
          · exact .inl h
          · exact .inr (List.mem_cons_of_mem _ h)

theorem memory_above_iff (i : Nat) (m : Memory) : Memory.above i m = true ↔ ∀ c ∈ m, i < c.1 := by
  simp [Memory.above, List.all_eq_true]

/-- A write keeps the canonical form. -/
theorem memory_wf_write (m : Memory) (i : Nat) (b : Byte) (h : Memory.wf m = true) :
    Memory.wf (m.write i b) = true := by
  induction m with
  | nil => simp [Memory.write, Memory.wf, Memory.above]
  | cons c m ih =>
    simp only [Memory.wf, Bool.and_eq_true, memory_above_iff] at h
    simp only [Memory.write]
    split
    · rename_i hlt
      simp only [Memory.wf, Bool.and_eq_true, memory_above_iff, List.mem_cons]
      refine ⟨?_, h⟩
      rintro a (rfl | ha)
      · exact hlt
      · exact hlt.trans (h.1 a ha)
    · split
      · rename_i heq
        simp only [Memory.wf, Bool.and_eq_true, memory_above_iff]
        exact ⟨fun a ha => heq ▸ h.1 a ha, h.2⟩
      · simp only [Memory.wf, Bool.and_eq_true, memory_above_iff]
        refine ⟨fun a ha => ?_, ih h.2⟩
        rcases memory_mem_write m i b a ha with rfl | ha
        · simp only
          omega
        · exact h.1 a ha

/-- A cut keeps the canonical form. -/
theorem memory_wf_truncate (m : Memory) (n : Nat) (h : Memory.wf m = true) : Memory.wf (m.truncate n) = true := by
  induction m with
  | nil => rfl
  | cons c m ih =>
    simp only [Memory.wf, Bool.and_eq_true, memory_above_iff] at h
    simp only [Memory.truncate, List.filter_cons] at ih ⊢
    split
    · simp only [Memory.wf, Bool.and_eq_true, memory_above_iff]
      exact ⟨fun a ha => h.1 a (List.mem_filter.mp ha).1, ih h.2⟩
    · exact ih h.2

theorem memory_below_truncate (m : Memory) (n : Nat) : ∀ c ∈ m.truncate n, c.1 < n := by
  intro c hc
  simpa using (List.mem_filter.mp hc).2

/-! ### The buffers built on them -/

/-- Everything a host write of one byte of TBUF does to reads of TBUF. -/
theorem tbufRead_tbufWrite (e : Encoder) (txtMax i j : Nat) (b : Byte) :
    (e.tbufWrite txtMax i b).tbufRead txtMax j =
      if i = j ∧ j < txtMax then b else e.tbufRead txtMax j := by
  simp only [Encoder.tbufWrite, Encoder.tbufRead]
  by_cases hi : txtMax ≤ i
  · have hn : ¬ (i = j ∧ j < txtMax) := by omega
    simp [hi, hn]
  · simp only [hi, if_false, memory_read_write]
    by_cases hj : txtMax ≤ j
    · rw [if_pos hj, if_neg (by omega), if_pos hj]
    · by_cases hij : i = j
      · rw [if_neg hj, if_pos hij, if_pos ⟨hij, by omega⟩]
      · rw [if_neg hj, if_neg hij, if_neg (by tauto), if_neg hj]

/-- A read of TBUF depends on TBUF's cells and epoch alone. -/
theorem tbufRead_congr (e e' : Encoder) (txtMax j : Nat) (hm : e'.tbuf = e.tbuf) (he : e'.tbufEpoch = e.tbufEpoch) :
    e'.tbufRead txtMax j = e.tbufRead txtMax j := by
  simp [Encoder.tbufRead, hm, he]

theorem tbufWrite_wf (e : Encoder) (txtMax i : Nat) (b : Byte) (h : Memory.wf e.tbuf = true) :
    Memory.wf (e.tbufWrite txtMax i b).tbuf = true := by
  simp only [Encoder.tbufWrite]
  split
  · exact h
  · exact memory_wf_write _ _ _ h

end Sys2Proof.Machine
end

