-- ==== Sys2Proof/Laws/Stream.lean ====
section
/-! SUPPORT. The shared operations on the streams, said once: Push and Pull, one bit out and one bit in, bit strings, and
what any piece of a command's pseudocode keeps. -/

namespace Sys2Proof.Machine

/-! ### Sequencing -/

theorem encM_pure {α : Type} (a : α) (e : Encoder) : (pure a : EncM α) e = .ok a e := rfl

theorem encM_bind {α β : Type} (x : EncM α) (f : α → EncM β) (e : Encoder) :
    (x >>= f) e = match x e with
      | .ok a e' => f a e'
      | .error c e' => .error c e' := by
  simp only [bind, EStateM.bind]
  cases x e <;> rfl

theorem encM_throw {α : Type} (c : ErrorCode) (e : Encoder) : (throw c : EncM α) e = .error c e := rfl

theorem decM_pure {α : Type} (a : α) (d : Decoder) : (pure a : DecM α) d = .ok a d := rfl

theorem decM_bind {α β : Type} (x : DecM α) (f : α → DecM β) (d : Decoder) :
    (x >>= f) d = match x d with
      | .ok a d' => f a d'
      | .error c d' => .error c d' := by
  simp only [bind, EStateM.bind]
  cases x d <;> rfl

theorem decM_throw {α : Type} (c : ErrorCode) (d : Decoder) : (throw c : DecM α) d = .error c d := rfl

/-! ### Bit strings -/

@[simp] theorem bitsOf_length (n : Nat) (v : Word) : (bitsOf n v).length = n := by
  induction n with
  | zero => rfl
  | succ n ih => simp [bitsOf, ih]

/-- Two words whose low n bits agree have the same n-bit string. -/
theorem bitsOf_congr (n : Nat) (v w : Word) (h : ∀ j < n, v.getLsbD j = w.getLsbD j) : bitsOf n v = bitsOf n w := by
  induction n with
  | zero => rfl
  | succ n ih => simp [bitsOf, h n (by omega), ih (fun j hj => h j (by omega))]

@[simp] theorem byteBits_length (b : Byte) : (byteBits b).length = 8 := by simp [byteBits]

/-- The bits above the field are ignored (R75): the field of ARG has ARG's own bits. -/
theorem bitsOf_argField (n : Nat) (v : Word) : bitsOf n (argField n v) = bitsOf n v := by
  refine bitsOf_congr n _ _ fun j hj => ?_
  simp only [argField, BitVec.getLsbD_setWidth]
  by_cases h : j < 32
  · simp [h, hj]
  · simp [h, BitVec.getLsbD_of_ge v j (by omega)]

theorem valueFrom_append (v : Nat) (xs ys : List Bool) :
    valueFrom v (xs ++ ys) = valueFrom (valueFrom v xs) ys := by
  induction xs generalizing v with
  | nil => rfl
  | cons x xs ih => simp [valueFrom, ih]

/-! ### Push and Pull -/

@[simp] theorem push_asked (s : Sink) (b : Byte) : (s.push b).asked = s.asked + 1 := rfl
@[simp] theorem push_script (s : Sink) (b : Byte) : (s.push b).script = s.script.tail := rfl

theorem push_accepted_ok (s : Sink) (b : Byte) (h : s.answer = .ok) : (s.push b).accepted = s.accepted ++ [b] := by
  simp [Sink.push, h]

theorem push_accepted_fail (s : Sink) (b : Byte) (h : s.answer = .fail) : (s.push b).accepted = s.accepted := by
  simp [Sink.push, h]

/-- A Push only ever adds to what SINK holds. -/
theorem push_prefix (s : Sink) (b : Byte) : s.accepted <+: (s.push b).accepted := by
  cases h : s.answer
  · exact push_accepted_ok s b h ▸ List.prefix_append _ _
  · exact push_accepted_fail s b h ▸ List.prefix_refl _

/-- SINK's next answer does not depend on the byte offered. -/
theorem push_answer_congr (s : Sink) (a b : Byte) : (s.push a).answer = (s.push b).answer := rfl

@[simp] theorem pull_asked (s : Source) : s.pull.asked = s.asked + 1 := rfl
@[simp] theorem pull_script (s : Source) : s.pull.script = s.script.tail := rfl

theorem pull_pulled_data (s : Source) (b : Byte) (h : s.answer = .data b) : s.pull.pulled = s.pulled ++ [b] := by
  simp [Source.pull, h]

theorem pull_pulled_fail (s : Source) (h : s.answer = .fail) : s.pull.pulled = s.pulled := by
  simp [Source.pull, h]

/-- A Pull only ever adds to what DEC has pulled. -/
theorem pull_prefix (s : Source) : s.pulled <+: s.pull.pulled := by
  cases h : s.answer with
  | data b => exact pull_pulled_data s b h ▸ List.prefix_append _ _
  | fail => exact pull_pulled_fail s h ▸ List.prefix_refl _

/-! ### One bit out (R95) -/

/-- PutBit while ACC has room: the bit joins ACC. -/
theorem putBit_room (b : Bool) (e : Encoder) (h : e.nbits ≠ 7) :
    putBit b e = .ok () { e with
      bitcnt := e.bitcnt + 1, acc := (e.acc <<< 1) ||| (BitVec.ofBool b).setWidth 7, nbits := e.nbits + 1 } :=
  if_neg h

/-- PutBit of the eighth bit, accepted. -/
theorem putBit_accepted (b : Bool) (e : Encoder) (h : e.nbits = 7) (ha : e.sink.answer = .ok) :
    putBit b e = .ok () { e with
      bitcnt := e.bitcnt + 1, acc := 0, nbits := 0, sink := e.sink.push (e.acc ++ BitVec.ofBool b) } := by
  simp [putBit, h, ha]

/-- PutBit of the eighth bit, refused: the byte is lost and IO is raised. -/
theorem putBit_refused (b : Bool) (e : Encoder) (h : e.nbits = 7) (ha : e.sink.answer = .fail) :
    putBit b e = .error .io { e with
      bitcnt := e.bitcnt + 1, acc := 0, nbits := 0, sink := e.sink.push (e.acc ++ BitVec.ofBool b) } := by
  simp [putBit, h, ha]

/-- Everything PutBit can do. -/
theorem putBit_cases (b : Bool) (e : Encoder) :
    (e.nbits ≠ 7 ∧ putBit b e = .ok () { e with
      bitcnt := e.bitcnt + 1, acc := (e.acc <<< 1) ||| (BitVec.ofBool b).setWidth 7, nbits := e.nbits + 1 }) ∨
    (e.nbits = 7 ∧ e.sink.answer = .ok ∧ putBit b e = .ok () { e with
      bitcnt := e.bitcnt + 1, acc := 0, nbits := 0, sink := e.sink.push (e.acc ++ BitVec.ofBool b) }) ∨
    (e.nbits = 7 ∧ e.sink.answer = .fail ∧ putBit b e = .error .io { e with
      bitcnt := e.bitcnt + 1, acc := 0, nbits := 0, sink := e.sink.push (e.acc ++ BitVec.ofBool b) }) := by
  by_cases h : e.nbits = 7
  · cases ha : e.sink.answer
    · exact .inr (.inl ⟨h, rfl, putBit_accepted b e h ha⟩)
    · exact .inr (.inr ⟨h, rfl, putBit_refused b e h ha⟩)
  · exact .inl ⟨h, putBit_room b e h⟩

/-! ### Bit strings out (R96) -/

theorem putBitString_nil : putBitString [] = pure () := rfl

theorem putBitString_cons (b : Bool) (bs : List Bool) :
    putBitString (b :: bs) = (putBit b >>= fun _ => putBitString bs) := rfl

/-- A bit string is put piece by piece. -/
theorem putBitString_append (xs ys : List Bool) :
    putBitString (xs ++ ys) = (putBitString xs >>= fun _ => putBitString ys) := by
  induction xs with
  | nil => rfl
  | cons x xs ih =>
    funext e
    simp only [List.cons_append, putBitString_cons, ih, encM_bind]
    cases putBit x e <;> rfl

/-- PutBits(n, v) puts bits_n(v). -/
theorem putBits_eq (n : Nat) (v : Word) : putBits n v = putBitString (bitsOf n v) := by
  induction n with
  | zero => rfl
  | succ n ih => simp only [putBits, bitsOf, putBitString_cons, ih]

/-- CodeEnc(T, v) puts the code of v. -/
theorem codeEnc_eq (t : CodeTable) (v : Fin t.length) : codeEnc t v = putBitString (symbolBits t v.val) := by
  simp only [codeEnc, symbolBits, putBits_eq, List.getElem?_eq_getElem v.isLt, List.get_eq_getElem]

/-! ### One bit in (R98) -/

/-- GetBit of an unconsumed bit of CUR. -/
theorem getBit_pending (d : Decoder) (h : d.nbits ≠ 0) :
    getBit d = .ok (d.cur.getLsbD (d.nbits - 1).toNat) { d with nbits := d.nbits - 1, bitcnt := d.bitcnt + 1 } :=
  if_neg h

/-- GetBit that pulls a byte. -/
theorem getBit_pulls (d : Decoder) (b : Byte) (h : d.nbits = 0) (ha : d.source.answer = .data b) :
    getBit d = .ok (b.getLsbD 7)
      { d with source := d.source.pull, cur := b, nbits := 7, bitcnt := d.bitcnt + 1 } := by
  simp [getBit, h, ha]

/-- GetBit whose Pull fails: no bit is consumed and IO is raised. -/
theorem getBit_fails (d : Decoder) (h : d.nbits = 0) (ha : d.source.answer = .fail) :
    getBit d = .error .io { d with source := d.source.pull } := by
  simp [getBit, h, ha]

/-- Everything GetBit can do. -/
theorem getBit_cases (d : Decoder) :
    (d.nbits ≠ 0 ∧ getBit d = .ok (d.cur.getLsbD (d.nbits - 1).toNat)
      { d with nbits := d.nbits - 1, bitcnt := d.bitcnt + 1 }) ∨
    (d.nbits = 0 ∧ ∃ b, d.source.answer = .data b ∧ getBit d = .ok (b.getLsbD 7)
      { d with source := d.source.pull, cur := b, nbits := 7, bitcnt := d.bitcnt + 1 }) ∨
    (d.nbits = 0 ∧ d.source.answer = .fail ∧ getBit d = .error .io { d with source := d.source.pull }) := by
  by_cases h : d.nbits = 0
  · cases ha : d.source.answer with
    | data b => exact .inr (.inl ⟨h, b, rfl, getBit_pulls d b h ha⟩)
    | fail => exact .inr (.inr ⟨h, rfl, getBit_fails d h ha⟩)
  · exact .inl ⟨h, getBit_pending d h⟩

/-! ### What a piece of pseudocode keeps

`EncKeeps R x`: however x ends, the channel after it stands in R to the channel before it.  For an R that is reflexive
and transitive this passes through sequencing, so a relation kept by PutBit is kept by every ENC Body; likewise on DEC. -/

/-- x relates the channel before it to the channel after it by R, answered or raised. -/
def EncKeeps {α : Type} (R : Encoder → Encoder → Prop) (x : EncM α) : Prop :=
  ∀ e, match x e with
    | .ok _ e' => R e e'
    | .error _ e' => R e e'

/-- x relates the channel before it to the channel after it by R, answered or raised. -/
def DecKeeps {α : Type} (R : Decoder → Decoder → Prop) (x : DecM α) : Prop :=
  ∀ d, match x d with
    | .ok _ d' => R d d'
    | .error _ d' => R d d'

theorem encKeeps_pure {α : Type} {R : Encoder → Encoder → Prop} (hr : ∀ e, R e e) (a : α) :
    EncKeeps R (pure a : EncM α) := fun e => hr e

theorem encKeeps_bind {α β : Type} {R : Encoder → Encoder → Prop} (ht : ∀ a b c, R a b → R b c → R a c)
    {x : EncM α} {f : α → EncM β} (hx : EncKeeps R x) (hf : ∀ a, EncKeeps R (f a)) : EncKeeps R (x >>= f) := by
  intro e
  have h1 := hx e
  simp only [encM_bind]
  cases hxe : x e with
  | error c e' => simpa only [hxe] using h1
  | ok a e' =>
    have h2 := hf a e'
    simp only [hxe] at h1 ⊢
    cases hfe : f a e' with
    | ok b e'' => exact ht _ _ _ h1 (by simpa only [hfe] using h2)
    | error c e'' => exact ht _ _ _ h1 (by simpa only [hfe] using h2)

theorem encKeeps_putBitString {R : Encoder → Encoder → Prop} (hr : ∀ e, R e e)
    (ht : ∀ a b c, R a b → R b c → R a c) (hb : ∀ b, EncKeeps R (putBit b)) (bs : List Bool) :
    EncKeeps R (putBitString bs) := by
  induction bs with
  | nil => exact encKeeps_pure hr ()
  | cons b bs ih => exact encKeeps_bind ht (hb b) fun _ => ih

theorem decKeeps_pure {α : Type} {R : Decoder → Decoder → Prop} (hr : ∀ d, R d d) (a : α) :
    DecKeeps R (pure a : DecM α) := fun d => hr d

theorem decKeeps_throw {α : Type} {R : Decoder → Decoder → Prop} (hr : ∀ d, R d d) (c : ErrorCode) :
    DecKeeps R (throw c : DecM α) := fun d => hr d

theorem decKeeps_bind {α β : Type} {R : Decoder → Decoder → Prop} (ht : ∀ a b c, R a b → R b c → R a c)
    {x : DecM α} {f : α → DecM β} (hx : DecKeeps R x) (hf : ∀ a, DecKeeps R (f a)) : DecKeeps R (x >>= f) := by
  intro d
  have h1 := hx d
  simp only [decM_bind]
  cases hxd : x d with
  | error c d' => simpa only [hxd] using h1
  | ok a d' =>
    have h2 := hf a d'
    simp only [hxd] at h1 ⊢
    cases hfd : f a d' with
    | ok b d'' => exact ht _ _ _ h1 (by simpa only [hfd] using h2)
    | error c d'' => exact ht _ _ _ h1 (by simpa only [hfd] using h2)

theorem decKeeps_getBitsFrom {R : Decoder → Decoder → Prop} (hr : ∀ d, R d d)
    (ht : ∀ a b c, R a b → R b c → R a c) (hb : DecKeeps R getBit) (n : Nat) (v : Word) :
    DecKeeps R (getBitsFrom n v) := by
  induction n generalizing v with
  | zero => exact decKeeps_pure hr v
  | succ n ih => exact decKeeps_bind ht hb fun _ => ih _

theorem decKeeps_codeDecFrom {R : Decoder → Decoder → Prop} (hr : ∀ d, R d d)
    (ht : ∀ a b c, R a b → R b c → R a c) (hb : DecKeeps R getBit) (t : CodeTable) (more l acc : Nat) :
    DecKeeps R (codeDecFrom t more l acc) := by
  induction more generalizing l acc with
  | zero =>
    unfold codeDecFrom
    split
    · exact decKeeps_pure hr _
    · exact decKeeps_throw hr _
  | succ more ih =>
    unfold codeDecFrom
    split
    · exact decKeeps_pure hr _
    · exact decKeeps_bind ht hb fun _ => ih _ _

theorem decKeeps_readText {R : Decoder → Decoder → Prop} (hr : ∀ d, R d d)
    (ht : ∀ a b c, R a b → R b c → R a c) {next : DecM (Option Byte)} (hn : DecKeeps R next)
    (hs : ∀ n b, DecKeeps R (storeResultByte n b)) (room n : Nat) : DecKeeps R (readText next room n) := by
  induction room generalizing n with
  | zero =>
    refine decKeeps_bind ht hn fun o => ?_
    cases o
    · exact decKeeps_pure hr _
    · exact decKeeps_throw hr _
  | succ room ih =>
    refine decKeeps_bind ht hn fun o => ?_
    cases o
    · exact decKeeps_pure hr _
    · exact decKeeps_bind ht (hs _ _) fun _ => ih _

end Sys2Proof.Machine
end

