-- ==== Sys2Proof/Laws/Frames.lean ====
section
/-! SUPPORT. What the primitives leave alone, and everything a command frame (R93), a raise (R154), a host access and
the bus can do, each said once. -/

namespace Sys2Proof.Machine

/-! ### What PutBit and GetBit leave alone -/

/-- e' differs from e in ACC, NBITS, BITCNT and SINK alone, and SINK has only been given more. -/
structure EncStreamOnly (e e' : Encoder) : Prop where
  running : e'.running = e.running
  err : e'.err = e.err
  ecode : e'.ecode = e.ecode
  arg : e'.arg = e.arg
  tlen : e'.tlen = e.tlen
  tbuf : e'.tbuf = e.tbuf
  tbufEpoch : e'.tbufEpoch = e.tbufEpoch
  outBase : e'.outBase = e.outBase
  accepted : e.sink.accepted <+: e'.sink.accepted
  asked : e.sink.asked ≤ e'.sink.asked

theorem encStreamOnly_refl (e : Encoder) : EncStreamOnly e e :=
  ⟨rfl, rfl, rfl, rfl, rfl, rfl, rfl, rfl, List.prefix_refl _, Nat.le_refl _⟩

theorem encStreamOnly_trans (a b c : Encoder) (h : EncStreamOnly a b) (k : EncStreamOnly b c) : EncStreamOnly a c :=
  ⟨k.running.trans h.running, k.err.trans h.err, k.ecode.trans h.ecode, k.arg.trans h.arg, k.tlen.trans h.tlen,
    k.tbuf.trans h.tbuf, k.tbufEpoch.trans h.tbufEpoch, k.outBase.trans h.outBase, h.accepted.trans k.accepted,
    h.asked.trans k.asked⟩

theorem putBit_streamOnly (b : Bool) : EncKeeps EncStreamOnly (putBit b) := by
  intro e
  rcases putBit_cases b e with ⟨-, h⟩ | ⟨-, -, h⟩ | ⟨-, -, h⟩ <;> simp only [h]
  · exact ⟨rfl, rfl, rfl, rfl, rfl, rfl, rfl, rfl, List.prefix_refl _, Nat.le_refl _⟩
  · exact ⟨rfl, rfl, rfl, rfl, rfl, rfl, rfl, rfl, push_prefix _ _, Nat.le_succ _⟩
  · exact ⟨rfl, rfl, rfl, rfl, rfl, rfl, rfl, rfl, push_prefix _ _, Nat.le_succ _⟩

theorem putBitString_streamOnly (bs : List Bool) : EncKeeps EncStreamOnly (putBitString bs) :=
  encKeeps_putBitString encStreamOnly_refl encStreamOnly_trans putBit_streamOnly bs

/-- d' differs from d in CUR, NBITS, BITCNT and SOURCE alone, and SOURCE has only given more. -/
structure DecStreamOnly (d d' : Decoder) : Prop where
  running : d'.running = d.running
  err : d'.err = d.err
  ecode : d'.ecode = d.ecode
  rvalid : d'.rvalid = d.rvalid
  rkind : d'.rkind = d.rkind
  rlen : d'.rlen = d.rlen
  rint : d'.rint = d.rint
  rbuf : d'.rbuf = d.rbuf
  inBase : d'.inBase = d.inBase
  pulled : d.source.pulled <+: d'.source.pulled
  asked : d.source.asked ≤ d'.source.asked

theorem decStreamOnly_refl (d : Decoder) : DecStreamOnly d d :=
  ⟨rfl, rfl, rfl, rfl, rfl, rfl, rfl, rfl, rfl, List.prefix_refl _, Nat.le_refl _⟩

theorem decStreamOnly_trans (a b c : Decoder) (h : DecStreamOnly a b) (k : DecStreamOnly b c) : DecStreamOnly a c :=
  ⟨k.running.trans h.running, k.err.trans h.err, k.ecode.trans h.ecode, k.rvalid.trans h.rvalid,
    k.rkind.trans h.rkind, k.rlen.trans h.rlen, k.rint.trans h.rint, k.rbuf.trans h.rbuf, k.inBase.trans h.inBase,
    h.pulled.trans k.pulled, h.asked.trans k.asked⟩

theorem getBit_streamOnly : DecKeeps DecStreamOnly getBit := by
  intro d
  rcases getBit_cases d with ⟨-, h⟩ | ⟨-, b, -, h⟩ | ⟨-, -, h⟩ <;> simp only [h]
  · exact ⟨rfl, rfl, rfl, rfl, rfl, rfl, rfl, rfl, rfl, List.prefix_refl _, Nat.le_refl _⟩
  · exact ⟨rfl, rfl, rfl, rfl, rfl, rfl, rfl, rfl, rfl, pull_prefix _, Nat.le_succ _⟩
  · exact ⟨rfl, rfl, rfl, rfl, rfl, rfl, rfl, rfl, rfl, pull_prefix _, Nat.le_succ _⟩

theorem getBits_streamOnly (n : Nat) : DecKeeps DecStreamOnly (getBits n) :=
  decKeeps_getBitsFrom decStreamOnly_refl decStreamOnly_trans getBit_streamOnly n 0

theorem codeDec_streamOnly (t : CodeTable) : DecKeeps DecStreamOnly (codeDec t) :=
  decKeeps_codeDecFrom decStreamOnly_refl decStreamOnly_trans getBit_streamOnly t _ _ _

/-! ### Command frames (R93) -/

/-- Everything the ENC command frame can do. -/
theorem encFrame_cases (legal : Bool) (body : EncM Unit) (e : Encoder) :
    (legal = false ∧ encFrame legal body e = e.illegal.finish) ∨
    (legal = true ∧ e.err = true ∧ encFrame legal body e = e.finish) ∨
    (legal = true ∧ e.err = false ∧ ∃ e', body e = .ok () e' ∧ encFrame legal body e = e'.finish) ∨
    (legal = true ∧ e.err = false ∧ ∃ c e', body e = .error c e' ∧
      encFrame legal body e = (e'.raise c).finish) := by
  cases legal
  · exact .inl ⟨rfl, rfl⟩
  · cases he : e.err
    · cases hb : body e with
      | ok u e' => exact .inr (.inr (.inl ⟨rfl, rfl, e', rfl, by simp [encFrame, he, Encoder.runBody, hb]⟩))
      | error c e' => exact .inr (.inr (.inr ⟨rfl, rfl, c, e', rfl, by simp [encFrame, he, Encoder.runBody, hb]⟩))
    · exact .inr (.inl ⟨rfl, rfl, by simp [encFrame, he]⟩)

/-- Everything the DEC command frame can do. -/
theorem decFrame_cases (legal : Bool) (body : DecM Unit) (d : Decoder) :
    (legal = false ∧ decFrame legal body d = d.illegal.finish) ∨
    (legal = true ∧ d.err = true ∧ decFrame legal body d = d.clearResult.finish) ∨
    (legal = true ∧ d.err = false ∧ ∃ d', body d = .ok () d' ∧ decFrame legal body d = d'.finish) ∨
    (legal = true ∧ d.err = false ∧ ∃ c d', body d = .error c d' ∧
      decFrame legal body d = (d'.raise c).finish) := by
  cases legal
  · exact .inl ⟨rfl, rfl⟩
  · cases he : d.err
    · cases hb : body d with
      | ok u d' => exact .inr (.inr (.inl ⟨rfl, rfl, d', rfl, by simp [decFrame, he, Decoder.runBody, hb]⟩))
      | error c d' => exact .inr (.inr (.inr ⟨rfl, rfl, c, d', rfl, by simp [decFrame, he, Decoder.runBody, hb]⟩))
    · exact .inr (.inl ⟨rfl, rfl, by simp [decFrame, he]⟩)

/-- Everything an illegal word does to ENC (R107). -/
theorem encIllegal_cases (e : Encoder) :
    (e.err = true ∧ e.illegal = e) ∨ (e.err = false ∧ e.illegal = { e with err := true, ecode := 3 }) := by
  cases h : e.err
  · exact .inr ⟨rfl, by simp [Encoder.illegal, h, Encoder.raise, ErrorCode.code]⟩
  · exact .inl ⟨rfl, by simp [Encoder.illegal, h]⟩

/-- Everything an illegal word does to DEC (R107). -/
theorem decIllegal_cases (d : Decoder) :
    (d.err = true ∧ d.illegal = d.clearResult) ∨ (d.err = false ∧ d.illegal = d.raise .illegal) := by
  cases h : d.err
  · exact .inr ⟨rfl, by simp [Decoder.illegal, h]⟩
  · exact .inl ⟨rfl, by simp [Decoder.illegal, h]⟩

/-! ### Host accesses and the bus -/

/-- Everything a performed read does (R44). -/
theorem performOp_read (s : State) (r : Reg) : s.performOp (.read r) = s.answerRead r := rfl

/-- Everything a performed write does (R61). -/
theorem performOp_write (s : State) (r : Reg) (v : Word) : s.performOp (.write r v) = s.regWrite r v := rfl

/-- Everything a register write can do: nothing, or one operand, one window word or one command start (R61). -/
theorem regWrite_cases (s : State) (r : Reg) (v : Word) :
    s.regWrite r v = s ∨
    (r = .encCmd ∧ s.regWrite r v = s.setEnc { s.enc with running := some v }) ∨
    (r = .encArg ∧ s.regWrite r v = s.setEnc { s.enc with arg := v }) ∨
    (r = .encTlen ∧ s.regWrite r v = s.setEnc { s.enc with tlen := v.setWidth 15 }) ∨
    (∃ k, r = .encTbuf k ∧ s.regWrite r v = s.setEnc (s.enc.tbufWriteWord s.params.txtMax k v)) ∨
    (r = .decCmd ∧ s.regWrite r v = s.setDec { s.dec with running := some v }) := by
  cases r <;> simp [State.regWrite]

/-- The hold, said once: an access waits exactly when its channel is busy and it is no STATUS read (R61, R63). -/
theorem held_iff (s : State) (op : HostOp) :
    s.held op = true ↔ ∃ ch, op.reg.channel = some ch ∧ s.busy ch = true ∧ op.isStatusRead = false := by
  cases h : op.reg.channel <;> simp [State.held, h]

/-- What the bus picks: the first access of the queue that is not held (R63, R66, log entry 20). -/
theorem firstFree_some (s : State) (ops others : List HostOp) (op : HostOp) (h : s.firstFree ops = some (op, others)) :
    ∃ before after, ops = before ++ op :: after ∧ others = before ++ after ∧
      (∀ x ∈ before, s.held x = true) ∧ s.held op = false := by
  induction ops generalizing others with
  | nil => simp [State.firstFree] at h
  | cons x xs ih =>
    simp only [State.firstFree] at h
    split at h
    · rename_i hx
      split at h
      · rename_i found rest hf
        simp only [Option.some.injEq, Prod.mk.injEq] at h
        obtain ⟨rfl, rfl⟩ := h
        obtain ⟨before, after, rfl, rfl, hb, ho⟩ := ih rest hf
        exact ⟨x :: before, after, rfl, rfl, by simpa using ⟨hx, hb⟩, ho⟩
      · simp at h
    · rename_i hx
      simp only [Option.some.injEq, Prod.mk.injEq] at h
      obtain ⟨rfl, rfl⟩ := h
      exact ⟨[], xs, rfl, rfl, by simp, by simpa using hx⟩

/-- The bus picks nothing exactly when every access is held. -/
theorem firstFree_none (s : State) (ops : List HostOp) :
    s.firstFree ops = none ↔ ∀ x ∈ ops, s.held x = true := by
  induction ops with
  | nil => simp [State.firstFree]
  | cons x xs ih =>
    simp only [State.firstFree, List.mem_cons, forall_eq_or_imp]
    split
    · rename_i hx
      cases hf : s.firstFree xs with
      | none => simpa [hx] using ih.mp hf
      | some p => simpa [hx, hf] using ih
    · rename_i hx
      simp [hx]

/-- Everything the bus's turn can do. -/
theorem serveBus_cases (s : State) :
    ((∀ x ∈ s.host.queue, s.held x = true) ∧ s.serveBus = s) ∨
    (∃ before after op, s.host.queue = before ++ op :: after ∧ (∀ x ∈ before, s.held x = true) ∧
      s.held op = false ∧
      s.serveBus = State.performOp { s with host := { s.host with queue := before ++ after } } op) := by
  cases h : s.firstFree s.host.queue with
  | none => exact .inl ⟨(firstFree_none _ _).mp h, by simp [State.serveBus, h]⟩
  | some p =>
    obtain ⟨before, after, hq, ho, hb, hf⟩ := firstFree_some s _ p.2 p.1 h
    exact .inr ⟨before, after, p.1, hq, hb, hf, by simp [State.serveBus, h, ho]⟩

/-- Everything the arrival of an access can do (R58, U9). -/
theorem issue_cases (s : State) (a : MemAccess) :
    s.issue a = .fault .outsideWindow ∨ s.issue a = .refused .accessWidth ∨ s.issue a = .refused .accessAlignment ∨
    ∃ off, Params.offsetOf s.params a.place.1 = some off ∧ a.place.2 = 4 ∧ off % 4 = 0 ∧
      s.issue a = .next (s.enqueue (a.atReg (Reg.ofOffset off))) := by
  simp only [State.issue]
  cases h : Params.offsetOf s.params a.place.1 with
  | none => exact .inl rfl
  | some off =>
    by_cases hw : a.place.2 = 4
    · by_cases ha : off % 4 = 0
      · exact .inr (.inr (.inr ⟨off, rfl, hw, ha, by simp [hw, ha]⟩))
      · exact .inr (.inr (.inl (by simp [hw, ha])))
    · exact .inr (.inl (by simp [hw]))

/-! ### Abandoned commands (R167) -/

theorem sinkCut_accepted (s t : Sink) (k : Nat) : (s.cut t k).accepted <+: t.accepted := List.take_prefix _ _

theorem sourceCut_pulled (s t : Source) (k : Nat) : (s.cut t k).pulled <+: t.pulled := List.take_prefix _ _

/-- What SINK already held stays, however early the command is abandoned. -/
theorem sinkCut_keeps (s t : Sink) (k : Nat) (h : s.accepted <+: t.accepted) :
    s.accepted <+: (s.cut t k).accepted := by
  obtain ⟨more, hm⟩ := h
  simp only [Sink.cut, ← hm, List.take_append]
  rw [List.take_of_length_le (Nat.le_add_right _ _)]
  exact List.prefix_append _ _

/-- What DEC had already pulled stays, however early the command is abandoned. -/
theorem sourceCut_keeps (s t : Source) (k : Nat) (h : s.pulled <+: t.pulled) :
    s.pulled <+: (s.cut t k).pulled := by
  obtain ⟨more, hm⟩ := h
  simp only [Source.cut, ← hm, List.take_append]
  rw [List.take_of_length_le (Nat.le_add_right _ _)]
  exact List.prefix_append _ _

end Sys2Proof.Machine
end

