-- ==== Sys2Proof/Laws/PerInstr.lean ====
section
/-! SUPPORT. Per-instruction family RowMatch: a command's encoding is in its row of spec/opcode_table.json. -/

namespace Sys2Proof.Laws

/-- The command's word agrees with its table row's match value on the row's mask. -/
def RowMatch.Statement (i : Instr) : Prop := encode i &&& i.rowMask = i.rowMatch

theorem RowMatch.encAscii : RowMatch.Statement .encAscii := rfl
theorem RowMatch.encUtf8 : RowMatch.Statement .encUtf8 := rfl
theorem RowMatch.encRaw : RowMatch.Statement .encRaw := rfl
theorem RowMatch.encAuto : RowMatch.Statement .encAuto := rfl
theorem RowMatch.encSym : RowMatch.Statement .encSym := rfl
theorem RowMatch.encPutbits (n : BitVec 6) : RowMatch.Statement (.encPutbits n) := by
  revert n
  unfold RowMatch.Statement
  decide +kernel
theorem RowMatch.encAlign : RowMatch.Statement .encAlign := rfl
theorem RowMatch.encReset : RowMatch.Statement .encReset := rfl
theorem RowMatch.decValue : RowMatch.Statement .decValue := rfl
theorem RowMatch.decGetbits (n : BitVec 6) : RowMatch.Statement (.decGetbits n) := by
  revert n
  unfold RowMatch.Statement
  decide +kernel
theorem RowMatch.decAlign : RowMatch.Statement .decAlign := rfl
theorem RowMatch.decReset : RowMatch.Statement .decReset := rfl

end Sys2Proof.Laws
end

