-- ==== Sys2Proof/Tests/Slice0.lean ====
section
/-! SUPPORT. Tests against the spec's own words and vectors (95_test_vectors.md), and for every statement with
hypotheses a concrete state that meets them. -/

namespace Sys2Proof.Tests

set_option Elab.async false

open Sys2Proof Sys2Proof.Machine

/-! ### Small states -/

/-- Reset with capacities, an ENC text operand, ARG, and the answers SINK gives. -/
def encAt (txtMax : Nat) (text : List Byte) (arg : Word) (answers : List PushAnswer) : State :=
  { State.reset with
    params := { Params.default with txtMax := txtMax }
    enc := { Encoder.fresh ⟨answers, 0, []⟩ 0 with
      arg := arg, tlen := BitVec.ofNat 15 text.length, tbuf := text.mapIdx (fun i b => (i, b)) } }

/-- Reset with a result capacity and the answers SOURCE gives: the bytes, then a failure. -/
def decAt (resMax : Nat) (bytes : List Byte) : State :=
  { State.reset with
    params := { Params.default with resMax := resMax }
    dec := Decoder.fresh ⟨bytes.map PullAnswer.data ++ [.fail], 0, []⟩ }

/-- A scheduled turn with a command word on ENC. -/
def encTurn (s : State) (w : Word) : State := s.loadWord w

/-- A scheduled turn with a command word on DEC. -/
def decTurn (s : State) (w : Word) : State :=
  { s with dec := { s.dec with running := some w }, schedule := [.dec] }

/-- ENC in the error state. -/
def encErrored : State := { State.reset with enc := { State.reset.enc with err := true, ecode := 1 } }

/-- DEC in the error state. -/
def decErrored : State := { State.reset with dec := { State.reset.dec with err := true, ecode := 4 } }

/-- A Bool of the next state; false at a fault or a refusal. -/
def onNext (o : StepOutcome) (f : State → Bool) : Bool :=
  match o with
  | .next t => f t
  | .fault _ => false
  | .refused _ => false

/-- What a vector's row lists of ENC: the bytes pushed, ACC, NBITS, BITCNT, ENC_STATUS. -/
def encRow (o : StepOutcome) (bytes : List Byte) (acc : BitVec 7) (nbits : BitVec 3) (bitcnt status : Word) : Bool :=
  onNext o fun t => decide (t.enc.sink.accepted = bytes ∧ t.enc.acc = acc ∧ t.enc.nbits = nbits ∧
    t.enc.bitcnt = bitcnt ∧ t.regRead .encStatus = status)

/-- What a vector's row lists of DEC: DEC_STATUS, RKIND, the text, RINT, BITCNT, the number of Pulls. -/
def decRow (o : StepOutcome) (status : Word) (rkind : BitVec 3) (text : List Byte) (rint bitcnt : Word)
    (pulls : Nat) : Bool :=
  onNext o fun t => decide (t.regRead .decStatus = status ∧ t.dec.rkind = rkind ∧ t.dec.rlen.toNat = text.length ∧
    (List.range text.length).map (fun i => t.dec.rbufRead t.params.resMax i 0) = text ∧ t.dec.rint = rint ∧
    t.dec.bitcnt = bitcnt ∧ t.dec.source.asked = pulls)

def accept4 : List PushAnswer := List.replicate 4 .ok

/-! ### Well-formedness refuses N = 0 and N = 33 (R76, vectors ER8, ER9) -/

theorem test_putbits_zero_ill_formed : (Instr.encPutbits 0).wellFormed = false := by decide
theorem test_putbits_33_ill_formed : (Instr.encPutbits 33).wellFormed = false := by decide
theorem test_getbits_zero_ill_formed : (Instr.decGetbits 0).wellFormed = false := by decide
theorem test_getbits_33_ill_formed : (Instr.decGetbits 33).wellFormed = false := by decide

/-! ### Words written out from R73 and R74 decode to their commands -/

theorem test_decode_encAscii : decode .enc 0b00000000000000000000000000000001#32 = .ok .encAscii := by rfl
theorem test_decode_encUtf8 : decode .enc 0b00000000000000000000000000000010#32 = .ok .encUtf8 := by rfl
theorem test_decode_encRaw : decode .enc 0b00000000000000000000000000000011#32 = .ok .encRaw := by rfl
theorem test_decode_encAuto : decode .enc 0b00000000000000000000000000000100#32 = .ok .encAuto := by rfl
theorem test_decode_encSym : decode .enc 0b00000000000000000000000000000101#32 = .ok .encSym := by rfl
theorem test_decode_encPutbits : decode .enc 0b00000000000000000000110100000110#32 = .ok (.encPutbits 13) := by rfl
theorem test_decode_encAlign : decode .enc 0b00000000000000000000000000000111#32 = .ok .encAlign := by rfl
theorem test_decode_encReset : decode .enc 0b00000000000000000000000000001111#32 = .ok .encReset := by rfl
theorem test_decode_decValue : decode .dec 0b00000000000000000000000000000001#32 = .ok .decValue := by rfl
theorem test_decode_decGetbits : decode .dec 0b00000000000000000010000000000110#32 = .ok (.decGetbits 32) := by rfl
theorem test_decode_decAlign : decode .dec 0b00000000000000000000000000000111#32 = .ok .decAlign := by rfl
theorem test_decode_decReset : decode .dec 0b00000000000000000000000000001111#32 = .ok .decReset := by rfl
theorem test_decode_reserved_field : decode .enc 0x00004001#32 = .error .reservedField := by rfl
theorem test_decode_stray_width : decode .enc 0x0000010F#32 = .error .strayWidth := by rfl
theorem test_decode_reserved_opcode : decode .dec 0x00000002#32 = .error .reservedOpcode := by rfl

/-- R102 of the host's questions: the loaded word is what the next step runs. -/
theorem test_fetch_word_runs : (step (State.reset.withFetchWord 32 0x5)) =
    exec .encSym { State.reset.withFetchWord 32 0x5 with schedule := [] } := by rfl

/-! ### Tables (vectors P1, P4, P8, P9) -/

theorem test_tagc_is_constructed : (tagBuilder.bind Builder.sealedTable).toOption = some tagc := by decide +kernel
theorem test_tie_break : sealLengths [1, 1, 1] = [2, 2, 1] ∧ sealCodes [2, 2, 1] = [2, 3, 0] := by decide +kernel
theorem test_unequal_weights :
    sealLengths [1, 2, 3, 4, 5] = [3, 3, 2, 2, 2] ∧ sealCodes [3, 3, 2, 2, 2] = [6, 7, 0, 1, 2] := by decide +kernel
theorem test_mixed_ties :
    sealLengths [3, 3, 2, 2, 1] = [2, 2, 3, 2, 3] ∧ sealCodes [2, 2, 3, 2, 3] = [0, 1, 6, 2, 7] := by decide +kernel
theorem test_one_symbol : sealLengths [1] = [0] ∧ sealCodes [0] = [0] := by decide +kernel
theorem test_bump_after_seal_refused :
    Builder.bump ⟨[1, 1], true⟩ 0 1 = .error .bumpAfterSeal := by decide +kernel
theorem test_negative_amount_on_empty_range_refused :
    Builder.bumpRange ⟨[1, 1], false⟩ 1 0 (-1) = .error .negativeAmount ∧
    Builder.bumpRange ⟨[1, 1], false⟩ 1 0 3 = .ok ⟨[1, 1], false⟩ := by decide +kernel
theorem test_ascii_codes : symbolBits ascc 57 = [true, true, true, false, true, true, true] ∧
    symbolBits ascc 120 = [false, false, false, false, false] := by decide +kernel

/-! ### Encoder commands (vectors EN1, EN3, EN5, EN8, EN12, EN13, EN22, EN29, EN30, B1, B15, ER1, ER3, ER12) -/

theorem test_encAscii_ab9 : encRow (exec .encAscii (encAt 4096 [0x61, 0x62, 0x39] 0 accept4))
    [0x41, 0x0F, 0x7F] 0b0111100 6 30 0x00000600 = true := by decide +kernel
theorem test_encAscii_refused_byte :
    encRow (exec .encAscii (encAt 4096 [0x61, 0x62, 0x39] 0 [.ok, .fail])) [0x41] 0 0 16 0x00000012 = true := by
  decide +kernel
theorem test_encUtf8 : encRow (exec .encUtf8 (encAt 4096 [0x61, 0x00, 0xFF] 0 accept4))
    [0x80, 0xF7, 0xD9, 0x1E] 0b0011110 5 37 0x00000500 = true := by decide +kernel
theorem test_encRaw_drops_zero : encRow (exec .encRaw (encAt 4096 [0x41, 0x00, 0x42] 0 accept4))
    [0xC8, 0x28, 0x40] 0 3 27 0x00000300 = true := by decide +kernel
theorem test_encAuto_raw : encRow (exec .encAuto (encAt 4096 [0xC3, 0xA9] 0 accept4))
    [0xD8, 0x75, 0x20] 0 3 27 0x00000300 = true := by decide +kernel
theorem test_encAuto_utf8 : encRow (exec .encAuto (encAt 4096 [0x00, 0x80] 0 accept4))
    [0xBD, 0xF6, 0x4B, 0xDE] 0 0 32 0 = true := by decide +kernel
theorem test_encSym_300 : encRow (exec .encSym (encAt 4096 [] 300 accept4))
    [0xF8, 0x04] 0b0101100 6 22 0x00000600 = true := by decide +kernel
theorem test_encSym_max : encRow (exec .encSym (encAt 4096 [] 0xFFFFFFFF accept4))
    [0xFF, 0xFF, 0xFF, 0xFF] 0b0111111 6 38 0x00000600 = true := by decide +kernel
theorem test_encPutbits_ignores_high_bits : encRow (exec (.encPutbits 3) (encAt 4096 [] 0xFFFFFFFF accept4))
    [] 0b0000111 3 3 0x00000300 = true := by decide +kernel
theorem test_encPutbits_32 : encRow (exec (.encPutbits 32) (encAt 4096 [] 0xDEADBEEF accept4))
    [0xDE, 0xAD, 0xBE, 0xEF] 0 0 32 0 = true := by decide +kernel
theorem test_encAlign_pads : encRow
    (exec .encAlign { State.reset with enc := { (encAt 4096 [] 0 accept4).enc with acc := 1, nbits := 1, bitcnt := 1 } })
    [0x80] 0 0 8 0 = true := by decide +kernel
theorem test_encReset_discards_bits : encRow
    (exec .encReset { State.reset with enc := { (encAt 4096 [] 5 accept4).enc with acc := 5, nbits := 3, bitcnt := 3 } })
    [] 0 0 0 0 = true := by decide +kernel
theorem test_encAscii_too_long : encRow (exec .encAscii (encAt 2 [0x61, 0x62, 0x39] 0 accept4))
    [] 0 0 0 0x00000032 = true := by decide +kernel

/-! ### Decoder commands (vectors DE1, DE9, DE13, DE19, DE23, DE26, DE28, DE30, ER15, ER22) -/

theorem test_decValue_ab9 : decRow (exec .decValue (decAt 4096 [0x41, 0x0F, 0x7F, 0xF0]))
    0x00001200 0 [0x61, 0x62, 0x39] 0 30 4 = true := by decide +kernel
theorem test_decValue_overlong_integer : decRow (exec .decValue (decAt 4096 [0xF0, 0x28]))
    0x00001300 3 [] 5 13 2 = true := by decide +kernel
theorem test_decGetbits_4 : decRow (exec (.decGetbits 4) (decAt 4096 [0xA5, 0x0F]))
    0x00001400 4 [] 0xA 4 1 = true := by decide +kernel
theorem test_decGetbits_short : decRow (exec (.decGetbits 16) (decAt 4096 [0xDE]))
    0x00000012 7 [] 0 8 2 = true := by decide +kernel
theorem test_decAlign_discards : decRow
    (exec .decAlign { State.reset with dec := { State.reset.dec with cur := 0xA5, nbits := 4, bitcnt := 4 } })
    0 7 [] 0 8 0 = true := by decide +kernel
theorem test_decReset_clears : decRow
    (exec .decReset { decErrored with dec := { decErrored.dec with cur := 0xA5, nbits := 4, bitcnt := 20 } })
    0 7 [] 0 0 0 = true := by decide +kernel

/-! ### The host window (vectors B7, B10, ER5) -/

theorem test_tbuf_window : (State.reset.regWrite (.encTbuf 0) 0x00396261).regRead (.encTbuf 0) = 0x00396261 := by
  decide +kernel
theorem test_tlen_width : (State.reset.regWrite .encTlen 0xFFFFFFFF).regRead .encTlen = 0x00007FFF := by decide +kernel
theorem test_illegal_reset_does_not_reset :
    encRow (step (encTurn encErrored 0x0000010F)) [] 0 0 0 0x00000012 = true := by decide +kernel

/-! ### States that meet the statements' hypotheses -/

theorem witness_StepRunsDecodedCommand_enc :
    (encTurn State.reset 0x00002006).schedule = [.enc] ∧ (encTurn State.reset 0x00002006).enc.running = some 0x00002006 ∧
    decode .enc 0x00002006#32 = .ok (.encPutbits 32) ∧ (Instr.encPutbits 32).wellFormed = true := ⟨rfl, rfl, rfl, rfl⟩

theorem witness_StepRunsDecodedCommand_dec :
    (decTurn State.reset 0x00000106).schedule = [.dec] ∧ (decTurn State.reset 0x00000106).dec.running = some 0x00000106 ∧
    decode .dec 0x00000106#32 = .ok (.decGetbits 1) ∧ (Instr.decGetbits 1).wellFormed = true := ⟨rfl, rfl, rfl, rfl⟩

theorem witness_IllegalWordRecordsIllegal_enc :
    (encTurn (encAt 2 [1, 2, 3] 0 []) 1).schedule = [.enc] ∧ (encTurn (encAt 2 [1, 2, 3] 0 []) 1).enc.running = some 1 ∧
    legalWord .enc (encAt 2 [1, 2, 3] 0 []).enc.tlen.toNat 2 1 = false := by decide +kernel

theorem witness_IllegalWordRecordsIllegal_dec :
    (decTurn State.reset 2).schedule = [.dec] ∧ (decTurn State.reset 2).dec.running = some 2 ∧
    legalWord .dec 0 0 2 = false := by decide +kernel

/-- The text commands' hypotheses, with TLEN = TXT_MAX. -/
theorem witness_EncTextPutsItsValue :
    (encAt 3 [0xC3, 0x00, 0x41] 0 accept4).enc.tlen.toNat ≤ (encAt 3 [0xC3, 0x00, 0x41] 0 accept4).params.txtMax ∧
    (encAt 3 [0xC3, 0x00, 0x41] 0 accept4).enc.err = false := by decide +kernel

/-- Of EncAsciiPutsItsValue. -/
theorem witness_EncAsciiPutsItsValue :
    (encAt 2 [0x61, 0xC3] 0 accept4).enc.tlen.toNat ≤ (encAt 2 [0x61, 0xC3] 0 accept4).params.txtMax ∧
    (encAt 2 [0x61, 0xC3] 0 accept4).enc.err = false := by decide +kernel

/-- Of EncUtf8PutsItsValue. -/
theorem witness_EncUtf8PutsItsValue :
    (encAt 1 [0x80] 0 accept4).enc.tlen.toNat ≤ (encAt 1 [0x80] 0 accept4).params.txtMax ∧
    (encAt 1 [0x80] 0 accept4).enc.err = false := by decide +kernel

/-- Of EncRawPutsItsValue. -/
theorem witness_EncRawPutsItsValue :
    (encAt 1 [0x00] 0 accept4).enc.tlen.toNat ≤ (encAt 1 [0x00] 0 accept4).params.txtMax ∧
    (encAt 1 [0x00] 0 accept4).enc.err = false := by decide +kernel

/-- Of EncAutoPutsTheSelectedValue, one text for each of the three branches. -/
theorem witness_EncAutoPutsTheSelectedValue :
    autoKind ((encAt 2 [0x48, 0x69] 0 accept4).enc.text 2) = .ascii ∧
    autoKind ((encAt 2 [0xC3, 0xA9] 0 accept4).enc.text 2) = .raw ∧
    autoKind ((encAt 2 [0x00, 0x80] 0 accept4).enc.text 2) = .utf8 ∧
    (encAt 2 [0x00, 0x80] 0 accept4).enc.tlen.toNat ≤ 2 ∧ (encAt 2 [0x00, 0x80] 0 accept4).enc.err = false := by
  decide +kernel

theorem witness_EncSymPutsItsValue : (encAt 1 [] 65535 accept4).enc.err = false := by decide +kernel

theorem witness_EncPutbitsPutsTheField : 1 ≤ (1 : BitVec 6).toNat ∧ (32 : BitVec 6).toNat ≤ 32 ∧
    (encAt 1 [] 7 accept4).enc.err = false := by decide +kernel

theorem witness_EncAlignPadsWithZeros : State.reset.enc.err = false := by decide +kernel

/-- A text command, a bit field that ends on a byte boundary, and an alignment that writes nothing. -/
theorem witness_EncCommandsAppendTheirWireBits :
    Sink.acceptsNext ((0 + (wireBitsOf (encAt 3 [0x61, 0x62, 0x39] 0 accept4) .encAscii).length) / 8)
      (encAt 3 [0x61, 0x62, 0x39] 0 accept4).enc.sink ∧
    Sink.acceptsNext ((0 + (wireBitsOf (encAt 1 [] 5 accept4) (.encPutbits 32)).length) / 8)
      (encAt 1 [] 5 accept4).enc.sink ∧
    wireBitsOf State.reset .encAlign = [] ∧
    (encAt 3 [0x61, 0x62, 0x39] 0 accept4).enc.outBase ≤ (encAt 3 [0x61, 0x62, 0x39] 0 accept4).enc.sink.accepted.length ∧
    (encAt 3 [0x61, 0x62, 0x39] 0 accept4).enc.tlen.toNat ≤ 3 ∧
    (encAt 3 [0x61, 0x62, 0x39] 0 accept4).enc.err = false := by decide +kernel

theorem witness_RefusedByteEndsTheCommandWithIo :
    Sink.acceptsNext 1 (encAt 3 [0x61, 0x62, 0x39] 0 [.ok, .fail]).enc.sink ∧
    (Sink.afterPushes 1 (encAt 3 [0x61, 0x62, 0x39] 0 [.ok, .fail]).enc.sink).answer = .fail ∧
    8 * (1 + 1) ≤ 0 + (wireBitsOf (encAt 3 [0x61, 0x62, 0x39] 0 [.ok, .fail]) .encAscii).length ∧
    (encAt 3 [0x61, 0x62, 0x39] 0 [.ok, .fail]).enc.err = false ∧
    (encAt 3 [0x61, 0x62, 0x39] 0 [.ok, .fail]).enc.tlen.toNat ≤ 3 := by decide +kernel

theorem witness_EncCommandFrame : (Instr.encPutbits 0).channel = .enc ∧ Instr.encReset.channel = .enc := ⟨rfl, rfl⟩

theorem witness_DecCommandFrame : (Instr.decGetbits 63).channel = .dec ∧ Instr.decAlign.channel = .dec := ⟨rfl, rfl⟩

theorem witness_DecGetbitsReadsTheField_1 :
    (decAt 1 [0x80]).dec.err = false ∧ (decAt 1 [0x80]).dec.bitsAhead = [true] ++ List.replicate 7 false := by
  decide +kernel

theorem witness_DecGetbitsReadsTheField_32 :
    (decAt 1 [0xDE, 0xAD, 0xBE, 0xEF]).dec.bitsAhead = bitsOf 32 0xDEADBEEF ++ [] ∧
    (bitsOf 32 0xDEADBEEF).length = (32 : BitVec 6).toNat := by decide +kernel

theorem witness_DecGetbitsOnShortInputRaisesIo :
    (decAt 1 [0xDE]).dec.bitsAhead.length < (9 : BitVec 6).toNat ∧
    failsAfterBytes (decAt 1 [0xDE]).dec.source.script = true ∧ (decAt 1 [0xDE]).dec.err = false := by decide +kernel

theorem witness_CodeDecReadsTheNextCode_tagc :
    (decAt 1 [0xC0]).dec.bitsAhead = symbolBits tagc 2 ++ List.replicate 5 false ∧ 2 < tagc.length := by decide +kernel

theorem witness_CodeDecReadsTheNextCode_ascc :
    (decAt 1 [0xFF, 0x00]).dec.bitsAhead = symbolBits ascc 128 ++ List.replicate 6 false ∧ 128 < ascc.length ∨
    (decAt 1 [0xFF, 0xC0]).dec.bitsAhead = symbolBits ascc 2 ++ List.replicate 5 false ∧ 2 < ascc.length ∨
    (decAt 1 [0x00]).dec.bitsAhead = symbolBits ascc 120 ++ List.replicate 3 false ∧ 120 < ascc.length := by
  decide +kernel

theorem witness_CodeDecReadsTheNextCode_fbc :
    (decAt 1 [0x03]).dec.bitsAhead = symbolBits fbc 97 ++ [true, true] ∧ 97 < fbc.length := by decide +kernel

/-- One input for each of the four integer forms, the non-minimal ones too. -/
theorem witness_DecValueReadsAnInteger :
    (decAt 1 [0xE5]).dec.bitsAhead = tagCode .int ++ [false] ++ bitsOf 4 5 ++ [] ∧
    (decAt 1 [0xF0, 0x28]).dec.bitsAhead = tagCode .int ++ [true, false] ++ bitsOf 8 5 ++ List.replicate 3 false ∧
    (decAt 1 [0xF8, 0x00, 0xA0]).dec.bitsAhead =
      tagCode .int ++ [true, true, false] ++ bitsOf 16 40 ++ List.replicate 2 false ∧
    (decAt 1 [0xFF, 0xFF, 0xFF, 0xFF, 0xFC]).dec.bitsAhead =
      tagCode .int ++ [true, true, true] ++ bitsOf 32 0xFFFFFFFF ++ List.replicate 2 false ∧
    (decAt 1 [0xE5]).dec.err = false := by decide +kernel

/-- One text of each kind, each of exactly RES_MAX bytes. -/
theorem witness_DecValueReadsAText :
    (decAt 3 [0x41, 0x0F, 0x7F, 0xF0]).dec.bitsAhead = textWire .ascii [0x61, 0x62, 0x39] ++ [false, false] ∧
    (keptText .ascii [0x61, 0x62, 0x39]).length ≤ 3 ∧ (decAt 3 [0x41, 0x0F, 0x7F, 0xF0]).params.wf = true ∧
    (decAt 3 [0x80, 0x06, 0x97, 0xDE]).dec.bitsAhead = textWire .utf8 [0x61, 0x62, 0x39] ++ [] ∧
    (decAt 2 [0xC8, 0x28, 0x40, 0x00]).dec.bitsAhead = textWire .raw [0x41, 0x00, 0x42] ++ List.replicate 5 false ∧
    (keptText .raw [0x41, 0x00, 0x42]).length ≤ 2 ∧
    (decAt 3 [0x41, 0x0F, 0x7F, 0xF0]).dec.err = false := by decide +kernel

theorem witness_DecValueTooLongRaisesCapacity :
    (decAt 2 [0x41, 0x0F, 0x7F, 0xF0]).dec.bitsAhead = textWire .ascii [0x61, 0x62, 0x39] ++ [false, false] ∧
    2 < (keptText .ascii [0x61, 0x62, 0x39]).length ∧ (decAt 2 [0x41, 0x0F, 0x7F, 0xF0]).dec.err = false := by
  decide +kernel

theorem witness_DecValueOnShortInputRaisesIo :
    (decAt 3 [0x41, 0x0F]).dec.bitsAhead ++ (textWire .ascii [0x61, 0x62, 0x39]).drop 16 =
      textWire .ascii [0x61, 0x62, 0x39] ∧
    (textWire .ascii [0x61, 0x62, 0x39]).drop 16 ≠ [] ∧ failsAfterBytes (decAt 3 [0x41, 0x0F]).dec.source.script = true ∧
    (keptText .ascii [0x61, 0x62, 0x39]).length ≤ 3 ∧ (decAt 3 [0x41, 0x0F]).dec.err = false := by decide +kernel

theorem witness_ProtoIsNeverRaised : codeDec tagc (decAt 1 [0xC0]).dec =
    .ok 2 { (decAt 1 [0xC0]).dec with cur := 0xC0, nbits := 5, bitcnt := 3, source := ⟨[.fail], 1, [0xC0]⟩ } := by rfl

/-- An input on which the body of DEC.VALUE raises: the hypothesis of the second clause. -/
theorem witness_ProtoIsNeverRaised_raises : ∃ d', valueBody 3 (decAt 3 []).dec = .error .io d' := ⟨_, rfl⟩

/-- An integer value cut inside its payload, and one cut inside its prefix. -/
theorem witness_DecValueOnShortIntegerRaisesIo :
    (decAt 3 [0xF0]).dec.bitsAhead ++ [false, false, true, false, true] =
      tagCode .int ++ [true, false] ++ bitsOf 8 5 ∧ ([true, false], 8) ∈ intForms ∧ (bitsOf 8 5).length = 8 ∧
    failsAfterBytes (decAt 3 [0xF0]).dec.source.script = true ∧ (decAt 3 [0xF0]).dec.err = false ∧
    (decAt 3 []).dec.bitsAhead ++ (tagCode .int ++ [false] ++ bitsOf 4 5) = tagCode .int ++ [false] ++ bitsOf 4 5 ∧
    failsAfterBytes (decAt 3 []).dec.source.script = true := by decide +kernel

/-- Vector ER15's like for an integer: nothing of it is returned. -/
theorem test_decValue_short_integer : decRow (exec .decValue (decAt 4096 [0xF0])) 0x00000012 7 [] 0 8 2 = true := by
  decide +kernel

theorem witness_DecAlignSkipsToTheByteBoundary :
    (decAt 1 [0x80]).dec.err = false ∧ (decAt 1 [0x80]).dec.source.answer = .data 0x80 ∧
    exec .decAlign (decAt 1 [0x80]) = .next (decAt 1 [0x80]) := ⟨rfl, rfl, rfl⟩

/-- A legal command and an illegal RESET word on each errored channel. -/
theorem witness_ErroredChannelIsInert :
    (encTurn encErrored 5).schedule = [.enc] ∧ (encTurn encErrored 5).enc.running = some 5 ∧
    (encTurn encErrored 0x0000010F).enc.err = true ∧ (5 : Word) ≠ 0x0000000F ∧ (0x0000010F : Word) ≠ 0x0000000F ∧
    (decTurn decErrored 1).schedule = [.dec] ∧ (decTurn decErrored 1).dec.running = some 1 ∧
    (decTurn decErrored 1).dec.err = true ∧ (1 : Word) ≠ 0x0000000F := by decide +kernel

theorem witness_OnlyResetsClearAnError_enc :
    (encTurn encErrored 0x0000000F).enc.err = true ∧
    onNext (step (encTurn encErrored 0x0000000F)) (fun t => !t.enc.err) = true := by decide +kernel

theorem witness_OnlyResetsClearAnError_dec :
    (decTurn decErrored 0x0000000F).dec.err = true ∧
    onNext (step (decTurn decErrored 0x0000000F)) (fun t => !t.dec.err) = true ∧
    onNext (step { decErrored with schedule := [.blockReset 0 0 false] }) (fun t => !t.dec.err) = true := by
  decide +kernel

theorem witness_FirstErrorCodeIsKept :
    onNext (step (encTurn encErrored 0x00000008)) (fun t => t.enc.err) = true ∧
    onNext (step (decTurn decErrored 0x00000002)) (fun t => t.dec.err) = true := by decide +kernel

/-- ENC.ASCII writes 30 bits; the decoder stands before them. -/
theorem witness_TextCommandsRoundTrip :
    let s := encAt 3 [0x61, 0x62, 0x39] 0 accept4
    s.enc.tlen.toNat ≤ s.params.txtMax ∧ s.enc.err = false ∧ s.enc.outBase ≤ s.enc.sink.accepted.length ∧
    Sink.acceptsNext ((s.enc.nbits.toNat + (wireBitsOf s .encAscii).length) / 8) s.enc.sink ∧
    (decAt 3 [0x41, 0x0F, 0x7F, 0xF0]).params.wf = true ∧ s.enc.tlen.toNat ≤ 3 ∧
    onNext (exec .encAscii s) (fun t => decide ((decAt 3 [0x41, 0x0F, 0x7F, 0xF0]).dec.bitsAhead =
      t.enc.streamBits.drop s.enc.streamBits.length ++ [false, false])) = true := by decide +kernel

theorem witness_AutoRoundTripIsLossless :
    let s := encAt 2 [0x00, 0x80] 0 accept4
    s.enc.tlen.toNat ≤ s.params.txtMax ∧ s.enc.err = false ∧ s.enc.outBase ≤ s.enc.sink.accepted.length ∧
    Sink.acceptsNext ((s.enc.nbits.toNat + (wireBitsOf s .encAuto).length) / 8) s.enc.sink ∧
    (decAt 2 [0xBD, 0xF6, 0x4B, 0xDE]).params.wf = true ∧ s.enc.tlen.toNat ≤ 2 ∧
    onNext (exec .encAuto s) (fun t => decide ((decAt 2 [0xBD, 0xF6, 0x4B, 0xDE]).dec.bitsAhead =
      t.enc.streamBits.drop s.enc.streamBits.length ++ [])) = true := by decide +kernel

theorem witness_IntegerRoundTrip :
    let s := encAt 1 [] 300 accept4
    s.enc.err = false ∧ s.enc.outBase ≤ s.enc.sink.accepted.length ∧
    Sink.acceptsNext ((s.enc.nbits.toNat + (intWire s.enc.arg).length) / 8) s.enc.sink ∧
    onNext (exec .encSym s) (fun t => decide ((decAt 1 [0xF8, 0x04, 0xB0]).dec.bitsAhead =
      t.enc.streamBits.drop s.enc.streamBits.length ++ [false, false])) = true := by decide +kernel

/-- Weights of 0 (vector P6). -/
theorem witness_ConstructedLengthsAreComplete : sealLengths [0, 0, 1] = [2, 2, 1] ∧
    ∀ l ∈ sealLengths [0, 0, 1], l ≤ 2 := by decide +kernel

theorem witness_ConstructedCodesArePrefixFree :
    (sealLengths [0, 0, 1])[2]? = some 1 ∧ (sealLengths [0, 0, 1])[0]? = some 2 ∧
    (sealCodes (sealLengths [0, 0, 1]))[2]? = some 0 ∧ (sealCodes (sealLengths [0, 0, 1]))[0]? = some 2 := by
  decide +kernel

theorem witness_EveryBitStringStartsWithOneCode :
    tagc.longest = 3 ∧ ascc.longest = 11 ∧ fbc.longest = 11 := by decide +kernel

theorem witness_StatusLayout : State.reset.enc.busy = false ∧ (encTurn State.reset 1).enc.busy = true ∧
    State.reset.dec.busy = false ∧ (decTurn State.reset 1).dec.busy = true := ⟨rfl, rfl, rfl, rfl⟩

theorem witness_OperandRegistersKeepTheHostsValue : ∃ t, exec .encReset State.reset = .next t := ⟨_, rfl⟩

/-- Byte 4k + 3 at the last index below RES_MAX, and one at RES_MAX. -/
theorem witness_RbufWindowReadsTheResult :
    onNext (exec .decValue (decAt 3 [0x41, 0x0F, 0x7F, 0xF0])) (fun t => decide (4 * 0 + 2 < t.params.resMax ∧
      t.dec.rvalid = true ∧ 4 * 0 + 2 < t.dec.rlen.toNat ∧ t.dec.rbuf.read (4 * 0 + 2) = some 0x39 ∧
      t.params.resMax ≤ 4 * 0 + 3)) = true := by decide +kernel

theorem witness_BusyChannelHoldsItsAccesses :
    onNext (step { encTurn (decTurn State.reset 1) 1 with
      host := ⟨[.write .encArg 7, .read .decRint, .read .encStatus], []⟩, schedule := [.bus] })
      (fun t => decide (t.enc.busy = true ∧ t.dec.busy = true ∧
        t.host.queue = [.write .encArg 7, .read .decRint])) = true := by decide +kernel

theorem witness_BusServesTheOldestFreeAccess :
    (encTurn State.reset 1).held (.write .encArg 7) = true ∧ (encTurn State.reset 1).held (.read .encStatus) = false ∧
    (encTurn State.reset 1).held (.read .decRint) = false := ⟨rfl, rfl, rfl⟩

/-- A STATUS write of a busy channel waits (R61, R170). -/
theorem witness_OnlyStatusReadsPassABusyChannel :
    (HostOp.write .encStatus 0).reg.channel = some .enc ∧ (encTurn State.reset 1).busy .enc = true ∧
    (encTurn State.reset 1).held (.write .encStatus 0) = true ∧ State.reset.busy .dec = false ∧
    (HostOp.read (.unmapped 0x14)).reg.channel = none := ⟨rfl, rfl, rfl, rfl, rfl⟩

/-- The first and last word of the window, and the first address on each side of it. -/
theorem witness_OnlyAlignedWordAccessesArrive :
    let p : Params := { Params.default with base := 0x1000 }
    Params.offsetOf p 0x1000 = some 0 ∧ Params.offsetOf p 0x10FFC = some 0xFFFC ∧ Params.offsetOf p 0x11000 = none ∧
    Params.offsetOf p 0xFFF = none ∧ Params.offsetOf p 0x1002 = some 2 := by decide +kernel

theorem witness_RegisterMapOffsets : (Reg.encTbuf 0).offset = 0x4000 ∧ (Reg.encTbuf 4095).offset = 0x7FFC ∧
    (Reg.decRbuf 4095).offset = 0xBFFC := ⟨rfl, rfl, rfl⟩

/-- The holes next to the registers and the windows (R30, R44). -/
theorem test_holes_of_the_map :
    [0x0014, 0x00FC, 0x0118, 0x3FFC, 0xC000, 0xFFFC].map Reg.ofOffset =
      [.unmapped 0x0014, .unmapped 0x00FC, .unmapped 0x0118, .unmapped 0x3FFC, .unmapped 0xC000, .unmapped 0xFFFC] := by
  rfl

theorem witness_RegistersReadTheirValues : State.reset.enc.busy = false ∧ State.reset.dec.busy = false := ⟨rfl, rfl⟩

theorem witness_TextMacroLoadsItsOperand : State.reset.enc.busy = false ∧
    ([0x61, 0x62, 0x39, 0x7A, 0x00] : List Byte).length ≤ State.reset.params.txtMax ∧
    State.reset.params.wf = true ∧
    (OperandMacro.auto [0x61, 0x62, 0x39, 0x7A, 0x00], 0x00000004#32) ∈
      [(OperandMacro.ascii [0x61, 0x62, 0x39, 0x7A, 0x00], 0x00000001#32),
        (OperandMacro.auto [0x61, 0x62, 0x39, 0x7A, 0x00], 0x00000004#32)] := by decide +kernel

theorem witness_BlockResetGivesTheResetRegisters :
    onNext (step { encTurn (encAt 3 [0x61, 0x62, 0x39] 5 accept4) 1 with schedule := [.blockReset 2 0 true] })
      (fun t => decide (t.enc.sink.accepted = [0x41, 0x0F] ∧ t.enc.arg = 0)) = true := by decide +kernel

theorem witness_AbandonedCommandKeepsItsFirstExchanges :
    onNext (State.runEncoder (encTurn (encAt 3 [0x61, 0x62, 0x39] 5 accept4) 1)) (fun t =>
      decide (t.enc.sink.accepted = [0x41, 0x0F, 0x7F] ∧ t.enc.sink.asked ≤ 0 + 3)) = true ∧
    ((encTurn (encAt 3 [0x61, 0x62, 0x39] 5 accept4) 1).abandonedSink 2).accepted = [0x41, 0x0F] ∧
    onNext (State.runDecoder (decTurn (decAt 3 [0x41, 0x0F]) 1)) (fun t => decide (t.dec.source.asked ≤ 0 + 3)) = true ∧
    ((decTurn (decAt 3 [0x41, 0x0F]) 1).abandonedSource 1).pulled = [0x41] ∧
    onNext (step { encTurn (encAt 3 [0x61, 0x62, 0x39] 5 accept4) 1 with schedule := [.blockReset 2 0 true] })
      (fun u => decide (u.enc.sink.asked = 2)) = true := by decide +kernel

/-- A state with the invariant and its next state: ENC has a command and the turn. -/
theorem witness_EveryStepKeepsTheInvariant :
    Inv (encTurn State.reset 0x0000000F) ∧ step (encTurn State.reset 0x0000000F) = .next State.reset := by
  refine ⟨⟨by decide, ?_, ?_⟩, rfl⟩
  · constructor <;> simp [encTurn, State.loadWord, State.reset, Encoder.fresh]
  · constructor <;> simp [encTurn, State.loadWord, State.reset, Decoder.fresh]

theorem witness_ChannelsAreIndependent :
    exec .encReset State.reset = .next State.reset ∧ exec .decReset State.reset = .next State.reset := ⟨rfl, rfl⟩

end Sys2Proof.Tests
end

section
/-! What a command does to its own channel, as a function of the parameters and that channel alone (00_scope.md R4,
70_reset_and_hazards.md R163): the key to the independence of the channels. -/

namespace Sys2Proof.Machine

/-- What an ENC command makes of ENC, from the parameters and ENC alone; `exec_eq_setEnc` ties it to `exec`.  A DEC
command leaves ENC as it is. -/
def encEffect (p : Params) (e : Encoder) : Instr → Encoder
  | .encAscii => encFrame (e.textLegal p.txtMax) (asciiBody (e.text p.txtMax)) e
  | .encUtf8 => encFrame (e.textLegal p.txtMax) (utf8Body (e.text p.txtMax)) e
  | .encRaw => encFrame (e.textLegal p.txtMax) (rawBody (e.text p.txtMax)) e
  | .encAuto => encFrame (e.textLegal p.txtMax) (autoBody (e.text p.txtMax)) e
  | .encSym => encFrame true (symBody e.arg) e
  | .encPutbits n => encFrame (widthOk n) (putBits n.toNat (argField n.toNat e.arg)) e
  | .encAlign => encFrame true encAlignBits e
  | .encReset => encResetFrame e
  | .decValue | .decGetbits _ | .decAlign | .decReset => e

/-- What a DEC command makes of DEC, from the parameters and DEC alone; `exec_eq_setDec` ties it to `exec`.  An ENC
command leaves DEC as it is. -/
def decEffect (p : Params) (d : Decoder) : Instr → Decoder
  | .decValue => decFrame true (valueBody p.resMax) d
  | .decGetbits n => decFrame (widthOk n) (getBitsBody n.toNat) d
  | .decAlign => decFrame true decAlignBits d
  | .decReset => decResetFrame d
  | .encAscii | .encUtf8 | .encRaw | .encAuto | .encSym | .encPutbits _ | .encAlign | .encReset => d

theorem exec_eq_setEnc (s : State) :
    ∀ i : Instr, i.channel = .enc → exec i s = .next (s.setEnc (encEffect s.params s.enc i))
  | .encAscii, _ => rfl
  | .encUtf8, _ => rfl
  | .encRaw, _ => rfl
  | .encAuto, _ => rfl
  | .encSym, _ => rfl
  | .encPutbits _, _ => rfl
  | .encAlign, _ => rfl
  | .encReset, _ => rfl

theorem exec_eq_setDec (s : State) :
    ∀ i : Instr, i.channel = .dec → exec i s = .next (s.setDec (decEffect s.params s.dec i))
  | .decValue, _ => rfl
  | .decGetbits _, _ => rfl
  | .decAlign, _ => rfl
  | .decReset, _ => rfl

/-- Every state an ENC command can end in. -/
theorem eq_setEnc_of_exec {i : Instr} {s t : State} (hc : i.channel = .enc) (h : exec i s = .next t) :
    t = s.setEnc (encEffect s.params s.enc i) :=
  Host.Outcome.next.inj (h.symm.trans (exec_eq_setEnc s i hc))

/-- Every state a DEC command can end in. -/
theorem eq_setDec_of_exec {i : Instr} {s t : State} (hc : i.channel = .dec) (h : exec i s = .next t) :
    t = s.setDec (decEffect s.params s.dec i) :=
  Host.Outcome.next.inj (h.symm.trans (exec_eq_setDec s i hc))

/-- Settles O56: both runs set the command's channel to the same function of the parameters and that channel, which
the two states have in common. -/
theorem channelsAreIndependent : Obligations.ChannelsAreIndependent := by
  intro i s s' t t' hp h h'
  constructor
  · intro hc he
    obtain rfl := eq_setEnc_of_exec hc h
    obtain rfl := eq_setEnc_of_exec hc h'
    simp [hp, he]
  · intro hc hd
    obtain rfl := eq_setDec_of_exec hc h
    obtain rfl := eq_setDec_of_exec hc h'
    simp [hp, hd]

end Sys2Proof.Machine
end

section
/-! The host register window (10_state.md R30 to R45): the bits of a STATUS word, the lanes of a buffer word, and what a
register write does, each said once; then the statements about single registers. -/

namespace Sys2Proof.Machine

/-! ### STATUS words -/

/-- The STATUS layout bit by bit (R31, R37). -/
theorem statusWord_getLsbD (busy err : Bool) (ecode nbits : BitVec 3) (rvalid : Bool) (j : Nat) :
    (statusWord busy err ecode nbits rvalid).getLsbD j =
      if j = 0 then busy
      else if j = 1 then err
      else if 4 ≤ j ∧ j ≤ 6 then ecode.getLsbD (j - 4)
      else if 8 ≤ j ∧ j ≤ 10 then nbits.getLsbD (j - 8)
      else if j = 12 then rvalid
      else false := by
  simp only [statusWord, BitVec.getLsbD_append]
  rcases Nat.lt_or_ge j 13 with hj | hj
  · interval_cases j <;> simp
  · simp (disch := omega) [if_neg]

theorem encStatus_idle (s : State) (h : s.enc.busy = false) :
    s.regRead .encStatus = statusWord false s.enc.err s.enc.ecode s.enc.nbits false := by
  simp [State.regRead, Encoder.statusWord, h]

theorem encStatus_busy (s : State) (h : s.enc.busy = true) :
    ∃ err ecode nbits, s.regRead .encStatus = statusWord true err ecode nbits false :=
  ⟨_, _, _, if_pos h⟩

theorem decStatus_idle (s : State) (h : s.dec.busy = false) :
    s.regRead .decStatus = statusWord false s.dec.err s.dec.ecode s.dec.nbits s.dec.rvalid := by
  simp [State.regRead, Decoder.statusWord, h]

theorem decStatus_busy (s : State) (h : s.dec.busy = true) :
    ∃ err ecode nbits rvalid, s.regRead .decStatus = statusWord true err ecode nbits rvalid :=
  ⟨_, _, _, _, if_pos h⟩

/-- Settles O39: the bits of the idle and of the busy STATUS word, read off the layout. -/
theorem encStatusLayout : Obligations.EncStatusLayout := by
  refine ⟨rfl, fun s j h => ?_, fun s h => ?_, fun s v => rfl, rfl⟩
  · rw [encStatus_idle s h, statusWord_getLsbD]
    by_cases h0 : j = 0 <;> simp [h0]
  · obtain ⟨err, ecode, nbits, hr⟩ := encStatus_busy s h
    refine ⟨by simp [hr, statusWord_getLsbD], fun j h0 h1 h4 h8 => ?_⟩
    simp [hr, statusWord_getLsbD, h0, h1, h4, h8]

/-- Settles O40: as for ENC_STATUS, with RVALID in bit 12. -/
theorem decStatusLayout : Obligations.DecStatusLayout := by
  refine ⟨rfl, fun s j h => ?_, fun s h => ?_, fun s v => rfl, rfl⟩
  · rw [decStatus_idle s h, statusWord_getLsbD]
    by_cases h0 : j = 0 <;> simp [h0]
  · obtain ⟨err, ecode, nbits, rvalid, hr⟩ := decStatus_busy s h
    refine ⟨by simp [hr, statusWord_getLsbD], fun j h0 h1 h4 h8 h12 => ?_⟩
    simp [hr, statusWord_getLsbD, h0, h1, h4, h8, h12]

/-! ### Buffer windows -/

/-- Lane l of word k of a buffer window is byte 4k + l (R36, R43, R57). -/
theorem windowWord_lane (byteAt : Nat → Byte) (k lane : Nat) (h : lane < 4) :
    (windowWord byteAt k).extractLsb' (8 * lane) 8 = byteAt (4 * k + lane) := by
  apply BitVec.eq_of_getLsbD_eq
  intro i hi
  simp only [windowWord, BitVec.getLsbD_extractLsb', BitVec.getLsbD_append, hi, decide_true, Bool.true_and]
  interval_cases lane <;> simp (disch := omega) [if_pos, if_neg] <;> congr 1 <;> omega

/-- Everything a write of one word of the TBUF window does to reads of TBUF (R36). -/
theorem tbufRead_tbufWriteWord (e : Encoder) (txtMax k j : Nat) (v : Word) :
    (e.tbufWriteWord txtMax k v).tbufRead txtMax j =
      if txtMax ≤ j then 0
      else if 4 * k ≤ j ∧ j < 4 * k + 4 then v.extractLsb' (8 * (j - 4 * k)) 8
      else e.tbufRead txtMax j := by
  simp only [Encoder.tbufWriteWord, tbufRead_tbufWrite]
  by_cases hj : txtMax ≤ j
  · simp [hj, Nat.not_lt.mpr hj, Encoder.tbufRead]
  · by_cases hk : 4 * k ≤ j ∧ j < 4 * k + 4
    · obtain ⟨lane, rfl⟩ := Nat.exists_eq_add_of_le hk.1
      have hlane : lane < 4 := by omega
      rw [if_neg hj, if_pos hk]
      interval_cases lane <;> simp <;> omega
    · rw [if_neg hj, if_neg hk, if_neg (by omega), if_neg (by omega), if_neg (by omega), if_neg (by omega)]

/-- Settles O42: the four byte writes of a window word, and the lanes of a window read. -/
theorem tbufWindowStoresFourBytes : Obligations.TbufWindowStoresFourBytes :=
  ⟨fun s k j v => tbufRead_tbufWriteWord s.enc s.params.txtMax k j v,
    fun s k lane h => windowWord_lane (s.enc.tbufRead s.params.txtMax) k lane h⟩

/-- Settles O43: each lane of a window read is one RBUF read, inside the result or past RES_MAX. -/
theorem rbufWindowReadsTheResult : Obligations.RbufWindowReadsTheResult := by
  refine ⟨fun s k lane b hl hmax hv hlen hb => ?_, fun s k lane hl hmax => ?_, fun s k v => rfl⟩
  · rw [State.regRead, windowWord_lane _ k lane hl, Decoder.rbufRead, if_neg (by omega)]
    simp [hv, hlen, hb]
  · rw [State.regRead, windowWord_lane _ k lane hl, Decoder.rbufRead, if_pos hmax]

/-! ### The register map -/

theorem ofOffset_encTbuf (off : Nat) (h : 0x4000 ≤ off) (h' : off < 0x8000) :
    Reg.ofOffset off = .encTbuf ((off - 0x4000) / 4) := by
  simp (disch := omega) only [Reg.ofOffset, if_neg, if_pos]

theorem ofOffset_decRbuf (off : Nat) (h : 0x8000 ≤ off) (h' : off < 0xC000) :
    Reg.ofOffset off = .decRbuf ((off - 0x8000) / 4) := by
  simp (disch := omega) only [Reg.ofOffset, if_neg, if_pos]

/-- Settles O49: the offsets of the map, the two buffer windows, and the holes between them. -/
theorem registerMapOffsets : Obligations.RegisterMapOffsets := by
  refine ⟨by decide, fun k hk => ⟨?_, ?_, rfl, rfl⟩, fun off _ _ hr hb => ?_⟩
  · rw [ofOffset_encTbuf _ (by omega) (by omega), Nat.add_sub_cancel_left, Nat.mul_div_cancel_left k (by decide)]
  · rw [ofOffset_decRbuf _ (by omega) (by omega), Nat.add_sub_cancel_left, Nat.mul_div_cancel_left k (by decide)]
  · simp only [List.mem_cons, List.not_mem_nil, or_false, not_or] at hr
    simp (disch := omega) only [Reg.ofOffset, hr, if_false, if_neg]

/-! ### Reads and writes of single registers -/

/-- Settles O44: each clause is the register's own line of the map of reads and writes. -/
theorem otherAccessesHaveNoEffect : Obligations.OtherAccessesHaveNoEffect := by
  refine ⟨fun _ _ _ => ⟨rfl, rfl⟩, fun _ => ⟨rfl, rfl⟩, fun s r v hr => ?_, fun _ _ _ => rfl, fun _ _ => rfl⟩
  simp only [List.mem_cons, List.not_mem_nil, or_false] at hr
  rcases hr with rfl | rfl | rfl | rfl | rfl | rfl | rfl <;> rfl

/-- Settles O45: the two CMD registers' lines of the register map. -/
theorem commandWriteStartsTheChannel : Obligations.CommandWriteStartsTheChannel :=
  ⟨rfl, rfl, fun _ => ⟨rfl, rfl⟩, fun _ _ => ⟨rfl, rfl⟩⟩

/-- Settles O53: both channels are idle and fresh, so every read is the register's reset value. -/
theorem resetRegistersReadAsListed : Obligations.ResetRegistersReadAsListed :=
  ⟨rfl, rfl, rfl, rfl, rfl, rfl, rfl, rfl, rfl⟩

/-- A register narrower than a word reads with 0 above its own bits. -/
theorem setWidth_word_getLsbD {n : Nat} (v : BitVec n) (hn : n ≤ 32) (j : Nat) :
    (v.setWidth 32).getLsbD j = (decide (j < n) && v.getLsbD j) := by
  rw [BitVec.getLsbD_setWidth]
  by_cases hj : j < n
  · simp [hj, hj.trans_le hn]
  · simp [hj, BitVec.getLsbD_of_ge v j (by omega)]

/-- Settles O58: a full-width register reads as it stands, a narrower one zero-extended. -/
theorem registersReadTheirValues : Obligations.RegistersReadTheirValues :=
  ⟨fun _ => ⟨rfl, rfl⟩, fun s h => by simp [State.regRead, h], fun s h => by simp [State.regRead, h],
    fun s j => setWidth_word_getLsbD s.enc.tlen (by decide) j,
    fun s j => setWidth_word_getLsbD s.dec.rkind (by decide) j,
    fun s j => setWidth_word_getLsbD s.dec.rlen (by decide) j⟩

end Sys2Proof.Machine
end

section
/-! What ENC's turn makes of ENC (40_channel.md R93 to R103): every Body of an ENC command puts some bit string, so a
run is a reset, an illegal word, the sticky no-op, or a bit string put to its end or to its first refused byte. -/

namespace Sys2Proof.Machine

/-! ### ENC Bodies put bit strings -/

/-- From any channel, x does what putting some bit string does.  (ENC.ALIGN's bit string depends on the channel.) -/
def PutsBits (x : EncM Unit) : Prop := ∀ e, ∃ bs, x e = putBitString bs e

theorem putsBits_pure : PutsBits (pure ()) := fun _ => ⟨[], rfl⟩

theorem putsBits_putBits (n : Nat) (v : Word) : PutsBits (putBits n v) := fun e => ⟨_, congrFun (putBits_eq n v) e⟩

theorem putsBits_codeEnc (t : CodeTable) (v : Fin t.length) : PutsBits (codeEnc t v) :=
  fun e => ⟨_, congrFun (codeEnc_eq t v) e⟩

theorem putsBits_bind {x : EncM Unit} {f : Unit → EncM Unit} (hx : PutsBits x) (hf : ∀ u, PutsBits (f u)) :
    PutsBits (x >>= f) := by
  intro e
  obtain ⟨bs, hbs⟩ := hx e
  cases hp : putBitString bs e with
  | error c e' => exact ⟨bs, by rw [encM_bind, hbs, hp]⟩
  | ok u e' =>
    obtain ⟨cs, hcs⟩ := hf u e'
    exact ⟨bs ++ cs, by rw [encM_bind, hbs, putBitString_append, encM_bind, hp]; exact hcs⟩

theorem putsBits_encAlignBits : PutsBits encAlignBits := by
  intro e
  by_cases h : e.nbits = 0
  · exact ⟨[], if_pos h⟩
  · obtain ⟨bs, hbs⟩ := putsBits_putBits (8 - e.nbits.toNat) 0 e
    exact ⟨bs, (if_neg h).trans hbs⟩

theorem putsBits_putAsciiBytes (t : List Byte) : PutsBits (putAsciiBytes t) := by
  induction t with
  | nil => exact putsBits_pure
  | cons b t ih =>
    unfold putAsciiBytes
    split
    · exact putsBits_bind (putsBits_codeEnc _ _) fun _ => ih
    · exact ih

theorem putsBits_putUtf8Bytes (t : List Byte) : PutsBits (putUtf8Bytes t) := by
  induction t with
  | nil => exact putsBits_pure
  | cons b t ih => exact putsBits_bind (putsBits_codeEnc _ _) fun _ => ih

theorem putsBits_putRawBytes (t : List Byte) : PutsBits (putRawBytes t) := by
  induction t with
  | nil => exact putsBits_pure
  | cons b t ih =>
    unfold putRawBytes
    split
    · exact putsBits_bind (putsBits_putBits _ _) fun _ => ih
    · exact ih

theorem putsBits_asciiBody (t : List Byte) : PutsBits (asciiBody t) :=
  putsBits_bind (putsBits_codeEnc _ _) fun _ =>
    putsBits_bind (putsBits_putAsciiBytes t) fun _ => putsBits_codeEnc _ _

theorem putsBits_utf8Body (t : List Byte) : PutsBits (utf8Body t) :=
  putsBits_bind (putsBits_codeEnc _ _) fun _ =>
    putsBits_bind (putsBits_putUtf8Bytes t) fun _ => putsBits_codeEnc _ _

theorem putsBits_rawBody (t : List Byte) : PutsBits (rawBody t) :=
  putsBits_bind (putsBits_codeEnc _ _) fun _ =>
    putsBits_bind (putsBits_putRawBytes t) fun _ => putsBits_putBits _ _

theorem putsBits_autoBody (t : List Byte) : PutsBits (autoBody t) := by
  unfold autoBody
  split
  · exact putsBits_asciiBody t
  · split
    · exact putsBits_rawBody t
    · exact putsBits_utf8Body t

theorem putsBits_symBody (v : Word) : PutsBits (symBody v) := by
  have field (k n : Nat) (a : Word) : PutsBits (putBits k a >>= fun _ => putBits n v) :=
    putsBits_bind (putsBits_putBits _ _) fun _ => putsBits_putBits _ _
  refine putsBits_bind (putsBits_codeEnc _ _) fun _ => ?_
  split
  · exact field 1 4 _
  · split
    · exact field 2 8 _
    · split
      · exact field 3 16 _
      · exact field 3 32 _

/-! ### One run -/

/-- Everything ENC's turn with the word w can make of the channel e; `encEffect_run` and `runEncoder_run` tie it to
`exec` and to the turn. -/
inductive EncRun (w : Word) (e : Encoder) : Encoder → Prop
  | reset (hw : w = 0x0000000F#32) : EncRun w e e.channelReset.finish
  | illegal : EncRun w e e.illegal.finish
  | inert (herr : e.err = true) : EncRun w e e.finish
  | done (herr : e.err = false) (bs : List Bool) (e' : Encoder) (hput : putBitString bs e = .ok () e') :
      EncRun w e e'.finish
  | raised (herr : e.err = false) (bs : List Bool) (c : ErrorCode) (e' : Encoder)
      (hput : putBitString bs e = .error c e') : EncRun w e (e'.raise c).finish

theorem encFrame_run (w : Word) (legal : Bool) {body : EncM Unit} (hb : PutsBits body) (e : Encoder) :
    EncRun w e (encFrame legal body e) := by
  obtain ⟨bs, hbs⟩ := hb e
  rcases encFrame_cases legal body e with ⟨-, h⟩ | ⟨-, herr, h⟩ | ⟨-, herr, e', ho, h⟩ | ⟨-, herr, c, e', ho, h⟩ <;>
    rw [h]
  · exact .illegal
  · exact .inert herr
  · exact .done herr bs e' (hbs ▸ ho)
  · exact .raised herr bs c e' (hbs ▸ ho)

/-- Every ENC command is a run of its word. -/
theorem encEffect_run (p : Params) (e : Encoder) :
    ∀ i : Instr, i.channel = .enc → EncRun (encode i) e (encEffect p e i)
  | .encAscii, _ => encFrame_run _ _ (putsBits_asciiBody _) e
  | .encUtf8, _ => encFrame_run _ _ (putsBits_utf8Body _) e
  | .encRaw, _ => encFrame_run _ _ (putsBits_rawBody _) e
  | .encAuto, _ => encFrame_run _ _ (putsBits_autoBody _) e
  | .encSym, _ => encFrame_run _ _ (putsBits_symBody _) e
  | .encPutbits _, _ => encFrame_run _ _ (putsBits_putBits _ _) e
  | .encAlign, _ => encFrame_run _ _ putsBits_encAlignBits e
  | .encReset, _ => .reset rfl

/-! ### What a run leaves alone -/

/-- e' differs from e in the stream registers, the error registers and BUSY alone; SINK has only been given more. -/
structure EncFrame (e e' : Encoder) : Prop where
  arg : e'.arg = e.arg
  tlen : e'.tlen = e.tlen
  tbuf : e'.tbuf = e.tbuf
  tbufEpoch : e'.tbufEpoch = e.tbufEpoch
  accepted : e.sink.accepted <+: e'.sink.accepted
  asked : e.sink.asked ≤ e'.sink.asked

theorem encFrame_refl (e : Encoder) : EncFrame e e := ⟨rfl, rfl, rfl, rfl, List.prefix_refl _, Nat.le_refl _⟩

theorem EncStreamOnly.frame {e e' : Encoder} (h : EncStreamOnly e e') : EncFrame e e' :=
  ⟨h.arg, h.tlen, h.tbuf, h.tbufEpoch, h.accepted, h.asked⟩

theorem putBitString_ok_streamOnly {bs : List Bool} {e e' : Encoder} (h : putBitString bs e = .ok () e') :
    EncStreamOnly e e' := by
  simpa only [h] using putBitString_streamOnly bs e

theorem putBitString_error_streamOnly {bs : List Bool} {c : ErrorCode} {e e' : Encoder}
    (h : putBitString bs e = .error c e') : EncStreamOnly e e' := by
  simpa only [h] using putBitString_streamOnly bs e

theorem encIllegal_frame (e : Encoder) : EncFrame e e.illegal := by
  rcases encIllegal_cases e with ⟨-, h⟩ | ⟨-, h⟩ <;> rw [h]
  · exact encFrame_refl e
  · exact ⟨rfl, rfl, rfl, rfl, List.prefix_refl _, Nat.le_refl _⟩

/-- A frame survives updates that change none of its fields, as BUSY <- 0, a raise and ChannelReset are. -/
theorem EncRun.frame {w : Word} {e e' : Encoder} (h : EncRun w e e') : EncFrame e e' := by
  cases h with
  | reset hw => exact ⟨rfl, rfl, rfl, rfl, List.prefix_refl _, Nat.le_refl _⟩
  | illegal => exact { encIllegal_frame e with }
  | inert herr => exact ⟨rfl, rfl, rfl, rfl, List.prefix_refl _, Nat.le_refl _⟩
  | done herr bs e' hput => exact { (putBitString_ok_streamOnly hput).frame with }
  | raised herr bs c e' hput => exact { (putBitString_error_streamOnly hput).frame with }

theorem EncRun.running {w : Word} {e e' : Encoder} (h : EncRun w e e') : e'.running = none := by
  cases h <;> rfl

/-- Settles O16: the frame of a run, with TBUF read through its cells and epoch. -/
theorem encCommandFrame : Obligations.EncCommandFrame := by
  intro i s hc
  have hrun := encEffect_run s.params s.enc i hc
  have hframe := hrun.frame
  exact ⟨_, exec_eq_setEnc s i hc, hrun.running, hframe.arg, hframe.tlen, hframe.tbufEpoch,
    fun j => tbufRead_congr _ _ _ j hframe.tbuf hframe.tbufEpoch, hframe.accepted, hframe.asked⟩

/-- TLEN keeps the low 15 bits of the word written (R34). -/
theorem low15_eq_and (v : Word) : (v.setWidth 15).setWidth 32 = v &&& 0x00007FFF#32 := by
  have hmask : v.toNat &&& 32767 = v.toNat % 32768 := Nat.and_two_pow_sub_one_eq_mod v.toNat 15
  apply BitVec.eq_of_toNat_eq
  simp only [BitVec.toNat_setWidth, BitVec.toNat_and, BitVec.toNat_ofNat, Nat.reducePow, Nat.reduceMod, hmask]
  omega

/-- Settles O41: a write stores the operand, and a command of either channel leaves it alone. -/
theorem operandRegistersKeepTheHostsValue : Obligations.OperandRegistersKeepTheHostsValue := by
  refine ⟨fun s v => ⟨rfl, low15_eq_and v⟩, fun i s t h => ?_, rfl, rfl⟩
  cases hc : i.channel with
  | enc =>
    have hframe := (encEffect_run s.params s.enc i hc).frame
    obtain rfl := eq_setEnc_of_exec hc h
    simp [State.regRead, hframe.arg, hframe.tlen]
  | dec =>
    obtain rfl := eq_setDec_of_exec hc h
    exact ⟨rfl, rfl⟩

end Sys2Proof.Machine
end

section
/-! What DEC's turn makes of DEC (40_channel.md R93, R98 to R106, 43_decoder.md R140 to R148), in two passes over the
Bodies: how each piece may end (its error codes, its answer), and what each piece keeps of the channel. -/

namespace Sys2Proof.Machine

/-! ### How a piece of a DEC Body ends -/

/-- x ends with an answer and a channel of Q, or raises IO or CAPACITY; never PROTO (R147). -/
structure DecEnds {α : Type} (Q : α → Decoder → Prop) (x : DecM α) : Prop where
  ends : ∀ d, match x d with
    | .ok a d' => Q a d'
    | .error c _ => c = .io ∨ c = .capacity

theorem decEnds_pure {α : Type} {Q : α → Decoder → Prop} {a : α} (h : ∀ d, Q a d) : DecEnds Q (pure a) := ⟨h⟩

theorem decEnds_bind {α β : Type} {P : α → Prop} {Q : β → Decoder → Prop} {x : DecM α} {f : α → DecM β}
    (hx : DecEnds (fun a _ => P a) x) (hf : ∀ a, P a → DecEnds Q (f a)) : DecEnds Q (x >>= f) := by
  refine ⟨fun d => ?_⟩
  have h1 := hx.ends d
  simp only [decM_bind]
  cases hxd : x d with
  | error c d' => simpa only [hxd] using h1
  | ok a d' => exact (hf a (by simpa only [hxd] using h1)).ends d'

theorem decEnds_getBit : DecEnds (fun _ _ => True) getBit := by
  refine ⟨fun d => ?_⟩
  rcases getBit_cases d with ⟨-, h⟩ | ⟨-, b, -, h⟩ | ⟨-, -, h⟩ <;> simp [h]

theorem decEnds_getBitsFrom (n : Nat) (v : Word) : DecEnds (fun _ _ => True) (getBitsFrom n v) := by
  induction n generalizing v with
  | zero => exact decEnds_pure fun _ => trivial
  | succ n ih => exact decEnds_bind decEnds_getBit fun _ _ => ih _

/-! ### The code tree

No path of the three trees ends before a symbol (R118), so CodeDec reads a symbol or runs out of input. -/

/-- Some code of the list has exactly l bits and the value acc. -/
def CodeTable.hasCode (t : CodeTable) (l acc : Nat) : Bool :=
  t.any (fun c => decide (c.len.toNat = l) && decide (c.code.toNat = acc))

/-- The codes of the list whose bit number l, counted from the first, is b. -/
def CodeTable.branch (t : CodeTable) (l : Nat) (b : Bool) : CodeTable :=
  t.filter (fun c => c.code.toNat.testBit (c.len.toNat - (l + 1)) == b)

/-- With `more` bits left up to the longest code, every continuation of the l bits of value acc reaches a code of the
list.  Each branch looks only at the codes that go its way. -/
def CodeTable.decodesAll : Nat → CodeTable → Nat → Nat → Bool
  | 0, t, l, acc => t.hasCode l acc
  | more + 1, t, l, acc =>
    t.hasCode l acc ||
      (decodesAll more (t.branch l false) (l + 1) (2 * acc) && decodesAll more (t.branch l true) (l + 1) (2 * acc + 1))

/-- Every bit string as long as the longest code starts with a code of the table (R87, R118). -/
def CodeTable.Complete (t : CodeTable) : Prop := CodeTable.decodesAll t.longest t 0 0 = true

theorem tagc_complete : CodeTable.Complete tagc := by unfold CodeTable.Complete; decide +kernel
theorem ascc_complete : CodeTable.Complete ascc := by unfold CodeTable.Complete; decide +kernel
theorem fbc_complete : CodeTable.Complete fbc := by unfold CodeTable.Complete; decide +kernel

theorem symbolOf_lt {t : CodeTable} {l acc v : Nat} (h : t.symbolOf l acc = some v) : v < t.length :=
  (List.findIdx?_eq_some_iff_getElem.mp h).1

/-- Where CodeDec finds no symbol, no list of the table's codes has one. -/
theorem hasCode_of_symbolOf_none {t ts : CodeTable} {l acc : Nat} (hts : ts ⊆ t) (h : t.symbolOf l acc = none) :
    ts.hasCode l acc = false :=
  List.any_eq_false.mpr fun c hc => by simpa using List.findIdx?_eq_none_iff.mp h c (hts hc)

/-- Where CodeDec finds no symbol it reads on, and every bit keeps it in the tree. -/
theorem decodesAll_bit {ts : CodeTable} {more l acc : Nat} (h : CodeTable.decodesAll (more + 1) ts l acc = true)
    (hn : ts.hasCode l acc = false) (b : Bool) :
    CodeTable.decodesAll more (ts.branch l b) (l + 1) (2 * acc + b.toNat) = true := by
  simp only [CodeTable.decodesAll, hn, Bool.false_or, Bool.and_eq_true] at h
  cases b
  · exact h.1
  · exact h.2

theorem decEnds_codeDecFrom (t : CodeTable) (more l acc : Nat) (ts : CodeTable) (hts : ts ⊆ t)
    (h : CodeTable.decodesAll more ts l acc = true) :
    DecEnds (fun v _ => v < t.length) (codeDecFrom t more l acc) := by
  induction more generalizing l acc ts with
  | zero =>
    unfold codeDecFrom
    split
    · rename_i v hv
      exact decEnds_pure fun _ => symbolOf_lt hv
    · rename_i hv
      exact absurd h (by simp [CodeTable.decodesAll, hasCode_of_symbolOf_none hts hv])
  | succ more ih =>
    unfold codeDecFrom
    split
    · rename_i v hv
      exact decEnds_pure fun _ => symbolOf_lt hv
    · rename_i hv
      exact decEnds_bind decEnds_getBit fun b _ => ih _ _ (ts.branch l b)
        (fun c hc => hts (List.mem_of_mem_filter hc)) (decodesAll_bit h (hasCode_of_symbolOf_none hts hv) b)

theorem decEnds_codeDec {t : CodeTable} (h : t.Complete) :
    DecEnds (fun v _ => v < t.length) (codeDec t) :=
  decEnds_codeDecFrom t _ 0 0 t (List.Subset.refl t) h

/-! ### Texts and integers -/

theorem decEnds_nextAsciiByte : DecEnds (fun _ _ => True) nextAsciiByte :=
  decEnds_bind (decEnds_codeDec ascc_complete) fun _ _ => decEnds_pure fun _ => trivial

theorem decEnds_nextUtf8Byte : DecEnds (fun _ _ => True) nextUtf8Byte :=
  decEnds_bind (decEnds_codeDec fbc_complete) fun _ _ => decEnds_pure fun _ => trivial

theorem decEnds_nextRawByte : DecEnds (fun _ _ => True) nextRawByte :=
  decEnds_bind (decEnds_getBitsFrom 8 0) fun _ _ => decEnds_pure fun _ => trivial

/-- A text that ends without CAPACITY has at most n + room bytes. -/
theorem decEnds_readText {next : DecM (Option Byte)} (hnext : DecEnds (fun _ _ => True) next) (room n : Nat) :
    DecEnds (fun k _ => k ≤ n + room) (readText next room n) := by
  induction room generalizing n with
  | zero =>
    refine decEnds_bind hnext fun o _ => ?_
    cases o with
    | none => exact decEnds_pure fun _ => Nat.le_refl n
    | some b => exact ⟨fun _ => .inr rfl⟩
  | succ room ih =>
    refine decEnds_bind hnext fun o _ => ?_
    cases o with
    | none => exact decEnds_pure fun _ => Nat.le_add_right n _
    | some b =>
      have hstore : DecEnds (fun _ _ => True) (storeResultByte n b) := ⟨fun _ => trivial⟩
      have hlen : n + (room + 1) = n + 1 + room := by omega
      exact decEnds_bind hstore fun _ _ => hlen ▸ ih (n + 1)

theorem decEnds_readIntBody : DecEnds (fun _ _ => True) readIntBody := by
  have choice (x y : DecM Word) (hx : DecEnds (fun _ _ => True) x) (hy : DecEnds (fun _ _ => True) y) :
      DecEnds (fun _ _ => True) (do if !(← getBit) then x else y) :=
    decEnds_bind decEnds_getBit fun b _ => by cases b <;> assumption
  exact choice _ _ (decEnds_getBitsFrom 4 0) <| choice _ _ (decEnds_getBitsFrom 8 0) <|
    choice _ _ (decEnds_getBitsFrom 16 0) (decEnds_getBitsFrom 32 0)

/-! ### The result registers -/

/-- The result registers fit each other (R28, R29), RLEN fits RES_MAX (R40) and RBUF fits RLEN (R43): what `DecoderInv`
says of the result registers alone. -/
structure ResultFits (resMax : Nat) (d : Decoder) : Prop where
  no_result : d.rvalid = false → d.rkind = 7 ∧ d.rlen = 0 ∧ d.rint = 0
  result_kind : d.rvalid = true → d.rkind = 0 ∨ d.rkind = 1 ∨ d.rkind = 2 ∨ d.rkind = 3 ∨ d.rkind = 4
  text_no_int : d.rkind = 0 ∨ d.rkind = 1 ∨ d.rkind = 2 → d.rint = 0
  int_no_text : d.rkind = 3 ∨ d.rkind = 4 → d.rlen = 0
  rlen_fits : d.rlen.toNat ≤ resMax
  rbuf_below : ∀ c ∈ d.rbuf, c.1 < d.rlen.toNat

theorem clearResult_fits (resMax : Nat) (d : Decoder) : ResultFits resMax d.clearResult := by
  constructor <;> simp

theorem decEnds_setTextResult {resMax n : Nat} (kind : BitVec 3) (hkind : kind = 0 ∨ kind = 1 ∨ kind = 2)
    (hn : n ≤ resMax) (hmax : resMax ≤ 16384) :
    DecEnds (fun _ d => ResultFits resMax d) (setTextResult kind n) := by
  refine ⟨fun d => ?_⟩
  have hlen : (BitVec.ofNat 15 n).toNat = n := by
    rw [BitVec.toNat_ofNat]; exact Nat.mod_eq_of_lt (by omega)
  constructor
  · simp
  · rcases hkind with rfl | rfl | rfl <;> simp
  · simp
  · rcases hkind with rfl | rfl | rfl <;> simp
  · exact hlen.trans_le hn
  · exact fun c hc => hlen.symm ▸ memory_below_truncate d.rbuf n c hc

/-- The two results without a text: an integer (R146) and a field (R104). -/
theorem noTextResult_fits (resMax : Nat) (d : Decoder) (kind : BitVec 3) (v : Word) (hkind : kind = 3 ∨ kind = 4) :
    ResultFits resMax { d with rvalid := true, rkind := kind, rlen := 0, rint := v, rbuf := d.rbuf.truncate 0 } := by
  constructor
  · simp
  · rcases hkind with rfl | rfl <;> simp
  · rcases hkind with rfl | rfl <;> simp
  · simp
  · simp
  · exact memory_below_truncate d.rbuf 0

/-- DEC.VALUE answers with result registers that fit; its tag is one of TAGC's four symbols (R147). -/
theorem decEnds_valueBody {resMax : Nat} (hmax : resMax ≤ 16384) :
    DecEnds (fun _ d => ResultFits resMax d) (valueBody resMax) := by
  have text {next : DecM (Option Byte)} (hnext : DecEnds (fun _ _ => True) next) (kind : BitVec 3)
      (hkind : kind = 0 ∨ kind = 1 ∨ kind = 2) :
      DecEnds (fun _ d => ResultFits resMax d) (readText next resMax 0 >>= setTextResult kind) :=
    decEnds_bind (decEnds_readText hnext resMax 0) fun n hn =>
      decEnds_setTextResult kind hkind (by omega) hmax
  refine decEnds_bind (decEnds_codeDec tagc_complete) fun tag htag => ?_
  rw [tagc_length] at htag
  interval_cases tag
  · exact text decEnds_nextAsciiByte 0 (by simp)
  · exact text decEnds_nextUtf8Byte 1 (by simp)
  · exact text decEnds_nextRawByte 2 (by simp)
  · exact decEnds_bind decEnds_readIntBody fun v _ => ⟨fun d => noTextResult_fits resMax d 3 v (.inl rfl)⟩

theorem decEnds_getBitsBody (resMax n : Nat) : DecEnds (fun _ d => ResultFits resMax d) (getBitsBody n) :=
  decEnds_bind (decEnds_getBitsFrom n 0) fun v _ => ⟨fun d => noTextResult_fits resMax d 4 v (.inr rfl)⟩

end Sys2Proof.Machine
end

section
/-! One run of DEC: what every piece of a DEC Body keeps of the channel, and the frame of the four DEC commands. -/

namespace Sys2Proof.Machine

/-! ### What a piece of a DEC Body keeps -/

/-- What `DecoderInv` says that holds inside a Body too: the stream's count (R27) and the canonical RBUF (R43). -/
structure StreamCount (d : Decoder) : Prop where
  base_le : d.inBase ≤ d.source.pulled.length
  pulled_covers : d.nbits.toNat ≤ 8 * (d.source.pulled.length - d.inBase)
  bitcnt_eq : d.bitcnt = BitVec.ofNat 32 (8 * (d.source.pulled.length - d.inBase) - d.nbits.toNat)
  rbuf_wf : Memory.wf d.rbuf = true

/-- A piece of a DEC Body keeps BUSY, the error registers and the start of the stream, pulls on, and keeps the count. -/
structure DecWorks (d d' : Decoder) : Prop where
  running : d'.running = d.running
  err : d'.err = d.err
  ecode : d'.ecode = d.ecode
  pulled : d.source.pulled <+: d'.source.pulled
  asked : d.source.asked ≤ d'.source.asked
  count : StreamCount d → StreamCount d'

theorem decWorks_refl (d : Decoder) : DecWorks d d := ⟨rfl, rfl, rfl, List.prefix_refl _, Nat.le_refl _, id⟩

theorem decWorks_trans (a b c : Decoder) (h : DecWorks a b) (k : DecWorks b c) : DecWorks a c :=
  ⟨k.running.trans h.running, k.err.trans h.err, k.ecode.trans h.ecode, h.pulled.trans k.pulled,
    h.asked.trans k.asked, fun hc => k.count (h.count hc)⟩

/-- A write of the result registers alone, with a canonical RBUF. -/
theorem decWorks_result (d : Decoder) (valid : Bool) (kind : BitVec 3) (len : BitVec 15) (v : Word) (m : Memory)
    (hm : Memory.wf d.rbuf = true → Memory.wf m = true) :
    DecWorks d { d with rvalid := valid, rkind := kind, rlen := len, rint := v, rbuf := m } :=
  ⟨rfl, rfl, rfl, List.prefix_refl _, Nat.le_refl _, fun h => { h with rbuf_wf := hm h.rbuf_wf }⟩

theorem ofNat_pred_add_one (n k : Nat) (h : 1 ≤ k) (hk : k ≤ n) :
    BitVec.ofNat 32 (n - k) + 1 = BitVec.ofNat 32 (n - (k - 1)) := by
  have hn : n - (k - 1) = n - k + 1 := by omega
  rw [hn, BitVec.ofNat_add]
  rfl

/-- A bit of CUR is consumed and counted (R98). -/
theorem streamCount_pending {d : Decoder} (h : StreamCount d) (hn : d.nbits ≠ 0) :
    StreamCount { d with nbits := d.nbits - 1, bitcnt := d.bitcnt + 1 } := by
  have hone : 1 ≤ d.nbits.toNat := by bv_omega
  have hpred : (d.nbits - 1).toNat = d.nbits.toNat - 1 := by bv_omega
  have hcovers := h.pulled_covers
  refine { h with pulled_covers := ?_, bitcnt_eq := ?_ }
  · simp only [hpred]; omega
  · simp only [hpred, h.bitcnt_eq]
    exact ofNat_pred_add_one _ _ hone hcovers

/-- A byte is pulled and its first bit consumed (R98). -/
theorem streamCount_pulls {d : Decoder} (h : StreamCount d) (hn : d.nbits = 0) {b : Byte}
    (ha : d.source.answer = .data b) :
    StreamCount { d with source := d.source.pull, cur := b, nbits := 7, bitcnt := d.bitcnt + 1 } := by
  have hbase := h.base_le
  have hlen : d.source.pull.pulled.length = d.source.pulled.length + 1 := by simp [pull_pulled_data _ b ha]
  have hcount : 8 * (d.source.pulled.length + 1 - d.inBase) - 7 = 8 * (d.source.pulled.length - d.inBase) + 1 := by
    omega
  refine { h with base_le := ?_, pulled_covers := ?_, bitcnt_eq := ?_ }
  · simp only [hlen]; omega
  · simp only [hlen]
    change 7 ≤ _
    omega
  · have h7 : (7 : BitVec 3).toNat = 7 := rfl
    simp only [hlen, h7, hcount, h.bitcnt_eq, hn, BitVec.ofNat_add]
    rfl

/-- A failed Pull consumes nothing (R98). -/
theorem streamCount_fails {d : Decoder} (h : StreamCount d) (ha : d.source.answer = .fail) :
    StreamCount { d with source := d.source.pull } := by
  constructor <;> simp only [pull_pulled_fail _ ha]
  exacts [h.base_le, h.pulled_covers, h.bitcnt_eq, h.rbuf_wf]

/-- DecAlign counts the bits of CUR it discards (R100). -/
theorem streamCount_aligned {d : Decoder} (h : StreamCount d) :
    StreamCount { d with bitcnt := d.bitcnt + d.nbits.setWidth 32, nbits := 0 } := by
  have hcovers := h.pulled_covers
  refine { h with pulled_covers := Nat.zero_le _, bitcnt_eq := ?_ }
  have hwidth : d.nbits.setWidth 32 = BitVec.ofNat 32 d.nbits.toNat := by
    apply BitVec.eq_of_toNat_eq; simp
  simp only [h.bitcnt_eq, hwidth, ← BitVec.ofNat_add]
  congr 1
  exact Nat.sub_add_cancel hcovers

theorem getBit_works : DecKeeps DecWorks getBit := by
  intro d
  rcases getBit_cases d with ⟨hn, h⟩ | ⟨hn, b, ha, h⟩ | ⟨-, ha, h⟩ <;> simp only [h]
  · exact ⟨rfl, rfl, rfl, List.prefix_refl _, Nat.le_refl _, fun hc => streamCount_pending hc hn⟩
  · exact ⟨rfl, rfl, rfl, pull_prefix _, Nat.le_succ _, fun hc => streamCount_pulls hc hn ha⟩
  · exact ⟨rfl, rfl, rfl, pull_prefix _, Nat.le_succ _, fun hc => streamCount_fails hc ha⟩

theorem decAlignBits_works : DecKeeps DecWorks decAlignBits := fun _ =>
  ⟨rfl, rfl, rfl, List.prefix_refl _, Nat.le_refl _, streamCount_aligned⟩

/-! ### Every DEC Body is made of such pieces -/

/-- x is a piece of a DEC Body: however it ends, `DecWorks` holds from the channel before it to the channel after. -/
structure DecPiece {α : Type} (x : DecM α) : Prop where
  works : DecKeeps DecWorks x

theorem decPiece_pure {α : Type} (a : α) : DecPiece (pure a) := ⟨decKeeps_pure decWorks_refl a⟩

theorem decPiece_bind {α β : Type} {x : DecM α} {f : α → DecM β} (hx : DecPiece x) (hf : ∀ a, DecPiece (f a)) :
    DecPiece (x >>= f) := ⟨decKeeps_bind decWorks_trans hx.works fun a => (hf a).works⟩

theorem decPiece_getBits (n : Nat) : DecPiece (getBits n) :=
  ⟨decKeeps_getBitsFrom decWorks_refl decWorks_trans getBit_works n 0⟩

theorem decPiece_codeDec (t : CodeTable) : DecPiece (codeDec t) :=
  ⟨decKeeps_codeDecFrom decWorks_refl decWorks_trans getBit_works t _ _ _⟩

theorem decPiece_readText {next : DecM (Option Byte)} (hn : DecPiece next) (room n : Nat) :
    DecPiece (readText next room n) :=
  ⟨decKeeps_readText decWorks_refl decWorks_trans hn.works
    (fun n b d => decWorks_result d _ _ _ _ _ (memory_wf_write d.rbuf n b)) room n⟩

theorem decPiece_nextAsciiByte : DecPiece nextAsciiByte :=
  decPiece_bind (decPiece_codeDec _) fun _ => decPiece_pure _

theorem decPiece_nextUtf8Byte : DecPiece nextUtf8Byte :=
  decPiece_bind (decPiece_codeDec _) fun _ => decPiece_pure _

theorem decPiece_nextRawByte : DecPiece nextRawByte :=
  decPiece_bind (decPiece_getBits 8) fun _ => decPiece_pure _

theorem decPiece_readIntBody : DecPiece readIntBody := by
  have choice (x y : DecM Word) (hx : DecPiece x) (hy : DecPiece y) :
      DecPiece (do if !(← getBit) then x else y) :=
    decPiece_bind ⟨getBit_works⟩ fun b => by cases b <;> assumption
  exact choice _ _ (decPiece_getBits 4) <| choice _ _ (decPiece_getBits 8) <|
    choice _ _ (decPiece_getBits 16) (decPiece_getBits 32)

theorem decPiece_setTextResult (kind : BitVec 3) (n : Nat) : DecPiece (setTextResult kind n) :=
  ⟨fun d => decWorks_result d _ _ _ _ _ (memory_wf_truncate d.rbuf n)⟩

theorem decPiece_setIntResult (v : Word) : DecPiece (setIntResult v) :=
  ⟨fun d => decWorks_result d _ _ _ _ _ (memory_wf_truncate d.rbuf 0)⟩

theorem decPiece_setFieldResult (v : Word) : DecPiece (setFieldResult v) :=
  ⟨fun d => decWorks_result d _ _ _ _ _ (memory_wf_truncate d.rbuf 0)⟩

theorem decPiece_getBitsBody (n : Nat) : DecPiece (getBitsBody n) :=
  decPiece_bind (decPiece_getBits n) decPiece_setFieldResult

theorem decPiece_valueBody (resMax : Nat) : DecPiece (valueBody resMax) := by
  refine decPiece_bind (decPiece_codeDec _) fun tag => ?_
  split
  · exact decPiece_bind (decPiece_readText decPiece_nextAsciiByte _ _) (decPiece_setTextResult 0)
  · split
    · exact decPiece_bind (decPiece_readText decPiece_nextUtf8Byte _ _) (decPiece_setTextResult 1)
    · split
      · exact decPiece_bind (decPiece_readText decPiece_nextRawByte _ _) (decPiece_setTextResult 2)
      · split
        · exact decPiece_bind decPiece_readIntBody decPiece_setIntResult
        · exact ⟨decKeeps_throw decWorks_refl _⟩

/-! ### One run -/

/-- Everything DEC's turn with the word w can make of the channel d; `decEffect_run` and `runDecoder_cases` tie it to
`exec` and to the turn. -/
inductive DecRun (p : Params) (w : Word) (d : Decoder) : Decoder → Prop
  | reset (hw : w = 0x0000000F#32) : DecRun p w d d.channelReset.finish
  | illegal : DecRun p w d d.illegal.finish
  | inert (herr : d.err = true) : DecRun p w d d.clearResult.finish
  | done (herr : d.err = false) (d' : Decoder) (hworks : DecWorks d d')
      (hfits : p.resMax ≤ 16384 → ResultFits p.resMax d → ResultFits p.resMax d') : DecRun p w d d'.finish
  | raised (herr : d.err = false) (c : ErrorCode) (d' : Decoder) (hworks : DecWorks d d')
      (hc : p.resMax ≤ 16384 → c = .io ∨ c = .capacity) : DecRun p w d (d'.raise c).finish

/-- A frame around a Body that is a piece and answers with fitting result registers. -/
theorem decFrame_run (p : Params) (w : Word) (legal : Bool) {body : DecM Unit} (hb : DecPiece body)
    (he : p.resMax ≤ 16384 → DecEnds (fun _ d => ResultFits p.resMax d) body) (d : Decoder) :
    DecRun p w d (decFrame legal body d) := by
  have hworks := hb.works d
  rcases decFrame_cases legal body d with ⟨-, h⟩ | ⟨-, herr, h⟩ | ⟨-, herr, d', ho, h⟩ | ⟨-, herr, c, d', ho, h⟩ <;>
    rw [h]
  · exact .illegal
  · exact .inert herr
  · exact .done herr d' (by simpa only [ho] using hworks)
      fun hp _ => by simpa only [ho] using (he hp).ends d
  · exact .raised herr c d' (by simpa only [ho] using hworks)
      fun hp => by simpa only [ho] using (he hp).ends d

/-- DEC.ALIGN keeps the result registers (R105). -/
theorem decAlign_run (p : Params) (w : Word) (d : Decoder) : DecRun p w d (decFrame true decAlignBits d) := by
  rcases decFrame_cases true decAlignBits d with ⟨hl, -⟩ | ⟨-, herr, h⟩ | ⟨-, herr, d', ho, h⟩ | ⟨-, -, c, d', ho, -⟩
  · cases hl
  · exact h ▸ .inert herr
  · cases ho
    exact h ▸ .done herr _ (decAlignBits_works d) fun _ hf => { hf with }
  · cases ho

/-- Every DEC command is a run of its word. -/
theorem decEffect_run (p : Params) (d : Decoder) :
    ∀ i : Instr, i.channel = .dec → DecRun p (encode i) d (decEffect p d i)
  | .decValue, _ => decFrame_run p _ true (decPiece_valueBody _) decEnds_valueBody d
  | .decGetbits _, _ => decFrame_run p _ _ (decPiece_getBitsBody _) (fun _ => decEnds_getBitsBody _ _) d
  | .decAlign, _ => decAlign_run p _ d
  | .decReset, _ => .reset rfl

theorem decIllegal_source (d : Decoder) : d.illegal.source = d.source := by
  rcases decIllegal_cases d with ⟨-, h⟩ | ⟨-, h⟩ <;> rw [h] <;> rfl

/-- A run pulls on: what was pulled stays, in order. -/
theorem DecRun.pulls {p : Params} {w : Word} {d d' : Decoder} (h : DecRun p w d d') :
    d.source.pulled <+: d'.source.pulled ∧ d.source.asked ≤ d'.source.asked := by
  cases h with
  | reset hw => exact ⟨List.prefix_refl _, Nat.le_refl _⟩
  | illegal => simp [decIllegal_source]
  | inert herr => exact ⟨List.prefix_refl _, Nat.le_refl _⟩
  | done herr d' hworks hfits => exact ⟨hworks.pulled, hworks.asked⟩
  | raised herr c d' hworks hc => exact ⟨hworks.pulled, hworks.asked⟩

theorem DecRun.running {p : Params} {w : Word} {d d' : Decoder} (h : DecRun p w d d') : d'.running = none := by
  cases h <;> rfl

/-- DEC.ALIGN and DEC.RESET ask SOURCE nothing (R105, R106). -/
theorem decEffect_source (p : Params) (d : Decoder) (i : Instr) (h : i = .decAlign ∨ i = .decReset) :
    (decEffect p d i).source = d.source := by
  rcases h with rfl | rfl
  · cases herr : d.err <;> simp [decEffect, decFrame, decAlignBits, Decoder.runBody, herr]
  · rfl

/-- Settles O27: the frame of a run, and the two commands without a Pull. -/
theorem decCommandFrame : Obligations.DecCommandFrame := by
  intro i s hc
  have hrun := decEffect_run s.params s.dec i hc
  exact ⟨_, exec_eq_setDec s i hc, hrun.running, hrun.pulls.1, hrun.pulls.2, decEffect_source s.params s.dec i⟩

end Sys2Proof.Machine
end

section
/-! What one step can do to each channel (00_scope.md R5, R16, 70_reset_and_hazards.md R163 to R167), said once:
nothing, a host write, one run of the command word, or a block reset; and the statements about errors that follow. -/

namespace Sys2Proof.Machine

/-! ### Decoded words -/

/-- A word with RSV = 0 is the word of its other two fields (R72). -/
theorem commandWord_fields {w : Word} (h : rsvField w = 0) : commandWord (opField w) (nField w) = w := by
  have hrsv : (0 : BitVec 18) = w.extractLsb' 14 18 := h.symm
  rw [commandWord, hrsv, opField, nField,
    BitVec.extractLsb'_append_extractLsb'_eq_extractLsb' (start₂ := 14) (start₁ := 8) (len₁ := 6) rfl,
    BitVec.extractLsb'_append_extractLsb'_eq_extractLsb' (start₂ := 8) (start₁ := 0) (len₁ := 8) rfl]
  exact BitVec.extractLsb'_eq_self

theorem encode_encOpcode {op : Byte} {i : Instr} (h : encOpcode op = some i) :
    i.channel = .enc ∧ encode i = commandWord op 0 := by
  unfold encOpcode at h
  repeat' split at h
  all_goals cases h
  all_goals exact ⟨rfl, by subst op; rfl⟩

theorem encode_decOpcode {op : Byte} {i : Instr} (h : decOpcode op = some i) :
    i.channel = .dec ∧ encode i = commandWord op 0 := by
  unfold decOpcode at h
  repeat' split at h
  all_goals cases h
  all_goals exact ⟨rfl, by subst op; rfl⟩

/-- A word that decodes is the encoding of the command, which is its channel's (R73, R74). -/
theorem encode_of_decode {ch : Channel} {w : Word} {i : Instr} (h : decode ch w = .ok i) :
    i.channel = ch ∧ encode i = w := by
  unfold decode at h
  split at h
  · cases h
  · rename_i hrsv
    have hw := commandWord_fields (not_not.mp hrsv)
    split at h
    · rename_i hop
      rw [hop] at hw
      cases ch <;> cases h <;> exact ⟨rfl, hw⟩
    · split at h
      · cases h
      · rename_i hn
        rw [not_not.mp hn] at hw
        split at h
        · rename_i i' hi
          cases h
          cases ch
          · exact hw ▸ encode_encOpcode hi
          · exact hw ▸ encode_decOpcode hi
        · cases h

/-! ### Turns -/

/-- Everything ENC's turn can do (R93). -/
theorem runEncoder_cases (s : State) :
    (s.enc.running = none ∧ s.runEncoder = .next s) ∨
    ∃ w e', s.enc.running = some w ∧ EncRun w s.enc e' ∧ s.runEncoder = .next (s.setEnc e') := by
  unfold State.runEncoder
  cases hr : s.enc.running with
  | none => exact .inl ⟨rfl, rfl⟩
  | some w =>
    cases hd : decode .enc w with
    | error x => exact .inr ⟨w, _, rfl, .illegal, by simp only [hd, encIllegalFrame]⟩
    | ok i =>
      obtain ⟨hc, hw⟩ := encode_of_decode hd
      exact .inr ⟨w, _, rfl, hw ▸ encEffect_run s.params s.enc i hc, by simp only [hd, exec_eq_setEnc s i hc]⟩

/-- Everything DEC's turn can do (R93). -/
theorem runDecoder_cases (s : State) :
    (s.dec.running = none ∧ s.runDecoder = .next s) ∨
    ∃ w d', s.dec.running = some w ∧ DecRun s.params w s.dec d' ∧ s.runDecoder = .next (s.setDec d') := by
  unfold State.runDecoder
  cases hr : s.dec.running with
  | none => exact .inl ⟨rfl, rfl⟩
  | some w =>
    cases hd : decode .dec w with
    | error x => exact .inr ⟨w, _, rfl, .illegal, by simp only [hd, decIllegalFrame]⟩
    | ok i =>
      obtain ⟨hc, hw⟩ := encode_of_decode hd
      exact .inr ⟨w, _, rfl, hw ▸ decEffect_run s.params s.dec i hc, by simp only [hd, exec_eq_setDec s i hc]⟩

/-- A command abandoned by block reset leaves SINK what it had accepted (R167). -/
theorem abandonedSink_keeps (s : State) (k : Nat) : s.enc.sink.accepted <+: (s.abandonedSink k).accepted := by
  unfold State.abandonedSink
  rcases runEncoder_cases s with ⟨-, h⟩ | ⟨w, e', -, hrun, h⟩ <;> rw [h]
  · exact sinkCut_keeps _ _ k (List.prefix_refl _)
  · exact sinkCut_keeps _ _ k hrun.frame.accepted

/-- A command abandoned by block reset leaves DEC what it had pulled (R167). -/
theorem abandonedSource_keeps (s : State) (k : Nat) : s.dec.source.pulled <+: (s.abandonedSource k).pulled := by
  unfold State.abandonedSource
  rcases runDecoder_cases s with ⟨-, h⟩ | ⟨w, d', -, hrun, h⟩ <;> rw [h]
  · exact sourceCut_keeps _ _ k (List.prefix_refl _)
  · exact sourceCut_keeps _ _ k hrun.pulls.1

/-- The accesses that race with a block reset are reads (U8). -/
theorem racing_read {s : State} {op : HostOp} (h : s.racing op = true) : ∃ r, op = .read r := by
  simp only [State.racing, Bool.and_eq_true, Bool.or_eq_true, decide_eq_true_eq] at h
  rcases h.2 with rfl | rfl <;> exact ⟨_, rfl⟩

/-- t differs from s in the host side and the counter of free values alone. -/
structure SameBlock (s t : State) : Prop where
  params : t.params = s.params
  enc : t.enc = s.enc
  dec : t.dec = s.dec
  schedule : t.schedule = s.schedule

/-- Reads change no register (R44). -/
theorem foldl_performOp_reads (ops : List HostOp) (hr : ∀ op ∈ ops, ∃ r, op = .read r) (s : State) :
    SameBlock s (ops.foldl State.performOp s) := by
  induction ops generalizing s with
  | nil => exact ⟨rfl, rfl, rfl, rfl⟩
  | cons op ops ih =>
    obtain ⟨r, rfl⟩ := hr op List.mem_cons_self
    exact { ih (fun x hx => hr x (List.mem_cons_of_mem _ hx)) (s.answerRead r) with }

theorem answerRacing_sameBlock (s : State) : SameBlock s s.answerRacing :=
  { foldl_performOp_reads (s.host.queue.filter s.racing) (fun _ hx => racing_read (List.mem_filter.mp hx).2)
      { s with host := { s.host with queue := s.host.queue.filter (fun op => !s.racing op) } } with }

/-- What block reset leaves: both channels fresh, around what SINK and SOURCE have exchanged (R46, R167). -/
theorem blockReset_spec (s : State) (p q : Nat) (race : Bool) :
    ∃ k n src, s.enc.sink.accepted <+: k.accepted ∧ s.dec.source.pulled <+: src.pulled ∧
      (s.blockReset p q race).enc = Encoder.fresh k n ∧ (s.blockReset p q race).dec = Decoder.fresh src ∧
      (s.blockReset p q race).params = s.params ∧ (s.blockReset p q race).schedule = s.schedule := by
  have hsame : SameBlock s (if race then s.answerRacing else s) := by
    cases race
    · exact ⟨rfl, rfl, rfl, rfl⟩
    · exact answerRacing_sameBlock s
  unfold State.blockReset
  exact ⟨_, _, _, hsame.enc ▸ abandonedSink_keeps _ p, hsame.dec ▸ abandonedSource_keeps _ q, rfl, rfl,
    hsame.params, hsame.schedule⟩

/-- Settles O51: every field of the fresh channels. -/
theorem blockResetGivesTheResetRegisters : Obligations.BlockResetGivesTheResetRegisters := by
  intro s p q r rest hs
  obtain ⟨k, n, src, hk, hsrc, henc, hdec, hparams, hsched⟩ := blockReset_spec { s with schedule := rest } p q r
  refine ⟨_, by simp only [step, State.advance, hs]; rfl, ?_⟩
  simp [henc, hdec, hparams, hsched, hk, hsrc]

/-! ### The moves of a channel -/

/-- The TBUF cells m' are canonical (R36) and below n where m are. -/
def KeepsTbuf (n : Nat) (m m' : Memory) : Prop :=
  (Memory.wf m = true → Memory.wf m' = true) ∧ ((∀ c ∈ m, c.1 < n) → ∀ c ∈ m', c.1 < n)

/-- Everything one step from s can make of ENC: a host write, or none, of BUSY and the operands; a run; a reset. -/
inductive EncMoves (s : State) : Encoder → Prop
  | written (run : Option Word) (arg : Word) (tlen : BitVec 15) (m : Memory)
      (hm : KeepsTbuf s.params.txtMax s.enc.tbuf m) :
      EncMoves s { s.enc with running := run, arg := arg, tlen := tlen, tbuf := m }
  | ran (rest : List Turn) (w : Word) (e' : Encoder) (hs : s.schedule = .enc :: rest) (hw : s.enc.running = some w)
      (hrun : EncRun w s.enc e') : EncMoves s e'
  | blockReset (p q : Nat) (race : Bool) (rest : List Turn) (hs : s.schedule = .blockReset p q race :: rest)
      (k : Sink) (n : Nat) : EncMoves s (Encoder.fresh k n)

/-- Everything one step from s can make of DEC: a host write, or none, of BUSY; a run; a reset. -/
inductive DecMoves (s : State) : Decoder → Prop
  | written (run : Option Word) : DecMoves s { s.dec with running := run }
  | ran (rest : List Turn) (w : Word) (d' : Decoder) (hs : s.schedule = .dec :: rest) (hw : s.dec.running = some w)
      (hrun : DecRun s.params w s.dec d') : DecMoves s d'
  | blockReset (p q : Nat) (race : Bool) (rest : List Turn) (hs : s.schedule = .blockReset p q race :: rest)
      (src : Source) : DecMoves s (Decoder.fresh src)

theorem encMoves_kept (s : State) : EncMoves s s.enc :=
  .written s.enc.running s.enc.arg s.enc.tlen s.enc.tbuf ⟨id, id⟩

theorem decMoves_kept (s : State) : DecMoves s s.dec := .written s.dec.running

/-- t is a state one step from s can lead to, channel by channel. -/
structure StepMoves (s t : State) : Prop where
  params : t.params = s.params
  enc : EncMoves s t.enc
  dec : DecMoves s t.dec

/-! ### Host accesses -/

theorem tbufWrite_eq (e : Encoder) (n i : Nat) (b : Byte) :
    ∃ m, e.tbufWrite n i b = { e with tbuf := m } ∧ KeepsTbuf n e.tbuf m := by
  by_cases h : n ≤ i
  · exact ⟨e.tbuf, if_pos h, id, id⟩
  · refine ⟨e.tbuf.write i b, if_neg h, memory_wf_write e.tbuf i b, fun hb c hc => ?_⟩
    rcases memory_mem_write e.tbuf i b c hc with rfl | hc
    · exact Nat.lt_of_not_le h
    · exact hb c hc

/-- A write of one word of the TBUF window changes TBUF alone (R36). -/
theorem tbufWriteWord_eq (e : Encoder) (n k : Nat) (v : Word) :
    ∃ m, e.tbufWriteWord n k v = { e with tbuf := m } ∧ KeepsTbuf n e.tbuf m := by
  obtain ⟨m₀, h₀, k₀⟩ := tbufWrite_eq e n (4 * k) (v.extractLsb' 0 8)
  obtain ⟨m₁, h₁, k₁⟩ := tbufWrite_eq { e with tbuf := m₀ } n (4 * k + 1) (v.extractLsb' 8 8)
  obtain ⟨m₂, h₂, k₂⟩ := tbufWrite_eq { e with tbuf := m₁ } n (4 * k + 2) (v.extractLsb' 16 8)
  obtain ⟨m₃, h₃, k₃⟩ := tbufWrite_eq { e with tbuf := m₂ } n (4 * k + 3) (v.extractLsb' 24 8)
  refine ⟨m₃, ?_, fun h => k₃.1 (k₂.1 (k₁.1 (k₀.1 h))), fun h => k₃.2 (k₂.2 (k₁.2 (k₀.2 h)))⟩
  simp only [Encoder.tbufWriteWord, h₀, h₁, h₂, h₃]

theorem regWrite_moves (s : State) (r : Reg) (v : Word) : StepMoves s (s.regWrite r v) := by
  rcases regWrite_cases s r v with h | ⟨-, h⟩ | ⟨-, h⟩ | ⟨-, h⟩ | ⟨k, -, h⟩ | ⟨-, h⟩ <;> rw [h]
  · exact ⟨rfl, encMoves_kept s, decMoves_kept s⟩
  · exact ⟨rfl, .written _ _ _ _ ⟨id, id⟩, decMoves_kept s⟩
  · exact ⟨rfl, .written _ _ _ _ ⟨id, id⟩, decMoves_kept s⟩
  · exact ⟨rfl, .written _ _ _ _ ⟨id, id⟩, decMoves_kept s⟩
  · obtain ⟨m, hw, hm⟩ := tbufWriteWord_eq s.enc s.params.txtMax k v
    exact ⟨rfl, by rw [hw]; exact .written _ _ _ m hm, decMoves_kept s⟩
  · exact ⟨rfl, encMoves_kept s, .written _⟩

/-- What a register write makes of the channels depends on the channels and the parameters alone. -/
theorem regWrite_congr {s u : State} (hp : u.params = s.params) (he : u.enc = s.enc) (hd : u.dec = s.dec) (r : Reg)
    (v : Word) : (u.regWrite r v).params = s.params ∧ (u.regWrite r v).enc = (s.regWrite r v).enc ∧
      (u.regWrite r v).dec = (s.regWrite r v).dec := by
  cases r <;> simp [State.regWrite, hp, he, hd]

theorem performOp_moves (s u : State) (hp : u.params = s.params) (he : u.enc = s.enc) (hd : u.dec = s.dec)
    (op : HostOp) : StepMoves s (u.performOp op) := by
  cases op with
  | read r => exact ⟨hp, he ▸ encMoves_kept s, hd ▸ decMoves_kept s⟩
  | write r v =>
    obtain ⟨hp', he', hd'⟩ := regWrite_congr hp he hd r v
    have hmoves := regWrite_moves s r v
    exact ⟨hp', he' ▸ hmoves.enc, hd' ▸ hmoves.dec⟩

/-! ### One step -/

/-- Everything one step can do to the channels. -/
theorem step_moves {s t : State} (h : step s = .next t) : StepMoves s t := by
  unfold step State.advance at h
  split at h
  case h_1 hs =>
    cases h
    exact ⟨rfl, encMoves_kept s, decMoves_kept s⟩
  case h_2 turn rest hs =>
    cases turn with
    | issue a =>
      rcases issue_cases { s with schedule := rest } a with hi | hi | hi | ⟨off, -, -, -, hi⟩ <;>
        cases hi.symm.trans h
      exact ⟨rfl, encMoves_kept s, decMoves_kept s⟩
    | bus =>
      cases h
      rcases serveBus_cases { s with schedule := rest } with ⟨-, hb⟩ | ⟨before, after, op, -, -, -, hb⟩ <;> rw [hb]
      · exact ⟨rfl, encMoves_kept s, decMoves_kept s⟩
      · exact performOp_moves s _ (by rfl) (by rfl) (by rfl) op
    | enc =>
      rcases runEncoder_cases { s with schedule := rest } with ⟨-, he⟩ | ⟨w, e', hw, hrun, he⟩ <;>
        cases he.symm.trans h
      · exact ⟨rfl, encMoves_kept s, decMoves_kept s⟩
      · exact ⟨rfl, .ran rest w e' hs hw hrun, decMoves_kept s⟩
    | dec =>
      rcases runDecoder_cases { s with schedule := rest } with ⟨-, hd⟩ | ⟨w, d', hw, hrun, hd⟩ <;>
        cases hd.symm.trans h
      · exact ⟨rfl, encMoves_kept s, decMoves_kept s⟩
      · exact ⟨rfl, encMoves_kept s, .ran rest w d' hs hw hrun⟩
    | blockReset p q race =>
      cases h
      obtain ⟨k, n, src, -, -, henc, hdec, hparams, -⟩ := blockReset_spec { s with schedule := rest } p q race
      exact ⟨hparams, henc ▸ .blockReset p q race rest hs k n, hdec ▸ .blockReset p q race rest hs src⟩

/-! ### Errors -/

/-- A run of an errored ENC is RESET, or it keeps the error (R94, R156). -/
theorem EncRun.errored {w : Word} {e e' : Encoder} (h : EncRun w e e') (herr : e.err = true) :
    w = 0x0000000F#32 ∧ e'.err = false ∨ e'.err = true ∧ e'.ecode = e.ecode := by
  cases h with
  | reset hw => exact .inl ⟨hw, rfl⟩
  | illegal => exact .inr (by simp [Encoder.illegal, herr])
  | inert _ => exact .inr ⟨herr, rfl⟩
  | done hno => simp [herr] at hno
  | raised hno => simp [herr] at hno

/-- A run of an errored DEC is RESET, or it keeps the error (R94, R156). -/
theorem DecRun.errored {p : Params} {w : Word} {d d' : Decoder} (h : DecRun p w d d') (herr : d.err = true) :
    w = 0x0000000F#32 ∧ d'.err = false ∨ d'.err = true ∧ d'.ecode = d.ecode := by
  cases h with
  | reset hw => exact .inl ⟨hw, rfl⟩
  | illegal => exact .inr (by simp [Decoder.illegal, herr])
  | inert _ => exact .inr ⟨herr, rfl⟩
  | done hno => simp [herr] at hno
  | raised hno => simp [herr] at hno

/-- A step from an errored ENC is a block reset or ENC's RESET, which clear the error, or it keeps the error. -/
theorem EncMoves.errored {s : State} {e' : Encoder} (h : EncMoves s e') (herr : s.enc.err = true) :
    (e'.err = false ∧ ((∃ p q r rest, s.schedule = .blockReset p q r :: rest) ∨
      ∃ rest, s.schedule = .enc :: rest ∧ s.enc.running = some 0x0000000F#32)) ∨
    (e'.err = true ∧ e'.ecode = s.enc.ecode) := by
  cases h with
  | written => exact .inr ⟨herr, rfl⟩
  | ran rest w e' hs hw hrun =>
    rcases hrun.errored herr with ⟨rfl, hno⟩ | hkept
    · exact .inl ⟨hno, .inr ⟨rest, hs, hw⟩⟩
    · exact .inr hkept
  | blockReset p q r rest hs => exact .inl ⟨rfl, .inl ⟨p, q, r, rest, hs⟩⟩

/-- A step from an errored DEC is a block reset or DEC's RESET, which clear the error, or it keeps the error. -/
theorem DecMoves.errored {s : State} {d' : Decoder} (h : DecMoves s d') (herr : s.dec.err = true) :
    (d'.err = false ∧ ((∃ p q r rest, s.schedule = .blockReset p q r :: rest) ∨
      ∃ rest, s.schedule = .dec :: rest ∧ s.dec.running = some 0x0000000F#32)) ∨
    (d'.err = true ∧ d'.ecode = s.dec.ecode) := by
  cases h with
  | written => exact .inr ⟨herr, rfl⟩
  | ran rest w d' hs hw hrun =>
    rcases hrun.errored herr with ⟨rfl, hno⟩ | hkept
    · exact .inl ⟨hno, .inr ⟨rest, hs, hw⟩⟩
    · exact .inr hkept
  | blockReset p q r rest hs => exact .inl ⟨rfl, .inl ⟨p, q, r, rest, hs⟩⟩

/-- Settles O29: of the moves of an errored channel only the two resets end with ERR = 0. -/
theorem onlyResetsClearAnError : Obligations.OnlyResetsClearAnError := by
  intro s t h
  have hmoves := step_moves h
  refine ⟨fun herr hno => ?_, fun herr hno => ?_⟩
  · rcases hmoves.enc.errored herr with ⟨-, hreset⟩ | ⟨hkept, -⟩
    · exact hreset
    · simp [hno] at hkept
  · rcases hmoves.dec.errored herr with ⟨-, hreset⟩ | ⟨hkept, -⟩
    · exact hreset
    · simp [hno] at hkept

/-- Settles O30: a move of an errored channel that ends with ERR = 1 kept the error as it was. -/
theorem firstErrorCodeIsKept : Obligations.FirstErrorCodeIsKept := by
  intro s t h
  have hmoves := step_moves h
  refine ⟨fun herr hstill => ?_, fun herr hstill => ?_⟩
  · rcases hmoves.enc.errored herr with ⟨hno, -⟩ | ⟨-, hcode⟩
    · simp [hstill] at hno
    · exact hcode
  · rcases hmoves.dec.errored herr with ⟨hno, -⟩ | ⟨-, hcode⟩
    · simp [hstill] at hno
    · exact hcode

end Sys2Proof.Machine
end

section
/-! The invariant of both channels' registers (10_state.md R21, R25, R27 to R29, R40, R43): every move of a channel
keeps its part. -/

namespace Sys2Proof.Machine

/-! ### The encoder's part -/

/-- A bit joins ACC (R21). -/
theorem acc_shift_lt (acc : BitVec 7) (b : Bool) (n : Nat) (h : acc.toNat < 2 ^ n) :
    ((acc <<< 1) ||| (BitVec.ofBool b).setWidth 7).toNat < 2 ^ (n + 1) := by
  have hshift : (acc <<< 1).toNat < 2 ^ (n + 1) := by
    rw [BitVec.toNat_shiftLeft, Nat.shiftLeft_eq, pow_succ]
    exact (Nat.mod_le _ _).trans_lt (by omega)
  have hbit : ((BitVec.ofBool b).setWidth 7).toNat < 2 ^ (n + 1) := by
    have hle : ((BitVec.ofBool b).setWidth 7).toNat < 2 := by cases b <;> decide
    exact hle.trans_le (Nat.le_self_pow (by omega) 2)
  rw [BitVec.toNat_or]
  exact Nat.or_lt_two_pow hshift hbit

/-- ACC has room for the bit (R95). -/
theorem encoderInv_room {p : Params} {e : Encoder} (h : EncoderInv p e) (hn : e.nbits ≠ 7) (b : Bool) :
    EncoderInv p { e with
      bitcnt := e.bitcnt + 1, acc := (e.acc <<< 1) ||| (BitVec.ofBool b).setWidth 7, nbits := e.nbits + 1 } := by
  have hsucc : (e.nbits + 1).toNat = e.nbits.toNat + 1 := by bv_omega
  refine { h with acc_above_zero := ?_, bitcnt_eq := fun herr => ?_ }
  · simp only [hsucc]
    exact acc_shift_lt e.acc b e.nbits.toNat h.acc_above_zero
  · simp only [hsucc, h.bitcnt_eq herr, ← Nat.add_assoc]
    exact (BitVec.ofNat_add _ 1).symm

/-- The bit completes a byte and SINK accepts it (R95). -/
theorem encoderInv_accepted {p : Params} {e : Encoder} (h : EncoderInv p e) (hn : e.nbits = 7)
    (ha : e.sink.answer = .ok) (byte : Byte) :
    EncoderInv p { e with bitcnt := e.bitcnt + 1, acc := 0, nbits := 0, sink := e.sink.push byte } := by
  have hbase := h.base_le
  have hlen : (e.sink.push byte).accepted.length = e.sink.accepted.length + 1 := by
    simp [push_accepted_ok _ byte ha]
  have hcount : 8 * (e.sink.accepted.length + 1 - e.outBase) + 0 =
      8 * (e.sink.accepted.length - e.outBase) + 7 + 1 := by omega
  refine { h with acc_above_zero := Nat.zero_lt_one, base_le := ?_, bitcnt_eq := fun herr => ?_ }
  · simp only [hlen]; omega
  · have h7 : e.nbits.toNat = 7 := by rw [hn]; rfl
    have h0 : (0 : BitVec 3).toNat = 0 := rfl
    simp only [hlen, h0, hcount, h.bitcnt_eq herr, h7]
    exact (BitVec.ofNat_add _ 1).symm

/-- The bit completes a byte and SINK refuses it: the count no longer matches, and IO is recorded (R151, R154). -/
theorem encoderInv_refused {p : Params} {e : Encoder} (h : EncoderInv p e) (ha : e.sink.answer = .fail) (byte : Byte) :
    EncoderInv p (Encoder.raise
      { e with bitcnt := e.bitcnt + 1, acc := 0, nbits := 0, sink := e.sink.push byte } .io) := by
  refine { h with code_known := .inr (.inl rfl), code_iff_err := ?_, acc_above_zero := Nat.zero_lt_one,
                  base_le := ?_, bitcnt_eq := fun herr => ?_ }
  · exact ⟨nofun, nofun⟩
  · simpa [push_accepted_fail _ byte ha] using h.base_le
  · cases herr

/-- Putting a bit string keeps the invariant, to its end or to the error its refused byte records. -/
theorem putBitString_encoderInv {p : Params} (bs : List Bool) {e : Encoder} (h : EncoderInv p e) :
    match putBitString bs e with
    | .ok _ e' => EncoderInv p e'
    | .error c e' => EncoderInv p (e'.raise c) := by
  induction bs generalizing e with
  | nil => exact h
  | cons b bs ih =>
    rw [putBitString_cons, encM_bind]
    rcases putBit_cases b e with ⟨hn, hb⟩ | ⟨hn, ha, hb⟩ | ⟨hn, ha, hb⟩ <;> simp only [hb]
    · exact ih (encoderInv_room h hn b)
    · exact ih (encoderInv_accepted h hn ha _)
    · exact encoderInv_refused h ha _

/-- A fresh stream: no error, no pending bit, no bit counted (R46, R103). -/
theorem encoderInv_newStream {p : Params} {e : Encoder} (herr : e.err = false) (hcode : e.ecode = 0) (hacc : e.acc = 0)
    (hnbits : e.nbits = 0) (hbitcnt : e.bitcnt = 0) (hbase : e.outBase = e.sink.accepted.length)
    (hwf : Memory.wf e.tbuf = true) (hbelow : ∀ c ∈ e.tbuf, c.1 < p.txtMax) : EncoderInv p e := by
  constructor <;> simp [herr, hcode, hacc, hnbits, hbitcnt, hbase, hwf]
  simpa using hbelow

theorem EncRun.encoderInv {p : Params} {w : Word} {e e' : Encoder} (hrun : EncRun w e e') (h : EncoderInv p e) :
    EncoderInv p e' := by
  cases hrun with
  | reset hw => exact encoderInv_newStream rfl rfl rfl rfl rfl rfl h.tbuf_wf h.tbuf_below
  | illegal =>
    rcases encIllegal_cases e with ⟨-, hi⟩ | ⟨-, hi⟩ <;> rw [hi]
    · exact { h with }
    · exact { h with code_known := .inr (.inr rfl), code_iff_err := ⟨nofun, nofun⟩, bitcnt_eq := nofun }
  | inert herr => exact { h with }
  | done herr bs e' hput => exact { (by simpa only [hput] using putBitString_encoderInv bs h : EncoderInv p e') with }
  | raised herr bs c e' hput =>
    exact { (by simpa only [hput] using putBitString_encoderInv bs h : EncoderInv p (e'.raise c)) with }

theorem EncMoves.encoderInv {s : State} {e' : Encoder} (hm : EncMoves s e') (h : EncoderInv s.params s.enc) :
    EncoderInv s.params e' := by
  cases hm with
  | written run arg tlen m hm => exact { h with tbuf_wf := hm.1 h.tbuf_wf, tbuf_below := hm.2 h.tbuf_below }
  | ran rest w e' hs hw hrun => exact hrun.encoderInv h
  | blockReset => exact encoderInv_newStream rfl rfl rfl rfl rfl rfl rfl nofun

/-! ### The decoder's part -/

/-- The decoder's part taken apart: the error registers, the result registers and the stream. -/
theorem decoderInv_iff (p : Params) (d : Decoder) :
    DecoderInv p d ↔
      ((d.ecode = 0 ∨ d.ecode = 1 ∨ d.ecode = 3 ∨ d.ecode = 4) ∧ (d.ecode = 0 ↔ d.err = false) ∧
        (d.err = true → d.rvalid = false)) ∧ ResultFits p.resMax d ∧ StreamCount d := by
  constructor
  · intro h
    exact ⟨⟨h.code_known, h.code_iff_err, h.err_no_result⟩, { h with }, { h with }⟩
  · rintro ⟨⟨hknown, hiff, hres⟩, hfits, hcount⟩
    exact { hfits, hcount with code_known := hknown, code_iff_err := hiff, err_no_result := hres }

/-- A raise of any code but PROTO (R154). -/
theorem decoderInv_raise {p : Params} {d : Decoder} {c : ErrorCode} (h : StreamCount d)
    (hc : c = .io ∨ c = .illegal ∨ c = .capacity) : DecoderInv p (d.raise c) := by
  refine (decoderInv_iff p _).mpr ⟨⟨?_, ?_, fun _ => rfl⟩, clearResult_fits _ _, { h with rbuf_wf := rfl }⟩
  · rcases hc with rfl | rfl | rfl <;> simp [ErrorCode.code]
  · rcases hc with rfl | rfl | rfl <;> simp [ErrorCode.code]

/-- Clearing the result keeps the invariant (R93). -/
theorem decoderInv_clearResult {p : Params} {d : Decoder} (h : DecoderInv p d) : DecoderInv p d.clearResult := by
  obtain ⟨⟨hknown, hiff, -⟩, -, hcount⟩ := (decoderInv_iff p d).mp h
  exact (decoderInv_iff p _).mpr ⟨⟨hknown, hiff, fun _ => rfl⟩, clearResult_fits _ _, { hcount with rbuf_wf := rfl }⟩

/-- A fresh stream: no error, no unconsumed bit, no bit counted, no result (R46, R106). -/
theorem decoderInv_newStream {p : Params} {d : Decoder} (herr : d.err = false) (hcode : d.ecode = 0)
    (hnbits : d.nbits = 0) (hbitcnt : d.bitcnt = 0) (hbase : d.inBase = d.source.pulled.length) :
    DecoderInv p d.clearResult := by
  refine (decoderInv_iff p _).mpr ⟨⟨.inl hcode, by simp [herr, hcode], fun _ => rfl⟩, clearResult_fits _ _, ?_⟩
  constructor <;> simp [hnbits, hbitcnt, hbase]

theorem DecRun.decoderInv {p : Params} {w : Word} {d d' : Decoder} (hrun : DecRun p w d d') (hp : p.resMax ≤ 16384)
    (h : DecoderInv p d) : DecoderInv p d' := by
  obtain ⟨⟨hknown, hiff, -⟩, hfits, hcount⟩ := (decoderInv_iff p d).mp h
  cases hrun with
  | reset hw => exact { decoderInv_newStream (p := p) (d := d.channelReset) rfl rfl rfl rfl rfl with }
  | illegal =>
    rcases decIllegal_cases d with ⟨-, hi⟩ | ⟨-, hi⟩ <;> rw [hi]
    · exact { decoderInv_clearResult h with }
    · exact { decoderInv_raise (p := p) hcount (.inr (.inl rfl)) with }
  | inert herr => exact { decoderInv_clearResult h with }
  | done herr d' hworks hfits' =>
    have hno : d'.err = false := hworks.err.trans herr
    have hinv : DecoderInv p d' := (decoderInv_iff p d').mpr
      ⟨⟨by rwa [hworks.ecode], by rwa [hworks.ecode, hworks.err], by simp [hno]⟩, hfits' hp hfits, hworks.count hcount⟩
    exact { hinv with }
  | raised herr c d' hworks hc =>
    have hc' : c = .io ∨ c = .illegal ∨ c = .capacity := (hc hp).imp_right .inr
    exact { decoderInv_raise (p := p) (hworks.count hcount) hc' with }

theorem DecMoves.decoderInv {s : State} {d' : Decoder} (hm : DecMoves s d') (hp : s.params.resMax ≤ 16384)
    (h : DecoderInv s.params s.dec) : DecoderInv s.params d' := by
  cases hm with
  | written run => exact { h with }
  | ran rest w d' hs hw hrun => exact hrun.decoderInv hp h
  | blockReset p q race rest hs src =>
    exact decoderInv_newStream (d := Decoder.fresh src) rfl rfl rfl rfl rfl

/-! ### The whole machine -/

theorem resMax_le_of_wf {p : Params} (h : p.wf = true) : p.resMax ≤ 16384 := by
  simp only [Params.wf, Bool.and_eq_true, decide_eq_true_eq] at h
  exact h.2

/-- Settles O54: both channels are fresh. -/
theorem resetSatisfiesTheInvariant : Obligations.ResetSatisfiesTheInvariant where
  params_wf := rfl
  encoder := encoderInv_newStream rfl rfl rfl rfl rfl rfl rfl nofun
  decoder := decoderInv_newStream (d := Decoder.fresh ⟨[], 0, []⟩) rfl rfl rfl rfl rfl

/-- Settles O55: the parameters stay, and every move of a channel keeps its part. -/
theorem everyStepKeepsTheInvariant : Obligations.EveryStepKeepsTheInvariant := by
  intro s t hinv h
  obtain ⟨hparams, henc, hdec⟩ := step_moves h
  exact ⟨hparams ▸ hinv.params_wf, hparams ▸ henc.encoderInv hinv.encoder,
    hparams ▸ hdec.decoderInv (resMax_le_of_wf hinv.params_wf) hinv.decoder⟩

end Sys2Proof.Machine
end

section
/-! The host bus (20_memory.md R57 to R69): which accesses a busy channel holds, which access the bus performs, which
addresses arrive at a register, and the operand a text macro leaves. -/

namespace Sys2Proof.Machine

/-! ### The hold of a busy channel (R61, R63) -/

theorem held_of_channel {s : State} {op : HostOp} {ch : Channel} (h : op.reg.channel = some ch) :
    s.held op = (s.busy ch && !op.isStatusRead) := by
  simp [State.held, h]

theorem held_of_unmapped {s : State} {op : HostOp} (h : op.reg.channel = none) : s.held op = false := by
  simp [State.held, h]

/-- Each channel has one STATUS register (R31, R37). -/
theorem isStatus_iff {r : Reg} {ch : Channel} (h : r.channel = some ch) : r.isStatus = true ↔ r = statusRegOf ch := by
  cases r <;> cases h <;> simp [Reg.isStatus, statusRegOf]

theorem isStatusRead_iff {op : HostOp} {ch : Channel} (h : op.reg.channel = some ch) :
    op.isStatusRead = true ↔ op = .read (statusRegOf ch) := by
  cases op with
  | read r => simpa [HostOp.isStatusRead] using isStatus_iff (r := r) h
  | write r v => simp [HostOp.isStatusRead]

/-- Settles O59: the hold of an access to a channel is BUSY without the STATUS read. -/
theorem onlyStatusReadsPassABusyChannel : Obligations.OnlyStatusReadsPassABusyChannel := by
  refine ⟨fun s op ch hch hbusy => ?_, fun s op ch hch hidle => ?_, fun s op hch => held_of_unmapped hch⟩
  · rw [← isStatusRead_iff hch, held_of_channel hch, hbusy]
    simp
  · rw [held_of_channel hch, hidle, Bool.false_and]

/-! ### The bus's turn (R63, R66) -/

/-- A write that is not held is to no busy channel (R61). -/
theorem channel_ne_of_write_free {s : State} {r : Reg} {v : Word} {ch : Channel} (hfree : s.held (.write r v) = false)
    (hbusy : s.busy ch = true) : r.channel ≠ some ch := by
  intro hch
  rw [held_of_channel (op := .write r v) hch, hbusy] at hfree
  cases hfree

theorem regWrite_enc_of_channel_ne (s : State) {r : Reg} (v : Word) (h : r.channel ≠ some .enc) :
    (s.regWrite r v).enc = s.enc := by
  rcases regWrite_cases s r v with h' | ⟨rfl, -⟩ | ⟨rfl, -⟩ | ⟨rfl, -⟩ | ⟨k, rfl, -⟩ | ⟨-, h'⟩
  any_goals exact absurd rfl h
  all_goals simp [h']

theorem regWrite_dec_of_channel_ne (s : State) {r : Reg} (v : Word) (h : r.channel ≠ some .dec) :
    (s.regWrite r v).dec = s.dec := by
  rcases regWrite_cases s r v with h' | ⟨-, h'⟩ | ⟨-, h'⟩ | ⟨-, h'⟩ | ⟨k, -, h'⟩ | ⟨rfl, -⟩
  any_goals exact absurd rfl h
  all_goals simp [h']

/-- An access that is not held leaves a busy ENC as it is (R63). -/
theorem performOp_enc_of_free {s : State} {op : HostOp} (hfree : s.held op = false) (hbusy : s.busy .enc = true) :
    (s.performOp op).enc = s.enc := by
  cases op with
  | read r => exact answerRead_enc s r
  | write r v => exact regWrite_enc_of_channel_ne s v (channel_ne_of_write_free hfree hbusy)

/-- An access that is not held leaves a busy DEC as it is (R63). -/
theorem performOp_dec_of_free {s : State} {op : HostOp} (hfree : s.held op = false) (hbusy : s.busy .dec = true) :
    (s.performOp op).dec = s.dec := by
  cases op with
  | read r => exact answerRead_dec s r
  | write r v => exact regWrite_dec_of_channel_ne s v (channel_ne_of_write_free hfree hbusy)

@[simp] theorem performOp_queue (s : State) (op : HostOp) : (s.performOp op).host.queue = s.host.queue := by
  cases op with
  | read r => rfl
  | write r v => cases r <;> rfl

theorem step_bus {s : State} {rest : List Turn} (h : s.schedule = .bus :: rest) :
    step s = .next { s with schedule := rest }.serveBus := by
  simp only [step, State.advance, h]
  rfl

/-- Settles O46: the bus performs nothing, or one access that no busy channel holds. -/
theorem busyChannelHoldsItsAccesses : Obligations.BusyChannelHoldsItsAccesses := by
  intro s t rest hs ht
  obtain rfl := Host.Outcome.next.inj ((step_bus hs).symm.trans ht)
  rcases serveBus_cases { s with schedule := rest } with ⟨-, hb⟩ | ⟨before, after, op, hq, -, hfree, hb⟩
  · rw [hb]
    exact ⟨fun _ => rfl, fun _ => rfl, rfl⟩
  · rw [hb]
    have hq' : s.host.queue = before ++ op :: after := hq
    have hfree' : s.held op = false := hfree
    refine ⟨fun hbusy => performOp_enc_of_free hfree hbusy, fun hbusy => performOp_dec_of_free hfree hbusy, ?_⟩
    simp [hq', hfree']

/-- The bus picks the first access that is not held (R63, R66, log entry 20). -/
theorem firstFree_append_free {s : State} {before after : List HostOp} {op : HostOp}
    (hheld : ∀ x ∈ before, s.held x = true) (hfree : s.held op = false) :
    s.firstFree (before ++ op :: after) = some (op, before ++ after) := by
  induction before with
  | nil => simp [State.firstFree, hfree]
  | cons x xs ih =>
    obtain ⟨hx, hxs⟩ := List.forall_mem_cons.mp hheld
    simp [State.firstFree, hx, ih hxs]

/-- Settles O47: what the bus picks from the queue. -/
theorem busServesTheOldestFreeAccess : Obligations.BusServesTheOldestFreeAccess := by
  intro s rest hs
  refine ⟨fun before after op hq hheld hfree => ?_, fun hheld => ?_⟩ <;> rw [step_bus hs, State.serveBus]
  · have hpick : { s with schedule := rest }.firstFree s.host.queue = some (op, before ++ after) :=
      hq ▸ firstFree_append_free hheld hfree
    simp only [hpick]
  · have hnone : { s with schedule := rest }.firstFree s.host.queue = none := (firstFree_none _ _).mpr hheld
    simp only [hnone]

/-! ### Arrival (R30, R58) -/

theorem offsetOf_inside (p : Params) {off : Nat} (h : off < 0x10000) : Params.offsetOf p (p.base + off) = some off := by
  simp [Params.offsetOf, h]

theorem offsetOf_outside {p : Params} {addr : Nat} (hp : p.aliased = false)
    (h : addr < p.base ∨ p.base + 0x10000 ≤ addr) : Params.offsetOf p addr = none := by
  simp only [Params.offsetOf, hp]
  split
  · rfl
  · rw [if_neg (by omega)]
    rfl

theorem issue_outside {s : State} {a : MemAccess} (h : Params.offsetOf s.params a.place.1 = none) :
    s.issue a = .fault .outsideWindow := by
  simp only [State.issue, h]

theorem issue_aligned {s : State} {a : MemAccess} {off : Nat} (h : Params.offsetOf s.params a.place.1 = some off)
    (hw : a.place.2 = 4) (ha : off % 4 = 0) : s.issue a = .next (s.enqueue (a.atReg (Reg.ofOffset off))) := by
  simp [State.issue, h, hw, ha]

theorem issue_refused {s : State} {a : MemAccess} {off : Nat} (h : Params.offsetOf s.params a.place.1 = some off)
    (hbad : a.place.2 ≠ 4 ∨ off % 4 ≠ 0) :
    s.issue a = .refused .accessWidth ∨ s.issue a = .refused .accessAlignment := by
  by_cases hw : a.place.2 = 4
  · exact .inr (by simp [State.issue, h, hw, hbad.resolve_left (not_not.mpr hw)])
  · exact .inl (by simp [State.issue, h, hw])

/-- Settles O48: the offset an address has decides between arrival, refusal and fault. -/
theorem onlyAlignedWordAccessesArrive : Obligations.OnlyAlignedWordAccessesArrive := by
  intro s addr width off v hp
  refine ⟨?_, ?_, fun hout => ?_⟩
  · rintro rfl hoff rfl halign
    have hin := offsetOf_inside s.params hoff
    exact ⟨issue_aligned hin rfl halign, issue_aligned hin rfl halign⟩
  · rintro rfl hoff hbad
    have hin := offsetOf_inside s.params hoff
    exact ⟨issue_refused hin hbad, issue_refused hin hbad⟩
  · have hnone := offsetOf_outside hp hout
    exact ⟨issue_outside hnone, issue_outside hnone⟩

/-! ### The text macros (R90) -/

/-- The writes of the first n words of a text change TBUF alone, and leave the text's first 4n bytes in it. -/
theorem foldl_textWords (s : State) (t : List Byte) (n : Nat) :
    ∃ m, ((List.range n).map (fun k => HostOp.write (.encTbuf k) (textWord t k))).foldl State.performOp s =
        s.setEnc { s.enc with tbuf := m } ∧
      ∀ j, j < s.params.txtMax → j < 4 * n →
        { s.enc with tbuf := m }.tbufRead s.params.txtMax j = t.getD j 0 := by
  induction n with
  | zero => exact ⟨s.enc.tbuf, rfl, fun j _ hj => absurd hj (by omega)⟩
  | succ n ih =>
    obtain ⟨m, hfold, hread⟩ := ih
    obtain ⟨m', hword, -⟩ := tbufWriteWord_eq { s.enc with tbuf := m } s.params.txtMax n (textWord t n)
    refine ⟨m', ?_, fun j hmax hj => ?_⟩
    · rw [List.range_succ, List.map_append, List.foldl_append, hfold]
      exact congrArg s.setEnc hword
    · have hwritten := tbufRead_tbufWriteWord { s.enc with tbuf := m } s.params.txtMax n j (textWord t n)
      rw [hword, if_neg (by omega)] at hwritten
      refine hwritten.trans ?_
      split
      · rw [textWord, windowWord_lane _ n (j - 4 * n) (by omega), Nat.add_sub_cancel' (by omega)]
      · exact hread j hmax (by omega)

/-- TBUF's first bytes and TLEN make the operand (R132). -/
theorem text_eq_of_tbufRead {e : Encoder} {txtMax : Nat} {t : List Byte} (hlen : e.tlen.toNat = t.length)
    (hread : ∀ j < t.length, e.tbufRead txtMax j = t.getD j 0) : e.text txtMax = t := by
  refine List.ext_getElem (by simp [Encoder.text, hlen]) fun j _ hj => ?_
  simp [Encoder.text, hread j hj, hj]

/-- TLEN's 15 bits hold every length a text operand may have (R7, R34). -/
theorem tlen_toNat_of_le {n : Nat} (h : n ≤ 16384) : ((BitVec.ofNat 32 n).setWidth 15).toNat = n := by
  simp only [BitVec.toNat_setWidth, BitVec.toNat_ofNat]
  omega

theorem txtMax_le_of_wf {p : Params} (h : p.wf = true) : p.txtMax ≤ 16384 := by
  simp only [Params.wf, Bool.and_eq_true, decide_eq_true_eq] at h
  obtain ⟨⟨⟨-, htxt⟩, -⟩, -⟩ := h
  exact htxt

/-- The four text macros differ in their command word alone (R90). -/
theorem expand_textMacro {t : List Byte} {mac : OperandMacro} {word : Word}
    (h : (mac, word) ∈ [(OperandMacro.ascii t, 0x00000001#32), (OperandMacro.utf8 t, 0x00000002#32),
      (OperandMacro.raw t, 0x00000003#32), (OperandMacro.auto t, 0x00000004#32)]) :
    mac.expand = textWrites t ++ [.write .encTlen (BitVec.ofNat 32 t.length), .write .encCmd word] := by
  simp only [List.mem_cons, List.not_mem_nil, or_false, Prod.mk.injEq] at h
  rcases h with ⟨rfl, rfl⟩ | ⟨rfl, rfl⟩ | ⟨rfl, rfl⟩ | ⟨rfl, rfl⟩ <;> rfl

/-- Settles O50: the window writes leave the text's bytes, then come its length and the command word. -/
theorem textMacroLoadsItsOperand : Obligations.TextMacroLoadsItsOperand := by
  intro s t mac word _ hlen hwf hmac u hu
  obtain ⟨m, hfold, hread⟩ := foldl_textWords s t ((t.length + 3) / 4)
  have hu' : u = s.setEnc { s.enc with
      running := some word, tlen := (BitVec.ofNat 32 t.length).setWidth 15, tbuf := m } := by
    rw [hu, expand_textMacro hmac, List.foldl_append, textWrites, hfold]
    rfl
  subst hu'
  have htlen : ((BitVec.ofNat 32 t.length).setWidth 15).toNat = t.length :=
    tlen_toNat_of_le (hlen.trans (txtMax_le_of_wf hwf))
  refine ⟨text_eq_of_tbufRead htlen fun j hj => ?_, htlen, rfl, rfl⟩
  exact (tbufRead_congr { s.enc with tbuf := m } _ _ j rfl rfl).trans (hread j (by omega) (by omega))

end Sys2Proof.Machine
end

section
/-! Command words (30_encoding.md R71 to R78): the fields of a command word, decoding as the inverse of encoding, and
the legality predicate on a command's own word. -/

namespace Sys2Proof.Machine

/-! ### The fields of a command word (R72) -/

@[simp] theorem opField_commandWord (op : Byte) (n : BitVec 6) : opField (commandWord op n) = op := by
  apply BitVec.eq_of_getLsbD_eq
  intro j hj
  simp only [opField, commandWord, BitVec.getLsbD_extractLsb', BitVec.getLsbD_append]
  simp [hj]

@[simp] theorem nField_commandWord (op : Byte) (n : BitVec 6) : nField (commandWord op n) = n := by
  apply BitVec.eq_of_getLsbD_eq
  intro j hj
  simp only [nField, commandWord, BitVec.getLsbD_extractLsb', BitVec.getLsbD_append]
  simp [hj]

@[simp] theorem rsvField_commandWord (op : Byte) (n : BitVec 6) : rsvField (commandWord op n) = 0 := by
  apply BitVec.eq_of_getLsbD_eq
  intro j hj
  simp only [rsvField, commandWord, BitVec.getLsbD_extractLsb', BitVec.getLsbD_append]
  simp (disch := omega) [if_neg]

/-! ### Decoding inverts encoding -/

/-- A command's own channel decodes its word to it (R73, R74). -/
theorem decode_encode : ∀ i : Instr, decode i.channel (encode i) = .ok i
  | .encPutbits n | .decGetbits n => by simp [decode, encode, Instr.channel]
  | .encAscii | .encUtf8 | .encRaw | .encAuto | .encSym | .encAlign | .encReset => rfl
  | .decValue | .decAlign | .decReset => rfl

/-- Settles O2: a word that decodes is the command's encoding, and a command's own channel decodes its encoding. -/
theorem decodeInvertsEncode : Obligations.DecodeInvertsEncode := by
  intro ch w i
  refine ⟨encode_of_decode, ?_⟩
  rintro ⟨rfl, rfl⟩
  exact decode_encode i

/-- Settles O1: each word is the encoding of its command. -/
theorem commandWordsDecode : Obligations.CommandWordsDecode :=
  ⟨decode_encode .encAscii, decode_encode .encUtf8, decode_encode .encRaw, decode_encode .encAuto,
    decode_encode .encSym, decode_encode (.encPutbits 32), decode_encode .encAlign, decode_encode .encReset,
    decode_encode .decValue, decode_encode (.decGetbits 1), decode_encode .decAlign, decode_encode .decReset⟩

/-! ### Legal words (R76, R77) -/

theorem encOpcode_eq_none {op : Byte} (h : encOpcode op = none) :
    op ∉ [0x01#8, 0x02#8, 0x03#8, 0x04#8, 0x05#8, 0x07#8, 0x0F#8] := by
  unfold encOpcode at h
  repeat' split at h
  all_goals simp_all

theorem decOpcode_eq_none {op : Byte} (h : decOpcode op = none) : op ∉ [0x01#8, 0x07#8, 0x0F#8] := by
  unfold decOpcode at h
  repeat' split at h
  all_goals simp_all

/-- A word that is no command of the channel is not legal, whatever the text operand (R77). -/
theorem legalWord_of_decode_error {ch : Channel} {w : Word} {err : DecodeError} (h : decode ch w = .error err)
    (tlen txtMax : Nat) : legalWord ch tlen txtMax w = false := by
  unfold decode at h
  split at h
  · rename_i hrsv
    cases ch <;> simp only [legalWord, hrsv, decide_false, Bool.false_and]
  · split at h
    · cases ch <;> cases h
    · rename_i hop
      split at h
      · rename_i hn
        cases ch <;>
          simp only [legalWord, hn, hop, decide_false, Bool.false_and, Bool.and_false, Bool.or_false]
      · split at h
        · cases h
        · rename_i hnone
          cases ch
          · simp only [legalWord, encOpcode_eq_none hnone, hop, decide_false, Bool.false_and, Bool.and_false,
              Bool.or_false]
          · simp only [legalWord, decOpcode_eq_none hnone, hop, decide_false, Bool.false_and, Bool.and_false,
              Bool.or_false]

/-- A command's own word is legal when the command is well formed and its text operand, if it has one, fits. -/
theorem legalWord_encode (tlen txtMax : Nat) :
    ∀ i : Instr, legalWord i.channel tlen txtMax (encode i) = true ↔
      i.wellFormed = true ∧ ((i = .encAscii ∨ i = .encUtf8 ∨ i = .encRaw ∨ i = .encAuto) → tlen ≤ txtMax)
  | .encPutbits n | .decGetbits n => by simp [legalWord, encode, Instr.channel, Instr.wellFormed, widthOk]
  | .encAscii | .encUtf8 | .encRaw | .encAuto | .encSym | .encAlign | .encReset => by
    simp [legalWord, encode, Instr.channel, Instr.wellFormed]
  | .decValue | .decAlign | .decReset => by simp [legalWord, encode, Instr.channel, Instr.wellFormed]

/-- Settles O3: a word that decodes is its command's own word, and a word that does not decode is not legal. -/
theorem legalWordsAreWellFormedCommands : Obligations.LegalWordsAreWellFormedCommands := by
  intro ch tlen txtMax w
  cases hd : decode ch w with
  | error err => simp [legalWord_of_decode_error hd]
  | ok i =>
    obtain ⟨rfl, rfl⟩ := encode_of_decode hd
    simp [legalWord_encode]

end Sys2Proof.Machine
end

section
/-! The bit string of every ENC command (30_encoding.md R79 to R84, 40_channel.md R101, R102, 42_encoder.md R133 to
R137): each Body puts exactly the wire bits of its command, whatever SINK answers. -/

namespace Sys2Proof.Machine

/-! ### Tags, fields and zero bits -/

theorem putTag_ascii : putTag 0 = putBitString (tagCode .ascii) := codeEnc_eq tagc _
theorem putTag_utf8 : putTag 1 = putBitString (tagCode .utf8) := codeEnc_eq tagc _
theorem putTag_raw : putTag 2 = putBitString (tagCode .raw) := codeEnc_eq tagc _
theorem putTag_int : putTag 3 = putBitString (tagCode .int) := codeEnc_eq tagc _

theorem bitsOf_zero (n : Nat) : bitsOf n 0 = List.replicate n false := by
  induction n with
  | zero => rfl
  | succ n ih => rw [bitsOf, ih, List.replicate_succ, BitVec.ofNat_eq_ofNat, BitVec.getLsbD_zero]

/-- EncAlign puts the zero bits that complete the byte (R97). -/
theorem encAlignBits_eq (e : Encoder) :
    encAlignBits e = putBitString (List.replicate ((8 - e.nbits.toNat) % 8) false) e := by
  by_cases h : e.nbits = 0
  · simp [encAlignBits, h, putBitString_nil, encM_pure]
  · have hpos : 0 < e.nbits.toNat := by bv_omega
    rw [Nat.mod_eq_of_lt (by omega), ← bitsOf_zero, ← putBits_eq]
    exact if_neg h

/-! ### Texts (R81 to R83) -/

theorem putAsciiBytes_eq (t : List Byte) :
    putAsciiBytes t =
      putBitString ((t.filter (fun b => decide (b.toNat < 128))).flatMap (fun b => symbolBits ascc b.toNat)) := by
  induction t with
  | nil => rfl
  | cons b t ih =>
    by_cases h : b.toNat < 128
    · simp [putAsciiBytes, h, ih, codeEnc_eq, putBitString_append]
    · simp [putAsciiBytes, h, ih]

theorem putUtf8Bytes_eq (t : List Byte) :
    putUtf8Bytes t = putBitString (t.flatMap (fun b => symbolBits fbc b.toNat)) := by
  induction t with
  | nil => rfl
  | cons b t ih => simp [putUtf8Bytes, ih, codeEnc_eq, putBitString_append]

theorem putRawBytes_eq (t : List Byte) :
    putRawBytes t = putBitString ((t.filter (fun b => decide (b ≠ 0))).flatMap byteBits) := by
  induction t with
  | nil => rfl
  | cons b t ih =>
    by_cases h : b = 0#8
    · simp [putRawBytes, h, ih]
    · simp [putRawBytes, h, ih, putBits_eq, byteBits, putBitString_append]

theorem asciiBody_eq (t : List Byte) : asciiBody t = putBitString (textWire .ascii t) := by
  simp [asciiBody, textWire, asciiWireBody, putTag_ascii, putAsciiBytes_eq, codeEnc_eq, putBitString_append]

theorem utf8Body_eq (t : List Byte) : utf8Body t = putBitString (textWire .utf8 t) := by
  simp [utf8Body, textWire, utf8WireBody, putTag_utf8, putUtf8Bytes_eq, codeEnc_eq, putBitString_append]

theorem rawBody_eq (t : List Byte) : rawBody t = putBitString (textWire .raw t) := by
  simp [rawBody, textWire, rawWireBody, putTag_raw, putRawBytes_eq, putBits_eq, byteBits, putBitString_append]

/-- The selector's two tests are the ones R136 names. -/
theorem autoBody_eq (t : List Byte) : autoBody t = putBitString (textWire (autoKind t) t) := by
  have hhigh : hasHigh t = false ↔ ∀ b ∈ t, b.toNat < 128 := by simp [hasHigh]
  have hzero : hasZero t = false ↔ ∀ b ∈ t, b ≠ 0 := by simp [hasZero]
  simp only [autoBody, autoKind, Bool.not_eq_true', hhigh, hzero]
  split
  · exact asciiBody_eq t
  · split
    · exact rawBody_eq t
    · exact utf8Body_eq t

/-! ### Integers (R84) -/

theorem symBody_eq (v : Word) : symBody v = putBitString (intWire v) := by
  simp only [symBody, intWire, intWireBody, bracketBits, payloadWidth, putTag_int, putBits_eq, putBitString_append]
  congr 1
  funext _
  split
  · rfl
  · split
    · rfl
    · split <;> rfl

/-! ### Commands -/

/-- A legal command on a channel without an error ends as its Body's bits do (R93). -/
theorem encFrame_puts {legal : Bool} {body : EncM Unit} {bs : List Bool} {e : Encoder} (hlegal : legal = true)
    (herr : e.err = false) (hbody : body e = putBitString bs e) :
    encFrame legal body e = (e.runBody (putBitString bs)).finish := by
  simp [encFrame, hlegal, herr, Encoder.runBody, hbody]

theorem textLegal_of_le {e : Encoder} {txtMax : Nat} (h : e.tlen.toNat ≤ txtMax) : e.textLegal txtMax = true :=
  decide_eq_true h

/-- Every legal ENC command but RESET puts its wire bits (R79). -/
theorem encEffect_puts_wireBits (s : State) (herr : s.enc.err = false) :
    ∀ i : Instr, i.channel = .enc → i ≠ .encReset → i.wellFormed = true →
      ((i = .encAscii ∨ i = .encUtf8 ∨ i = .encRaw ∨ i = .encAuto) → s.enc.tlen.toNat ≤ s.params.txtMax) →
      encEffect s.params s.enc i = Encoder.finish (s.enc.runBody (putBitString (wireBitsOf s i)))
  | .encAscii, _, _, _, hfit =>
    encFrame_puts (textLegal_of_le (hfit (by simp))) herr (congrFun (asciiBody_eq _) _)
  | .encUtf8, _, _, _, hfit =>
    encFrame_puts (textLegal_of_le (hfit (by simp))) herr (congrFun (utf8Body_eq _) _)
  | .encRaw, _, _, _, hfit =>
    encFrame_puts (textLegal_of_le (hfit (by simp))) herr (congrFun (rawBody_eq _) _)
  | .encAuto, _, _, _, hfit =>
    encFrame_puts (textLegal_of_le (hfit (by simp))) herr (congrFun (autoBody_eq _) _)
  | .encSym, _, _, _, _ => encFrame_puts rfl herr (congrFun (symBody_eq _) _)
  | .encPutbits n, _, _, hn, _ =>
    encFrame_puts hn herr (by rw [putBits_eq, bitsOf_argField, wireBitsOf])
  | .encAlign, _, _, _, _ => encFrame_puts rfl herr (encAlignBits_eq s.enc)

/-- The same as a step of the machine. -/
theorem exec_puts_wireBits {i : Instr} {s : State} (hc : i.channel = .enc) (hr : i ≠ .encReset)
    (hwf : i.wellFormed = true)
    (hfit : (i = .encAscii ∨ i = .encUtf8 ∨ i = .encRaw ∨ i = .encAuto) → s.enc.tlen.toNat ≤ s.params.txtMax)
    (herr : s.enc.err = false) :
    exec i s = .next (s.setEnc (Encoder.finish (s.enc.runBody (putBitString (wireBitsOf s i))))) := by
  rw [exec_eq_setEnc s i hc, encEffect_puts_wireBits s herr i hc hr hwf hfit]

/-- Settles O6: the wire bits of ENC.ASCII. -/
theorem encAsciiPutsItsValue : Obligations.EncAsciiPutsItsValue :=
  fun _ hfit herr => exec_puts_wireBits rfl nofun rfl (fun _ => hfit) herr

/-- Settles O7: the wire bits of ENC.UTF8. -/
theorem encUtf8PutsItsValue : Obligations.EncUtf8PutsItsValue :=
  fun _ hfit herr => exec_puts_wireBits rfl nofun rfl (fun _ => hfit) herr

/-- Settles O8: the wire bits of ENC.RAW. -/
theorem encRawPutsItsValue : Obligations.EncRawPutsItsValue :=
  fun _ hfit herr => exec_puts_wireBits rfl nofun rfl (fun _ => hfit) herr

/-- Settles O10: the wire bits of ENC.SYM. -/
theorem encSymPutsItsValue : Obligations.EncSymPutsItsValue :=
  fun _ herr => exec_puts_wireBits rfl nofun rfl nofun herr

/-- Settles O11: the wire bits of ENC.PUTBITS, whose width is legal. -/
theorem encPutbitsPutsTheField : Obligations.EncPutbitsPutsTheField :=
  fun _ _ hlo hhi herr => exec_puts_wireBits rfl nofun (by simp [Instr.wellFormed, widthOk, hlo, hhi]) nofun herr

end Sys2Proof.Machine
end

section
/-! Bits joining the output stream (20_memory.md R52, R53, 40_channel.md R95): while SINK accepts, putting a bit string
appends it to the stream, counts it, and hands SINK one byte for every eight bits. -/

namespace Sys2Proof.Machine

/-! ### SINK's coming answers -/

/-- SINK's answers do not depend on the bytes it has been offered (R5). -/
theorem afterPushes_answer_congr {s t : Sink} (hscript : s.script = t.script) (hasked : s.asked = t.asked) (k : Nat) :
    (Sink.afterPushes k s).answer = (Sink.afterPushes k t).answer := by
  induction k generalizing s t with
  | zero => simp only [Sink.afterPushes, Sink.answer, hscript, hasked]
  | succ k ih => exact ih (by simp [hscript]) (by simp [hasked])

/-- A Push uses up one of the answers to come. -/
theorem acceptsNext_push {s : Sink} {k : Nat} (h : Sink.acceptsNext (k + 1) s) (b : Byte) :
    Sink.acceptsNext k (s.push b) := fun j hj =>
  (afterPushes_answer_congr (s := s.push b) (t := s.push 0) rfl rfl j).trans (h (j + 1) (by omega))

/-! ### The bits of the partial byte -/

/-- Shifting a bit into a word appends it to the word's bit string. -/
theorem bitsOf_snoc {n : Nat} {v w : Word} (h : ∀ j < n, w.getLsbD (j + 1) = v.getLsbD j) :
    bitsOf (n + 1) w = bitsOf n v ++ [w.getLsbD 0] := by
  induction n with
  | zero => rfl
  | succ n ih =>
    rw [bitsOf, h n (by omega), ih fun j hj => h j (by omega)]
    rfl

/-- A bit that joins ACC comes after its pending bits (R21). -/
theorem bitsOf_accShift (acc : BitVec 7) (b : Bool) {n : Nat} (hn : n < 7) :
    bitsOf (n + 1) (((acc <<< 1) ||| (BitVec.ofBool b).setWidth 7).setWidth 32) =
      bitsOf n (acc.setWidth 32) ++ [b] := by
  rw [bitsOf_snoc (v := acc.setWidth 32) fun j hj => ?_]
  · simp
  · have hlow : j + 1 < 7 := by omega
    have hnext : j + 1 < 32 := by omega
    have hbit : j < 32 := by omega
    simp [hlow, hnext, hbit, BitVec.getLsbD_eq_getElem (Nat.lt_of_succ_lt hlow)]

/-- The byte a bit completes is ACC's seven bits and then the bit (R95). -/
theorem byteBits_accAppend (acc : BitVec 7) (b : Bool) :
    byteBits (acc ++ BitVec.ofBool b) = bitsOf 7 (acc.setWidth 32) ++ [b] := by
  rw [byteBits, bitsOf_snoc (v := acc.setWidth 32) fun j hj => ?_]
  · simp only [BitVec.getLsbD_setWidth, BitVec.getLsbD_append]
    simp
  · have hnext : j + 1 < 32 := by omega
    have hbit : j < 32 := by omega
    simp only [BitVec.getLsbD_setWidth, BitVec.getLsbD_append]
    simp [hnext, hbit]

/-! ### Appending to the stream -/

/-- e' is e with the bits bs appended to its stream: counted, packed into bytes, the rest pending. -/
structure Appended (bs : List Bool) (e e' : Encoder) : Prop where
  stream : e'.streamBits = e.streamBits ++ bs
  bitcnt : e'.bitcnt = e.bitcnt + BitVec.ofNat 32 bs.length
  nbits : e'.nbits.toNat = (e.nbits.toNat + bs.length) % 8
  accepted : e'.sink.accepted.length = e.sink.accepted.length + (e.nbits.toNat + bs.length) / 8

theorem appended_nil (e : Encoder) : Appended [] e e where
  stream := (List.append_nil _).symm
  bitcnt := (BitVec.add_zero _).symm
  nbits := by simp; omega
  accepted := by simp; omega

theorem Appended.trans {xs ys : List Bool} {e e' e'' : Encoder} (h : Appended xs e e') (k : Appended ys e' e'') :
    Appended (xs ++ ys) e e'' where
  stream := by rw [k.stream, h.stream, List.append_assoc]
  bitcnt := by rw [k.bitcnt, h.bitcnt, List.length_append, BitVec.ofNat_add, BitVec.add_assoc]
  nbits := by rw [k.nbits, h.nbits, List.length_append]; omega
  accepted := by rw [k.accepted, h.accepted, h.nbits, List.length_append]; omega

theorem appended_room {e : Encoder} (hn : e.nbits ≠ 7) (b : Bool) :
    Appended [b] e { e with
      bitcnt := e.bitcnt + 1, acc := (e.acc <<< 1) ||| (BitVec.ofBool b).setWidth 7, nbits := e.nbits + 1 } := by
  have hlt : e.nbits.toNat < 7 := by bv_omega
  have hsucc : (e.nbits + 1).toNat = e.nbits.toNat + 1 := by bv_omega
  constructor
  · simp only [Encoder.streamBits, hsucc, bitsOf_accShift e.acc b hlt, List.append_assoc]
  · rfl
  · simp only [hsucc, List.length_singleton]; omega
  · simp only [List.length_singleton]; omega

theorem appended_byte {e : Encoder} (hn : e.nbits = 7) (ha : e.sink.answer = .ok)
    (hbase : e.outBase ≤ e.sink.accepted.length) (b : Bool) :
    Appended [b] e { e with
      bitcnt := e.bitcnt + 1, acc := 0, nbits := 0, sink := e.sink.push (e.acc ++ BitVec.ofBool b) } := by
  have h7 : e.nbits.toNat = 7 := by rw [hn]; rfl
  constructor
  · simp [Encoder.streamBits, push_accepted_ok _ _ ha, List.drop_append_of_le_length hbase, byteBits_accAppend, h7,
      bitsOf]
  · rfl
  · simp [h7]
  · simp [push_accepted_ok _ _ ha, h7]

/-- One bit joins the stream, and SINK still accepts what the k bits after it complete. -/
theorem putBit_appends (b : Bool) {e : Encoder} {k : Nat} (hbase : e.outBase ≤ e.sink.accepted.length)
    (hsink : Sink.acceptsNext ((e.nbits.toNat + (k + 1)) / 8) e.sink) :
    ∃ e', putBit b e = .ok () e' ∧ Appended [b] e e' ∧ e'.outBase ≤ e'.sink.accepted.length ∧
      Sink.acceptsNext ((e'.nbits.toNat + k) / 8) e'.sink := by
  by_cases hn : e.nbits = 7
  · have h7 : e.nbits.toNat = 7 := by rw [hn]; rfl
    have hbytes : (e.nbits.toNat + (k + 1)) / 8 = k / 8 + 1 := by omega
    rw [hbytes] at hsink
    have ha : e.sink.answer = .ok := hsink 0 (by omega)
    refine ⟨_, putBit_accepted b e hn ha, appended_byte hn ha hbase b, ?_, ?_⟩
    · exact hbase.trans (push_prefix _ _).length_le
    · simpa using acceptsNext_push hsink _
  · have hsucc : (e.nbits + 1).toNat + k = e.nbits.toNat + (k + 1) := by bv_omega
    exact ⟨_, putBit_room b e hn, appended_room hn b, hbase, by simpa only [hsucc] using hsink⟩

/-- While SINK accepts, a bit string is put to its end and joins the stream. -/
theorem putBitString_appends (bs : List Bool) {e : Encoder} (hbase : e.outBase ≤ e.sink.accepted.length)
    (hsink : Sink.acceptsNext ((e.nbits.toNat + bs.length) / 8) e.sink) :
    ∃ e', putBitString bs e = .ok () e' ∧ Appended bs e e' := by
  induction bs generalizing e with
  | nil => exact ⟨e, rfl, appended_nil e⟩
  | cons b bs ih =>
    obtain ⟨e₁, hbit, happ₁, hbase₁, hsink₁⟩ := putBit_appends b hbase hsink
    obtain ⟨e₂, hput, happ₂⟩ := ih hbase₁ hsink₁
    exact ⟨e₂, by simpa only [putBitString_cons, encM_bind, hbit] using hput, happ₁.trans happ₂⟩

/-- Settles O14: the command puts its wire bits, and they join the stream. -/
theorem encCommandsAppendTheirWireBits : Obligations.EncCommandsAppendTheirWireBits := by
  intro i s hc hr hwf hfit herr hbase hsink
  obtain ⟨e', hput, happ⟩ := putBitString_appends (wireBitsOf s i) hbase hsink
  have hkept := putBitString_ok_streamOnly hput
  refine ⟨e'.finish, ?_, happ.stream, happ.bitcnt, happ.nbits, happ.accepted, rfl, hkept.err.trans herr, hkept.ecode,
    hkept.arg, hkept.tlen, hkept.tbuf, hkept.tbufEpoch, hkept.outBase⟩
  rw [exec_puts_wireBits hc hr hwf hfit herr, Encoder.runBody, hput]

end Sys2Proof.Machine
end

section
/-! The codes of the three tables (10_state.md R19, 30_encoding.md R87, 41_prefix_code.md R118): every long enough bit
string starts with exactly one of them; and how long the values written with them are (70_reset_and_hazards.md R180). -/

namespace Sys2Proof.Machine

/-! ### Sorting the codes of a table bit by bit -/

/-- The symbols of a table with the code of each. -/
def CodeTable.symbolCodes (t : CodeTable) : List (Nat × List Bool) :=
  t.zipIdx.map fun (c, v) => (v, bitsOf c.len.toNat (c.code.setWidth 32))

/-- What is left of a code after its first bit, when that bit is b. -/
def codeRest (b : Bool) : Nat × List Bool → Option (Nat × List Bool)
  | (_, []) => none
  | (v, x :: c) => if x = b then some (v, c) else none

/-- Whichever the next n bits are, they single out one code of the list: it is the only one that is left, and nothing
of it is left, or no code ends here and either next bit leaves a list that sorts out. -/
def sortsOut : Nat → List (Nat × List Bool) → Bool
  | 0, cs => decide (cs.map Prod.snd = [[]])
  | n + 1, cs =>
    decide (cs.map Prod.snd = [[]]) ||
      (decide ([] ∉ cs.map Prod.snd) && sortsOut n (cs.filterMap (codeRest false)) &&
        sortsOut n (cs.filterMap (codeRest true)))

theorem tagc_sortsOut : sortsOut tagc.longest tagc.symbolCodes = true := by decide +kernel
theorem ascc_sortsOut : sortsOut ascc.longest ascc.symbolCodes = true := by decide +kernel
theorem fbc_sortsOut : sortsOut fbc.longest fbc.symbolCodes = true := by decide +kernel

theorem mem_symbolCodes {t : CodeTable} {v : Nat} {c : List Bool} :
    (v, c) ∈ t.symbolCodes ↔ v < t.length ∧ symbolBits t v = c := by
  simp only [CodeTable.symbolCodes, List.mem_map, Prod.exists, List.mem_zipIdx_iff_getElem?, Prod.mk.injEq]
  constructor
  · rintro ⟨entry, u, hentry, rfl, rfl⟩
    exact ⟨(List.getElem?_eq_some_iff.mp hentry).1, by simp [symbolBits, hentry]⟩
  · rintro ⟨hv, rfl⟩
    exact ⟨t[v], v, List.getElem?_eq_getElem hv, rfl, by simp [symbolBits, hv]⟩

theorem mem_filterMap_codeRest {b : Bool} {cs : List (Nat × List Bool)} {v : Nat} {c : List Bool} :
    (v, c) ∈ cs.filterMap (codeRest b) ↔ (v, b :: c) ∈ cs := by
  simp only [List.mem_filterMap]
  constructor
  · rintro ⟨⟨u, _ | ⟨x, d⟩⟩, hmem, hrest⟩
    · cases hrest
    · simp only [codeRest, Option.ite_none_right_eq_some, Option.some.injEq, Prod.mk.injEq] at hrest
      obtain ⟨rfl, rfl, rfl⟩ := hrest
      exact hmem
  · exact fun h => ⟨_, h, if_pos rfl⟩

/-- The bits start with the code of v, one of the list, and with no other symbol's code. -/
def StartsWithOnly (cs : List (Nat × List Bool)) (bits : List Bool) (v : Nat) : Prop :=
  (∃ c, (v, c) ∈ cs ∧ c <+: bits) ∧ ∀ u c, (u, c) ∈ cs → c <+: bits → u = v

theorem startsWithOnly_single {cs : List (Nat × List Bool)} (h : cs.map Prod.snd = [[]]) (bits : List Bool) :
    ∃ v, StartsWithOnly cs bits v := by
  obtain ⟨⟨v, c⟩, rfl, rfl⟩ := List.map_eq_singleton_iff.mp h
  refine ⟨v, ⟨[], List.mem_singleton_self _, List.nil_prefix⟩, fun u c hc _ => ?_⟩
  exact congrArg Prod.fst (List.mem_singleton.mp hc)

/-- Where no code ends, the first bit can be taken off the bits and off the codes. -/
theorem StartsWithOnly.cons {cs : List (Nat × List Bool)} {b : Bool} {bits : List Bool} {v : Nat}
    (hne : [] ∉ cs.map Prod.snd) (h : StartsWithOnly (cs.filterMap (codeRest b)) bits v) :
    StartsWithOnly cs (b :: bits) v := by
  obtain ⟨⟨c, hmem, hpre⟩, honly⟩ := h
  refine ⟨⟨b :: c, mem_filterMap_codeRest.mp hmem, List.cons_prefix_cons.mpr ⟨rfl, hpre⟩⟩, ?_⟩
  intro u d hd hdpre
  cases d with
  | nil => exact absurd (List.mem_map_of_mem hd) hne
  | cons x d =>
    obtain ⟨rfl, hrest⟩ := List.cons_prefix_cons.mp hdpre
    exact honly u d (mem_filterMap_codeRest.mpr hd) hrest

theorem startsWithOnly_of_sortsOut {n : Nat} {cs : List (Nat × List Bool)} {bits : List Bool}
    (h : sortsOut n cs = true) (hlen : n ≤ bits.length) : ∃ v, StartsWithOnly cs bits v := by
  induction n generalizing cs bits with
  | zero => exact startsWithOnly_single (of_decide_eq_true h) bits
  | succ n ih =>
    simp only [sortsOut, Bool.or_eq_true, Bool.and_eq_true, decide_eq_true_eq] at h
    rcases h with hsingle | ⟨⟨hne, hfalse⟩, htrue⟩
    · exact startsWithOnly_single hsingle bits
    · cases bits with
      | nil => simp at hlen
      | cons b bits =>
        have hrest : sortsOut n (cs.filterMap (codeRest b)) = true := by cases b <;> assumption
        obtain ⟨v, hv⟩ := ih hrest (Nat.le_of_succ_le_succ hlen)
        exact ⟨v, hv.cons hne⟩

/-- Settles O37: the codes of each table sort out within its longest code. -/
theorem everyBitStringStartsWithOneCode : Obligations.EveryBitStringStartsWithOneCode := by
  intro t bits ht hlen
  have hsorts : sortsOut t.longest t.symbolCodes = true := by
    rcases ht with rfl | rfl | rfl
    · exact tagc_sortsOut
    · exact ascc_sortsOut
    · exact fbc_sortsOut
  obtain ⟨v, ⟨c, hmem, hpre⟩, honly⟩ := startsWithOnly_of_sortsOut hsorts hlen
  obtain ⟨hv, rfl⟩ := mem_symbolCodes.mp hmem
  exact ⟨v, ⟨hv, hpre⟩, fun u hu hupre => honly u _ (mem_symbolCodes.mpr ⟨hu, rfl⟩) hupre⟩

/-! ### Lengths (R180) -/

theorem symbolBits_length_le {t : CodeTable} {m : Nat} (h : ∀ c ∈ t, c.len.toNat ≤ m) (v : Nat) :
    (symbolBits t v).length ≤ m := by
  unfold symbolBits
  split
  · rename_i c hc
    simpa using h c (List.mem_of_getElem? hc)
  · exact Nat.zero_le m

theorem ascc_length_le (v : Nat) : (symbolBits ascc v).length ≤ 11 :=
  symbolBits_length_le (by decide +kernel) v

theorem fbc_length_le (v : Nat) : (symbolBits fbc v).length ≤ 11 :=
  symbolBits_length_le (by decide +kernel) v

/-- A text takes at most m bits a byte when each byte does. -/
theorem flatMap_length_le {f : Byte → List Bool} {m : Nat} (h : ∀ b, (f b).length ≤ m) (t : List Byte) :
    (t.flatMap f).length ≤ m * t.length := by
  induction t with
  | nil => simp
  | cons b t ih =>
    have hb := h b
    simp only [List.flatMap_cons, List.length_append, List.length_cons, Nat.mul_succ]
    omega

theorem asciiWire_length_le (t : List Byte) : (textWire .ascii t).length ≤ 11 + 11 * t.length := by
  have hkept := List.length_filter_le (fun b : Byte => decide (b.toNat < 128)) t
  have hbody := flatMap_length_le (fun b => ascc_length_le b.toNat) (t.filter (fun b => decide (b.toNat < 128)))
  have hterm : (symbolBits ascc 128).length = 10 := by decide +kernel
  simp only [textWire, asciiWireBody, tagCode, List.length_append, List.length_singleton, hterm]
  omega

theorem utf8Wire_length_le (t : List Byte) : (textWire .utf8 t).length ≤ 12 + 11 * t.length := by
  have hbody := flatMap_length_le (fun b => fbc_length_le b.toNat) t
  have hterm : (symbolBits fbc 256).length = 10 := by decide +kernel
  simp only [textWire, utf8WireBody, tagCode, List.length_append, List.length_cons, List.length_nil, hterm]
  omega

theorem rawWire_length_le (t : List Byte) : (textWire .raw t).length ≤ 11 + 8 * t.length := by
  have hkept := List.length_filter_le (fun b : Byte => decide (b ≠ 0)) t
  have hbody := flatMap_length_le (fun b => (byteBits_length b).le) (t.filter (fun b => decide (b ≠ 0)))
  simp only [textWire, rawWireBody, tagCode, List.length_append, List.length_cons, List.length_nil, byteBits_length]
  omega

/-- Tag, bracket bits and payload of the range of v (R84). -/
theorem intWire_length (v : Word) : (intWire v).length =
    if v.toNat < 16 then 8 else if v.toNat < 256 then 13 else if v.toNat < 65536 then 22 else 38 := by
  simp only [intWire, intWireBody, tagCode, bracketBits, payloadWidth, List.length_append, bitsOf_length]
  split
  · rfl
  · split
    · rfl
    · split <;> rfl

/-- Settles O38: a bound for each text kind, and the four integer forms. -/
theorem encodedValueLengths : Obligations.EncodedValueLengths :=
  ⟨asciiWire_length_le, utf8Wire_length_le, rawWire_length_le, intWire_length⟩

end Sys2Proof.Machine
end

section
/-! The command frame in a channel's turn (40_channel.md R93, R94, R103, R106, R107): the decoded command, the illegal
word, the errored channel and RESET, each as the whole next state. -/

namespace Sys2Proof.Machine

/-! ### Whose turn it is -/

theorem step_encTurn {s : State} {rest : List Turn} (h : s.schedule = .enc :: rest) :
    step s = State.runEncoder { s with schedule := rest } := by
  simp only [step, State.advance, h, State.takeTurn]

theorem step_decTurn {s : State} {rest : List Turn} (h : s.schedule = .dec :: rest) :
    step s = State.runDecoder { s with schedule := rest } := by
  simp only [step, State.advance, h, State.takeTurn]

theorem runEncoder_of_decode {s : State} {w : Word} {i : Instr} (hw : s.enc.running = some w)
    (hd : decode .enc w = .ok i) : s.runEncoder = exec i s := by
  simp only [State.runEncoder, hw, hd]

theorem runDecoder_of_decode {s : State} {w : Word} {i : Instr} (hw : s.dec.running = some w)
    (hd : decode .dec w = .ok i) : s.runDecoder = exec i s := by
  simp only [State.runDecoder, hw, hd]

/-- Settles O4: the turn is the channel's, and the channel runs the command its word decodes to. -/
theorem stepRunsDecodedCommand : Obligations.StepRunsDecodedCommand := by
  refine ⟨fun s rest w i hs hw hd _ => ?_, fun s rest w i hs hw hd _ => ?_⟩
  · exact (step_encTurn hs).trans (runEncoder_of_decode hw hd)
  · exact (step_decTurn hs).trans (runDecoder_of_decode hw hd)

/-! ### RESET (R103, R106) -/

/-- Settles O13: the fields ChannelReset(ENC) writes, then BUSY. -/
theorem encResetStartsANewStream : Obligations.EncResetStartsANewStream :=
  fun s => exec_eq_setEnc s .encReset rfl

/-- Settles O26: the fields ChannelReset(DEC) writes, then BUSY. -/
theorem decResetStartsANewStream : Obligations.DecResetStartsANewStream :=
  fun s => exec_eq_setDec s .decReset rfl

/-! ### Illegal words (R107) -/

theorem encFrame_illegal {legal : Bool} (h : legal = false) (body : EncM Unit) (e : Encoder) :
    encFrame legal body e = e.illegal.finish := by
  subst h; rfl

theorem decFrame_illegal {legal : Bool} (h : legal = false) (body : DecM Unit) (d : Decoder) :
    decFrame legal body d = d.illegal.finish := by
  subst h; rfl

/-- An ENC command whose word is not legal runs the illegal word's frame (R76, R93). -/
theorem encEffect_illegal {p : Params} {e : Encoder} {i : Instr} (hc : i.channel = .enc)
    (h : legalWord i.channel e.tlen.toNat p.txtMax (encode i) = false) : encEffect p e i = e.illegal.finish := by
  have hnot := mt (legalWord_encode e.tlen.toNat p.txtMax i).mpr (by simp [h])
  cases i with
  | encAscii | encUtf8 | encRaw | encAuto =>
    exact encFrame_illegal (decide_eq_false (by simpa [Instr.wellFormed] using hnot)) _ e
  | encPutbits n => exact encFrame_illegal (by simpa [Instr.wellFormed] using hnot) _ e
  | encSym | encAlign | encReset => simp [Instr.wellFormed] at hnot
  | decValue | decGetbits | decAlign | decReset => cases hc

/-- A DEC command whose word is not legal runs the illegal word's frame (R76, R93). -/
theorem decEffect_illegal {p : Params} {d : Decoder} {tlen txtMax : Nat} {i : Instr} (hc : i.channel = .dec)
    (h : legalWord i.channel tlen txtMax (encode i) = false) : decEffect p d i = d.illegal.finish := by
  have hnot := mt (legalWord_encode tlen txtMax i).mpr (by simp [h])
  cases i with
  | decGetbits n => exact decFrame_illegal (by simpa [Instr.wellFormed] using hnot) _ d
  | decValue | decAlign | decReset => simp [Instr.wellFormed] at hnot
  | encAscii | encUtf8 | encRaw | encAuto | encSym | encPutbits | encAlign | encReset => cases hc

/-- ENC's turn with an illegal word: no command, or one that is not legal. -/
theorem runEncoder_illegal {s : State} {w : Word} (hw : s.enc.running = some w)
    (hl : legalWord .enc s.enc.tlen.toNat s.params.txtMax w = false) :
    s.runEncoder = .next (s.setEnc s.enc.illegal.finish) := by
  cases hd : decode .enc w with
  | error x => simp only [State.runEncoder, hw, hd, encIllegalFrame]
  | ok i =>
    obtain ⟨hc, rfl⟩ := encode_of_decode hd
    rw [runEncoder_of_decode hw hd, exec_eq_setEnc s i hc, encEffect_illegal hc (hc ▸ hl)]

/-- DEC's turn with an illegal word: no command, or one that is not legal. -/
theorem runDecoder_illegal {s : State} {w : Word} {tlen txtMax : Nat} (hw : s.dec.running = some w)
    (hl : legalWord .dec tlen txtMax w = false) :
    s.runDecoder = .next (s.setDec s.dec.illegal.finish) := by
  cases hd : decode .dec w with
  | error x => simp only [State.runDecoder, hw, hd, decIllegalFrame]
  | ok i =>
    obtain ⟨hc, rfl⟩ := encode_of_decode hd
    rw [runDecoder_of_decode hw hd, exec_eq_setDec s i hc, decEffect_illegal hc (hc ▸ hl)]

/-- An earlier error keeps its code (R93). -/
theorem encIllegal_eq (e : Encoder) :
    e.illegal = { e with err := true, ecode := if e.err then e.ecode else 3 } := by
  rcases e with ⟨_, _ | _⟩ <;> rfl

/-- An earlier error keeps its code (R93). -/
theorem decIllegal_eq (d : Decoder) :
    d.illegal = { d.clearResult with err := true, ecode := if d.err then d.ecode else 3 } := by
  rcases d with ⟨_, _ | _⟩ <;> rfl

/-- Settles O5: the turn runs the illegal word's frame, which keeps an earlier code. -/
theorem illegalWordRecordsIllegal : Obligations.IllegalWordRecordsIllegal := by
  refine ⟨fun s rest w hs hw hl => ?_, fun s rest w hs hw hl => ?_⟩
  · rw [step_encTurn hs, runEncoder_illegal (s := { s with schedule := rest }) hw hl, encIllegal_eq]
    rfl
  · rw [step_decTurn hs, runDecoder_illegal (s := { s with schedule := rest }) hw hl, decIllegal_eq]
    rfl

/-! ### The errored channel (R94, R156) -/

/-- A run of an errored ENC whose word is not RESET changes BUSY alone. -/
theorem EncRun.inert_eq {w : Word} {e e' : Encoder} (h : EncRun w e e') (herr : e.err = true)
    (hw : w ≠ 0x0000000F#32) : e' = e.finish := by
  cases h with
  | reset hreset => exact absurd hreset hw
  | illegal => simp [Encoder.illegal, herr]
  | inert _ => rfl
  | done hno | raised hno => simp [herr] at hno

/-- A run of an errored DEC whose word is not RESET changes BUSY and clears the result. -/
theorem DecRun.inert_eq {p : Params} {w : Word} {d d' : Decoder} (h : DecRun p w d d') (herr : d.err = true)
    (hw : w ≠ 0x0000000F#32) : d' = d.clearResult.finish := by
  cases h with
  | reset hreset => exact absurd hreset hw
  | illegal => simp [Decoder.illegal, herr]
  | inert _ => rfl
  | done hno | raised hno => simp [herr] at hno

/-- Settles O28: of the runs of a channel only the inert ones are open to an errored channel without RESET. -/
theorem erroredChannelIsInert : Obligations.ErroredChannelIsInert := by
  refine ⟨fun s rest w hs hw herr hne => ?_, fun s rest w hs hw herr hne => ?_⟩
  · rw [step_encTurn hs]
    rcases runEncoder_cases { s with schedule := rest } with ⟨hnone, -⟩ | ⟨w', e', hw', hrun, h⟩
    · cases hw.symm.trans hnone
    · obtain rfl : w = w' := Option.some.inj (hw.symm.trans hw')
      rw [h, hrun.inert_eq herr hne]
      rfl
  · rw [step_decTurn hs]
    rcases runDecoder_cases { s with schedule := rest } with ⟨hnone, -⟩ | ⟨w', d', hw', hrun, h⟩
    · cases hw.symm.trans hnone
    · obtain rfl : w = w' := Option.some.inj (hw.symm.trans hw')
      rw [h, hrun.inert_eq herr hne]
      rfl

end Sys2Proof.Machine
end

section
/-! The packer's padding and a byte SINK refuses (40_channel.md R95, R97, R102, 60_exceptions.md R151, R154). -/

namespace Sys2Proof.Machine

/-! ### Padding -/

/-- Settles O12: the wire bits of ENC.ALIGN, with R97's two cases in place of the remainder. -/
theorem encAlignPadsWithZeros : Obligations.EncAlignPadsWithZeros := by
  intro s herr
  have hpad : wireBitsOf s .encAlign =
      List.replicate (if s.enc.nbits = 0 then 0 else 8 - s.enc.nbits.toNat) false := by
    rw [wireBitsOf]
    split
    next h => rw [h]; rfl
    next h => rw [Nat.mod_eq_of_lt (by bv_omega)]
  rw [← hpad]
  exact exec_puts_wireBits rfl nofun rfl nofun herr

/-! ### The Pushes of a bit string -/

/-- SINK t is SINK s after k accepted Pushes. -/
structure Pushed (k : Nat) (s t : Sink) : Prop where
  script : t.script = s.script.drop k
  asked : t.asked = s.asked + k
  accepted : t.accepted.length = s.accepted.length + k

theorem pushed_zero (s : Sink) : Pushed 0 s s := ⟨rfl, rfl, rfl⟩

theorem Pushed.trans {k l : Nat} {s t u : Sink} (h : Pushed k s t) (h' : Pushed l t u) : Pushed (k + l) s u where
  script := by rw [h'.script, h.script, List.drop_drop]
  asked := by rw [h'.asked, h.asked, Nat.add_assoc]
  accepted := by rw [h'.accepted, h.accepted, Nat.add_assoc]

theorem pushed_one {s : Sink} (h : s.answer = .ok) (b : Byte) : Pushed 1 s (s.push b) where
  script := List.drop_one.symm
  asked := rfl
  accepted := by simp [push_accepted_ok s b h]

theorem afterPushes_script (k : Nat) (s : Sink) : (Sink.afterPushes k s).script = s.script.drop k := by
  induction k generalizing s with
  | zero => rfl
  | succ k ih => rw [Sink.afterPushes, ih, push_script, List.drop_tail]

theorem afterPushes_asked (k : Nat) (s : Sink) : (Sink.afterPushes k s).asked = s.asked + k := by
  induction k generalizing s with
  | zero => rfl
  | succ k ih => rw [Sink.afterPushes, ih, push_asked]; omega

/-- After k accepted Pushes SINK gives the answer foreseen for the next one. -/
theorem Pushed.answer {k : Nat} {s t : Sink} (h : Pushed k s t) : t.answer = (Sink.afterPushes k s).answer :=
  afterPushes_answer_congr (h.script.trans (afterPushes_script k s).symm)
    (h.asked.trans (afterPushes_asked k s).symm) 0

/-- A bit string put to its end had all its Pushes accepted. -/
theorem putBitString_ok_pushed {bs : List Bool} {e e' : Encoder} (h : putBitString bs e = .ok () e') :
    ∃ k, Pushed k e.sink e'.sink := by
  induction bs generalizing e with
  | nil =>
    cases h
    exact ⟨0, pushed_zero _⟩
  | cons b bs ih =>
    rw [putBitString_cons, encM_bind] at h
    rcases putBit_cases b e with ⟨-, hbit⟩ | ⟨-, ha, hbit⟩ | ⟨-, -, hbit⟩ <;> rw [hbit] at h
    · obtain ⟨k, hk⟩ := ih h
      exact ⟨k, hk⟩
    · obtain ⟨k, hk⟩ := ih h
      exact ⟨1 + k, (pushed_one ha _).trans hk⟩
    · cases h

/-! ### The refused byte -/

/-- e' is e after the bit string bs was put up to the bit that completed its (k+1)-th byte, which SINK refused (R95,
R154). -/
structure LostByte (k : Nat) (bs : List Bool) (e e' : Encoder) : Prop where
  acc : e'.acc = 0
  nbits : e'.nbits = 0
  bitcnt : e'.bitcnt = e.bitcnt + BitVec.ofNat 32 (8 * (k + 1) - e.nbits.toNat)
  asked : e'.sink.asked = e.sink.asked + (k + 1)
  accepted : e'.sink.accepted.length = e.sink.accepted.length + k
  stream : e'.streamBits <+: e.streamBits ++ bs

/-- A list longer than m is its first m elements, one more, and the others. -/
theorem exists_split_at {bs : List Bool} {m : Nat} (h : m < bs.length) :
    ∃ xs b ys, bs = xs ++ b :: ys ∧ xs.length = m :=
  ⟨bs.take m, bs[m], bs.drop (m + 1), by rw [← List.drop_eq_getElem_cons h, List.take_append_drop],
    List.length_take_of_le h.le⟩

/-- The (k+1)-th byte of a bit string refused: all before its last bit joins the stream, that bit raises IO. -/
theorem putBitString_refused {bs : List Bool} {e : Encoder} {k : Nat}
    (hbase : e.outBase ≤ e.sink.accepted.length) (haccepts : Sink.acceptsNext k e.sink)
    (hrefuses : (Sink.afterPushes k e.sink).answer = .fail) (hlong : 8 * (k + 1) ≤ e.nbits.toNat + bs.length) :
    ∃ e', putBitString bs e = .error .io e' ∧ LostByte k bs e e' := by
  have hnb := e.nbits.isLt
  obtain ⟨xs, b, ys, rfl, hxs⟩ := exists_split_at (bs := bs) (m := 8 * k + 7 - e.nbits.toNat) (by omega)
  have hbytes : (e.nbits.toNat + xs.length) / 8 = k := by omega
  obtain ⟨e₁, hput, happ⟩ := putBitString_appends xs hbase (hbytes ▸ haccepts)
  obtain ⟨k', hpushed⟩ := putBitString_ok_pushed hput
  obtain rfl : k' = k := by rw [← hbytes, ← Nat.add_left_cancel (hpushed.accepted.symm.trans happ.accepted)]
  have hfull : e₁.nbits = 7 := BitVec.eq_of_toNat_eq (by rw [happ.nbits]; simp; omega)
  have hfail : e₁.sink.answer = .fail := hpushed.answer.trans hrefuses
  have hlost := push_accepted_fail e₁.sink (e₁.acc ++ BitVec.ofBool b) hfail
  have hrun : putBitString (xs ++ b :: ys) e = .error .io { e₁ with
      bitcnt := e₁.bitcnt + 1, acc := 0, nbits := 0, sink := e₁.sink.push (e₁.acc ++ BitVec.ofBool b) } := by
    simp only [putBitString_append, putBitString_cons, encM_bind, hput, putBit_refused b e₁ hfull hfail]
  refine ⟨_, hrun, rfl, rfl, ?_, ?_, ?_, ?_⟩
  · have hcount : 8 * (k' + 1) - e.nbits.toNat = xs.length + 1 := by omega
    rw [hcount, BitVec.ofNat_add, ← BitVec.add_assoc, ← happ.bitcnt]
    rfl
  · rw [push_asked, hpushed.asked, Nat.add_assoc]
  · rw [hlost, hpushed.accepted]
  · have hbefore : e₁.streamBits <+: e.streamBits ++ (xs ++ b :: ys) := by
      rw [happ.stream, ← List.append_assoc]
      exact List.prefix_append _ _
    refine List.IsPrefix.trans ?_ hbefore
    simp only [Encoder.streamBits, hlost]
    simp [bitsOf]

/-- Settles O15: the command puts its wire bits up to the refused byte, and the raise of IO ends it. -/
theorem refusedByteEndsTheCommandWithIo : Obligations.RefusedByteEndsTheCommandWithIo := by
  intro i s k hc hr hwf hfit herr hbase haccepts hrefuses hlong
  obtain ⟨e', hput, hlost⟩ := putBitString_refused hbase haccepts hrefuses hlong
  have hkept := putBitString_error_streamOnly hput
  refine ⟨(e'.raise .io).finish, ?_, rfl, rfl, rfl, hlost.acc, hlost.nbits, hlost.bitcnt, hlost.asked, hlost.accepted,
    hlost.stream, hkept.arg, hkept.tlen, hkept.tbuf, hkept.tbufEpoch⟩
  rw [exec_puts_wireBits hc hr hwf hfit herr, Encoder.runBody, hput]

end Sys2Proof.Machine
end

section
/-! The bits ahead of DEC (10_state.md R23, 20_memory.md R53, 40_channel.md R98 to R100): GetBit takes the first of them
or finds none, GetBits takes a field of them, DecAlign discards those of CUR. -/

namespace Sys2Proof.Machine

/-! ### One bit of the bits ahead -/

/-- d' is d after the bits bs were read: they were the next ones, they are counted, and the input ends as it did. -/
structure Consumed (bs : List Bool) (d d' : Decoder) : Prop where
  ahead : d.bitsAhead = bs ++ d'.bitsAhead
  bitcnt : d'.bitcnt = d.bitcnt + BitVec.ofNat 32 bs.length
  fails : failsAfterBytes d'.source.script = failsAfterBytes d.source.script

theorem consumed_nil (d : Decoder) : Consumed [] d d where
  ahead := rfl
  bitcnt := (BitVec.add_zero _).symm
  fails := rfl

theorem Consumed.trans {xs ys : List Bool} {d d' d'' : Decoder} (h : Consumed xs d d') (k : Consumed ys d' d'') :
    Consumed (xs ++ ys) d d'' where
  ahead := by rw [h.ahead, k.ahead, List.append_assoc]
  bitcnt := by rw [k.bitcnt, h.bitcnt, List.length_append, BitVec.ofNat_add, BitVec.add_assoc]
  fails := k.fails.trans h.fails

/-- While CUR has unconsumed bits, GetBit reads the first of them (R98). -/
theorem consumed_pending {d : Decoder} (hn : d.nbits ≠ 0) :
    Consumed [d.cur.getLsbD (d.nbits - 1).toNat] d { d with nbits := d.nbits - 1, bitcnt := d.bitcnt + 1 } := by
  have hsucc : d.nbits.toNat = (d.nbits - 1).toNat + 1 := by bv_omega
  have hlt : (d.nbits - 1).toNat < 32 := (d.nbits - 1).isLt.trans (by decide)
  refine ⟨?_, rfl, rfl⟩
  simp only [Decoder.bitsAhead]
  rw [hsucc, bitsOf, BitVec.getLsbD_setWidth, decide_eq_true hlt, Bool.true_and]
  rfl

/-- With no unconsumed bit, GetBit reads bit 7 of the byte to come (R53). -/
theorem consumed_pulled {d : Decoder} {b : Byte} {script : List PullAnswer} (hn : d.nbits = 0)
    (hs : d.source.script = .data b :: script) :
    Consumed [b.getLsbD 7] d
      { d with source := d.source.pull, cur := b, nbits := 7, bitcnt := d.bitcnt + 1 } := by
  refine ⟨?_, rfl, by simp [hs, failsAfterBytes]⟩
  simp [Decoder.bitsAhead, hn, hs, comingBytes, byteBits, bitsOf]

/-- With a bit ahead, GetBit answers it and consumes it. -/
theorem getBit_reads {d : Decoder} {b : Bool} {rest : List Bool} (h : d.bitsAhead = b :: rest) :
    ∃ d', getBit d = .ok b d' ∧ d'.bitsAhead = rest ∧ Consumed [b] d d' := by
  have reads {x : Bool} {d' : Decoder} (hx : getBit d = .ok x d') (hc : Consumed [x] d d') :
      ∃ d', getBit d = .ok b d' ∧ d'.bitsAhead = rest ∧ Consumed [b] d d' := by
    obtain ⟨rfl, hrest⟩ := List.cons.inj (h.symm.trans hc.ahead)
    exact ⟨d', hx, hrest.symm, hc⟩
  by_cases hn : d.nbits = 0
  · match hs : d.source.script with
    | [] | .fail :: _ => simp [Decoder.bitsAhead, hn, hs, comingBytes, bitsOf] at h
    | .data x :: _ => exact reads (getBit_pulls d x hn (by simp [Source.answer, hs])) (consumed_pulled hn hs)
  · exact reads (getBit_pending d hn) (consumed_pending hn)

/-- With no bit ahead and a failure to come, GetBit raises IO and consumes nothing (R98). -/
theorem getBit_short {d : Decoder} (h : d.bitsAhead = []) (hf : failsAfterBytes d.source.script = true) :
    ∃ d', getBit d = .error .io d' ∧ d'.nbits = 0 ∧ d'.bitcnt = d.bitcnt := by
  by_cases hn : d.nbits = 0
  · match hs : d.source.script with
    | [] => simp [hs, failsAfterBytes] at hf
    | .data x :: _ => simp [Decoder.bitsAhead, hs, comingBytes, byteBits, bitsOf] at h
    | .fail :: _ => exact ⟨_, getBit_fails d hn (by simp [Source.answer, hs]), hn, rfl⟩
  · have hc := (consumed_pending hn).ahead
    simp [h] at hc

/-! ### A field of the bits ahead (R99) -/

/-- Shifting a bit into a word is reading one more bit of a number (R54). -/
theorem ofNat_shift_or (v : Nat) (b : Bool) :
    (BitVec.ofNat 32 v <<< 1) ||| (BitVec.ofBool b).setWidth 32 = BitVec.ofNat 32 (2 * v + b.toNat) := by
  apply BitVec.eq_of_getLsbD_eq
  intro j hj
  simp only [BitVec.getLsbD_or, BitVec.getLsbD_shiftLeft, BitVec.getLsbD_setWidth, BitVec.getLsbD_ofBool,
    BitVec.getLsbD_ofNat, hj]
  cases j with
  | zero => cases b <;> simp [Nat.testBit_zero]
  | succ j =>
    have hhalf : (2 * v + b.toNat) / 2 = v := by have := b.toNat_lt; omega
    have hj' : j < 32 := by omega
    simp [Nat.testBit_succ, hhalf, hj']

/-- GetBits reads the next bits, the first the most significant. -/
theorem getBitsFrom_reads {field rest : List Bool} {d : Decoder} (v : Nat) (h : d.bitsAhead = field ++ rest) :
    ∃ d', getBitsFrom field.length (BitVec.ofNat 32 v) d = .ok (BitVec.ofNat 32 (valueFrom v field)) d' ∧
      d'.bitsAhead = rest ∧ Consumed field d d' := by
  induction field generalizing d v with
  | nil => exact ⟨d, rfl, h, consumed_nil d⟩
  | cons b field ih =>
    obtain ⟨d₁, hbit, hahead, hc₁⟩ := getBit_reads h
    obtain ⟨d₂, hfield, hrest, hc₂⟩ := ih (2 * v + b.toNat) hahead
    refine ⟨d₂, ?_, hrest, hc₁.trans hc₂⟩
    simpa only [List.length_cons, getBitsFrom, decM_bind, hbit, ofNat_shift_or, valueFrom] using hfield

/-- GetBits of more bits than the input has consumes them all and raises IO. -/
theorem getBitsFrom_short {n : Nat} {d : Decoder} (v : Word) (hshort : d.bitsAhead.length < n)
    (hf : failsAfterBytes d.source.script = true) :
    ∃ d', getBitsFrom n v d = .error .io d' ∧ d'.nbits = 0 ∧
      d'.bitcnt = d.bitcnt + BitVec.ofNat 32 d.bitsAhead.length := by
  induction n generalizing d v with
  | zero => exact absurd hshort (Nat.not_lt_zero _)
  | succ n ih =>
    cases hbits : d.bitsAhead with
    | nil =>
      obtain ⟨d', hbit, hn, hcnt⟩ := getBit_short hbits hf
      exact ⟨d', by simp only [getBitsFrom, decM_bind, hbit], hn, by simp [hcnt]⟩
    | cons b rest =>
      obtain ⟨d₁, hbit, hahead, hc⟩ := getBit_reads hbits
      rw [hbits, List.length_cons] at hshort
      obtain ⟨d', hfield, hn, hcnt⟩ := ih ((v <<< 1) ||| (BitVec.ofBool b).setWidth 32)
        (by rw [hahead]; omega) (hc.fails.trans hf)
      refine ⟨d', by simpa only [getBitsFrom, decM_bind, hbit] using hfield, hn, ?_⟩
      rw [hcnt, hc.bitcnt, hahead, BitVec.add_assoc, ← BitVec.ofNat_add, List.length_singleton, List.length_cons,
        Nat.add_comm]

theorem getBits_reads {n : Nat} {field rest : List Bool} {d : Decoder} (hlen : field.length = n)
    (h : d.bitsAhead = field ++ rest) :
    ∃ d', getBits n d = .ok (BitVec.ofNat 32 (valueOf field)) d' ∧ d'.bitsAhead = rest ∧ Consumed field d d' :=
  hlen ▸ getBitsFrom_reads 0 h

theorem getBits_short {n : Nat} {d : Decoder} (hshort : d.bitsAhead.length < n)
    (hf : failsAfterBytes d.source.script = true) :
    ∃ d', getBits n d = .error .io d' ∧ d'.nbits = 0 ∧ d'.bitcnt = d.bitcnt + BitVec.ofNat 32 d.bitsAhead.length :=
  getBitsFrom_short 0 hshort hf

/-! ### Commands -/

/-- DEC.GETBITS with a legal width on a channel without an error ends as its Body does (R93). -/
theorem exec_decGetbits {s : State} {n : BitVec 6} (hlo : 1 ≤ n.toNat) (hhi : n.toNat ≤ 32)
    (herr : s.dec.err = false) :
    exec (.decGetbits n) s = .next (s.setDec (Decoder.finish (s.dec.runBody (getBitsBody n.toNat)))) := by
  rw [exec_eq_setDec s _ rfl]
  simp [decEffect, decFrame, widthOk, hlo, hhi, herr]

theorem getBits_ok_streamOnly {n : Nat} {v : Word} {d d' : Decoder} (h : getBits n d = .ok v d') :
    DecStreamOnly d d' := by
  simpa only [h] using getBits_streamOnly n d

/-- Settles O17: the field is read from the bits ahead, then the result is written. -/
theorem decGetbitsReadsTheField : Obligations.DecGetbitsReadsTheField := by
  intro s n field rest hlo hhi herr hlen hahead
  obtain ⟨d, hget, hrest, hc⟩ := getBits_reads hlen hahead
  have hkept := getBits_ok_streamOnly hget
  have hbody : getBitsBody n.toNat s.dec = .ok () { d with
      rvalid := true, rkind := 4, rlen := 0, rint := BitVec.ofNat 32 (valueOf field), rbuf := d.rbuf.truncate 0 } :=
    (decM_bind _ _ _).trans (by rw [hget]; rfl)
  have hexec := exec_decGetbits hlo hhi herr
  simp only [Decoder.runBody, hbody] at hexec
  exact ⟨_, hexec, rfl, hkept.err.trans herr, hkept.ecode, rfl, rfl, rfl, rfl, hrest, hlen ▸ hc.bitcnt, hkept.inBase⟩

/-- Settles O18: the input ends inside the field, so the raise of IO comes before any result. -/
theorem decGetbitsOnShortInputRaisesIo : Obligations.DecGetbitsOnShortInputRaisesIo := by
  intro s n hlo hhi herr hshort hf
  obtain ⟨d, hget, hn, hcnt⟩ := getBits_short hshort hf
  have hbody : getBitsBody n.toNat s.dec = .error .io d := (decM_bind _ _ _).trans (by rw [hget])
  exact ⟨(d.raise .io).finish, by rw [exec_decGetbits hlo hhi herr, Decoder.runBody, hbody], rfl, rfl, rfl, rfl, rfl,
    rfl, rfl, rfl, hn, hcnt⟩

/-- Settles O25: DecAlign counts and discards the bits of CUR, so the next bit needs a Pull. -/
theorem decAlignSkipsToTheByteBoundary : Obligations.DecAlignSkipsToTheByteBoundary := by
  intro s herr
  have hexec : exec .decAlign s = .next (s.setDec { s.dec with
      running := none, nbits := 0, bitcnt := s.dec.bitcnt + BitVec.ofNat 32 s.dec.nbits.toNat }) := by
    rw [exec_eq_setDec s _ rfl]
    simp [decEffect, decFrame, herr, Decoder.runBody, decAlignBits, Decoder.finish]
  refine ⟨hexec, fun t b ht ha => ?_⟩
  obtain rfl := Host.Outcome.next.inj (hexec.symm.trans ht)
  exact ⟨_, getBit_pulls _ b rfl ha⟩

end Sys2Proof.Machine
end

section
/-! Reading codes and texts from the bits ahead of DEC (41_prefix_code.md R118, R120, R121, 43_decoder.md R140 to R144):
every piece of DEC.VALUE on a text value reads one bit string to its end, or ends with IO where the input ends inside
it. -/

namespace Sys2Proof.Machine

/-! ### Pieces that read one bit string -/

theorem decM_bind_of_ok {α β : Type} {x : DecM α} {f : α → DecM β} {a : α} {d d' : Decoder}
    (h : x d = .ok a d') : (x >>= f) d = f a d' := by
  simp only [decM_bind, h]

theorem decM_bind_of_error {α β : Type} {x : DecM α} {f : α → DecM β} {c : ErrorCode} {d d' : Decoder}
    (h : x d = .error c d') : (x >>= f) d = .error c d' := by
  simp only [decM_bind, h]

/-- With the bits bs next, x answers a and consumes exactly bs; where the input ends inside bs, x consumes what there is
and raises IO. -/
structure DecReads {α : Type} (bs : List Bool) (a : α) (x : DecM α) : Prop where
  full : ∀ {d : Decoder} {rest : List Bool}, d.bitsAhead = bs ++ rest →
    ∃ d', x d = .ok a d' ∧ d'.bitsAhead = rest ∧ Consumed bs d d'
  short : ∀ {d : Decoder} {missing : List Bool}, missing ≠ [] → d.bitsAhead ++ missing = bs →
    failsAfterBytes d.source.script = true →
      ∃ d', x d = .error .io d' ∧ d'.nbits = 0 ∧ d'.bitcnt = d.bitcnt + BitVec.ofNat 32 d.bitsAhead.length

/-- A piece that touches neither the input nor its count reads the empty bit string. -/
theorem decReads_nil {α : Type} {a : α} {x : DecM α}
    (h : ∀ d, ∃ d', x d = .ok a d' ∧ d'.bitsAhead = d.bitsAhead ∧ Consumed [] d d') : DecReads [] a x where
  full {d _} hahead := by
    obtain ⟨d', hx, hkept, hc⟩ := h d
    exact ⟨d', hx, hkept.trans hahead, hc⟩
  short hmissing hahead := absurd (List.append_eq_nil_iff.mp hahead).2 hmissing

theorem decReads_pure {α : Type} (a : α) : DecReads [] a (pure a) :=
  decReads_nil fun d => ⟨d, rfl, rfl, consumed_nil d⟩

theorem decReads_getBit (b : Bool) : DecReads [b] b getBit where
  full := getBit_reads
  short {d missing} hmissing hahead hf := by
    have hnone : d.bitsAhead = [] := by
      rcases List.append_eq_singleton_iff.mp hahead with ⟨hnil, -⟩ | ⟨-, hnil⟩
      · exact hnil
      · exact absurd hnil hmissing
    obtain ⟨d', hbit, hn, hcnt⟩ := getBit_short hnone hf
    exact ⟨d', hbit, hn, by simp [hcnt, hnone]⟩

theorem decReads_getBits {n : Nat} {field : List Bool} (hlen : field.length = n) :
    DecReads field (BitVec.ofNat 32 (valueOf field)) (getBits n) where
  full := getBits_reads hlen
  short {d missing} hmissing hahead := by
    have hpos := List.length_pos_iff.mpr hmissing
    have hsum : d.bitsAhead.length + missing.length = n := by rw [← List.length_append, hahead, hlen]
    exact getBits_short (by omega)

/-- Pieces in sequence read their bit strings in sequence. -/
theorem decReads_bind {α β : Type} {xs ys : List Bool} {a : α} {b : β} {x : DecM α} {f : α → DecM β}
    (hx : DecReads xs a x) (hf : DecReads ys b (f a)) : DecReads (xs ++ ys) b (x >>= f) where
  full {d rest} hahead := by
    obtain ⟨d₁, h₁, hahead₁, hc₁⟩ := hx.full (hahead.trans (List.append_assoc xs ys rest))
    obtain ⟨d₂, h₂, hahead₂, hc₂⟩ := hf.full hahead₁
    exact ⟨d₂, (decM_bind_of_ok h₁).trans h₂, hahead₂, hc₁.trans hc₂⟩
  short {d missing} hmissing hahead hfails := by
    have inSecond {ahead : List Bool} (hd : d.bitsAhead = xs ++ ahead) (hys : ahead ++ missing = ys) :
        ∃ d', (x >>= f) d = .error .io d' ∧ d'.nbits = 0 ∧
          d'.bitcnt = d.bitcnt + BitVec.ofNat 32 d.bitsAhead.length := by
      obtain ⟨d₁, h₁, hahead₁, hc₁⟩ := hx.full hd
      obtain ⟨d₂, h₂, hn, hcnt⟩ := hf.short hmissing (hahead₁ ▸ hys) (hc₁.fails.trans hfails)
      refine ⟨d₂, (decM_bind_of_ok h₁).trans h₂, hn, ?_⟩
      rw [hcnt, hc₁.bitcnt, hahead₁, hd, List.length_append, BitVec.ofNat_add, BitVec.add_assoc]
    rcases List.append_eq_append_iff.mp hahead with ⟨cut, hxs, hmiss⟩ | ⟨ahead, hd, hys⟩
    · rcases eq_or_ne cut [] with rfl | hcut
      · exact inSecond (ahead := []) (by rw [hxs, List.append_nil, List.append_nil]) hmiss
      · obtain ⟨d₁, h₁, hrest⟩ := hx.short hcut hxs.symm hfails
        exact ⟨d₁, decM_bind_of_error h₁, hrest⟩
    · exact inSecond hd hys.symm

/-- The first piece reads nothing. -/
theorem decReads_nil_bind {α β : Type} {bs : List Bool} {a : α} {b : β} {x : DecM α} {f : α → DecM β}
    (hx : DecReads [] a x) (hf : DecReads bs b (f a)) : DecReads bs b (x >>= f) :=
  decReads_bind hx hf

/-- The last piece reads nothing. -/
theorem decReads_bind_nil {α β : Type} {bs : List Bool} {a : α} {b : β} {x : DecM α} {f : α → DecM β}
    (hx : DecReads bs a x) (hf : DecReads [] b (f a)) : DecReads bs b (x >>= f) :=
  List.append_nil bs ▸ decReads_bind hx hf

/-! ### Bit strings as numbers (R54) -/

/-- Bit strings of one length are told apart by their values. -/
theorem valueFrom_inj {xs ys : List Bool} {v w : Nat} (hlen : xs.length = ys.length)
    (h : valueFrom v xs = valueFrom w ys) : v = w ∧ xs = ys := by
  induction xs generalizing ys v w with
  | nil =>
    obtain rfl := List.length_eq_zero_iff.mp hlen.symm
    exact ⟨h, rfl⟩
  | cons x xs ih =>
    cases ys with
    | nil => cases hlen
    | cons y ys =>
      obtain ⟨hhead, rfl⟩ := ih (Nat.succ.inj hlen) h
      have hx := x.toNat_lt
      have hy := y.toNat_lt
      have hbit : x.toNat = y.toNat := by omega
      have hxy : x = y := by cases x <;> cases y <;> simp at hbit ⊢
      exact ⟨by omega, by rw [hxy]⟩

theorem valueFrom_bitsOf (v n : Nat) (w : Word) : valueFrom v (bitsOf n w) = v * 2 ^ n + w.toNat % 2 ^ n := by
  induction n generalizing v with
  | zero => simp [bitsOf, valueFrom, Nat.mod_one]
  | succ n ih =>
    rw [bitsOf, valueFrom, ih, Nat.mod_pow_succ, pow_succ, BitVec.getLsbD, Nat.toNat_testBit]
    ring

theorem valueOf_bitsOf (n : Nat) (w : Word) : valueOf (bitsOf n w) = w.toNat % 2 ^ n := by
  rw [valueOf, valueFrom_bitsOf, Nat.zero_mul, Nat.zero_add]

theorem valueOf_byteBits (b : Byte) : valueOf (byteBits b) = b.toNat := by
  have hb := b.isLt
  rw [byteBits, valueOf_bitsOf, BitVec.toNat_setWidth]
  omega

/-! ### CodeDec follows the code (R120) -/

/-- What CodeDec needs of a table: every code fits the table's longest length and its own, and none begins another's
(R6, R118). -/
structure CodeTable.Readable (t : CodeTable) : Prop where
  fits : ∀ c ∈ t, c.len.toNat ≤ t.longest ∧ c.code.toNat < 2 ^ c.len.toNat
  prefixFree : ∀ {u v : Nat}, u < t.length → v < t.length → symbolBits t u <+: symbolBits t v → u = v

/-- A table whose codes are read one way from every long enough bit string has no code that begins another. -/
theorem readable_of_fits {t : CodeTable} (ht : t = tagc ∨ t = ascc ∨ t = fbc)
    (hfits : ∀ c ∈ t, c.len.toNat ≤ t.longest ∧ c.code.toNat < 2 ^ c.len.toNat) : t.Readable where
  fits := hfits
  prefixFree {u v} hu hv hpre := by
    obtain ⟨w, -, honly⟩ := everyBitStringStartsWithOneCode t (symbolBits t v ++ List.replicate t.longest false) ht
      (by simp)
    exact (honly u hu (hpre.trans (List.prefix_append _ _))).trans (honly v hv (List.prefix_append _ _)).symm

theorem tagc_readable : CodeTable.Readable tagc := readable_of_fits (.inl rfl) (by decide +kernel)
theorem ascc_readable : CodeTable.Readable ascc := readable_of_fits (.inr (.inl rfl)) (by decide +kernel)
theorem fbc_readable : CodeTable.Readable fbc := readable_of_fits (.inr (.inr rfl)) (by decide +kernel)

theorem symbolBits_of_lt {t : CodeTable} {v : Nat} (hv : v < t.length) :
    symbolBits t v = bitsOf t[v].len.toNat (t[v].code.setWidth 32) := by
  simp [symbolBits, hv]

theorem CodeTable.Readable.symbolBits_length_le_longest {t : CodeTable} (ht : t.Readable) (v : Nat) :
    (symbolBits t v).length ≤ t.longest :=
  symbolBits_length_le (fun c hc => (ht.fits c hc).1) v

/-- A code read as a number is the entry's CODE field (R55). -/
theorem CodeTable.Readable.valueOf_symbolBits {t : CodeTable} (ht : t.Readable) {v : Nat} (hv : v < t.length) :
    valueOf (symbolBits t v) = t[v].code.toNat := by
  rw [symbolBits_of_lt hv, valueOf_bitsOf, BitVec.toNat_setWidth_of_le (by decide)]
  exact Nat.mod_eq_of_lt (ht.fits _ (List.getElem_mem hv)).2

/-- R120's test succeeds exactly on the bits of a symbol's code. -/
theorem CodeTable.Readable.symbolOf_eq_some_iff {t : CodeTable} (ht : t.Readable) {bits : List Bool} {v : Nat} :
    t.symbolOf bits.length (valueOf bits) = some v ↔ v < t.length ∧ symbolBits t v = bits := by
  have sound {u : Nat} (h : t.symbolOf bits.length (valueOf bits) = some u) :
      u < t.length ∧ symbolBits t u = bits := by
    obtain ⟨hu, hcode, -⟩ := List.findIdx?_eq_some_iff_getElem.mp h
    simp only [Bool.and_eq_true, decide_eq_true_eq] at hcode
    obtain ⟨hlen, hval⟩ := hcode
    refine ⟨hu, (valueFrom_inj (v := 0) (w := 0) ?_ ?_).2⟩
    · rw [symbolBits_of_lt hu, bitsOf_length, hlen]
    · exact (ht.valueOf_symbolBits hu).trans hval
  refine ⟨sound, ?_⟩
  rintro ⟨hv, rfl⟩
  cases h : t.symbolOf (symbolBits t v).length (valueOf (symbolBits t v)) with
  | some u =>
    obtain ⟨hu, hbits⟩ := sound h
    exact congrArg some (ht.prefixFree hu hv (hbits ▸ List.prefix_refl _))
  | none =>
    have hno := List.findIdx?_eq_none_iff.mp h t[v] (List.getElem_mem hv)
    rw [ht.valueOf_symbolBits hv, symbolBits_of_lt hv] at hno
    simp at hno

theorem codeDecFrom_found {t : CodeTable} {more l acc v : Nat} (h : t.symbolOf l acc = some v) :
    codeDecFrom t more l acc = pure v := by
  unfold codeDecFrom
  rw [h]

theorem codeDecFrom_next {t : CodeTable} {more l acc : Nat} (h : t.symbolOf l acc = none) :
    codeDecFrom t (more + 1) l acc = getBit >>= fun b => codeDecFrom t more (l + 1) (2 * acc + b.toNat) := by
  rw [codeDecFrom, h]

/-- CodeDec in the middle of a code: the bits done give no symbol, and the bits to do lead it to the code's own. -/
theorem CodeTable.Readable.codeDecFrom_reads {t : CodeTable} (ht : t.Readable) {v : Nat} (hv : v < t.length)
    {done todo : List Bool} {more : Nat} (hcode : symbolBits t v = done ++ todo) (hmore : todo.length ≤ more) :
    DecReads todo v (codeDecFrom t more done.length (valueOf done)) := by
  induction todo generalizing done more with
  | nil =>
    rw [codeDecFrom_found (ht.symbolOf_eq_some_iff.mpr ⟨hv, hcode.trans (List.append_nil _)⟩)]
    exact decReads_pure v
  | cons b todo ih =>
    have hnone : t.symbolOf done.length (valueOf done) = none := by
      refine Option.eq_none_iff_forall_ne_some.mpr fun u h => ?_
      obtain ⟨hu, hbits⟩ := ht.symbolOf_eq_some_iff.mp h
      obtain rfl := ht.prefixFree hu hv (hbits ▸ hcode ▸ List.prefix_append _ _)
      simp [hbits] at hcode
    cases more with
    | zero => simp at hmore
    | succ more =>
      rw [codeDecFrom_next hnone]
      refine decReads_bind (decReads_getBit b) ?_
      have hrest := ih (done := done ++ [b]) (by rw [hcode, List.append_assoc, List.singleton_append])
        (Nat.le_of_succ_le_succ hmore)
      simpa only [List.length_append, List.length_singleton, valueOf, valueFrom_append, valueFrom] using hrest

/-- CodeDec reads the code of each symbol as that symbol. -/
theorem CodeTable.Readable.codeDec_reads {t : CodeTable} (ht : t.Readable) {v : Nat} (hv : v < t.length) :
    DecReads (symbolBits t v) v (codeDec t) :=
  ht.codeDecFrom_reads (done := []) hv rfl (ht.symbolBits_length_le_longest v)

/-- Settles O19: CodeDec follows the code of v to its end. -/
theorem codeDecReadsTheNextCode : Obligations.CodeDecReadsTheNextCode := by
  intro t v d rest ht hv hahead
  have hreadable : t.Readable := by
    rcases ht with rfl | rfl | rfl
    · exact tagc_readable
    · exact ascc_readable
    · exact fbc_readable
  obtain ⟨d', hdec, hrest, hc⟩ := (hreadable.codeDec_reads hv).full hahead
  exact ⟨d', hdec, hrest, hc.bitcnt⟩

/-! ### Texts (R142 to R144) -/

/-- One step of a text body that ends at the symbol `stop`: ReadAsciiBody (R142) and ReadUtf8Body (R143). -/
def nextCodedByte (t : CodeTable) (stop : Nat) : DecM (Option Byte) := do
  let v ← codeDec t
  pure (if v = stop then none else some (BitVec.ofNat 8 v))

theorem nextAsciiByte_eq : nextAsciiByte = nextCodedByte ascc 128 := rfl
theorem nextUtf8Byte_eq : nextUtf8Byte = nextCodedByte fbc 256 := rfl

theorem nextCodedByte_reads {t : CodeTable} (ht : t.Readable) {stop : Nat} {b : Byte} (hb : b.toNat < t.length)
    (hne : b.toNat ≠ stop) : DecReads (symbolBits t b.toNat) (some b) (nextCodedByte t stop) := by
  refine decReads_bind_nil (ht.codeDec_reads hb) ?_
  rw [if_neg hne, BitVec.ofNat_toNat, BitVec.setWidth_eq]
  exact decReads_pure (some b)

theorem nextCodedByte_ends {t : CodeTable} (ht : t.Readable) {stop : Nat} (hstop : stop < t.length) :
    DecReads (symbolBits t stop) none (nextCodedByte t stop) := by
  refine decReads_bind_nil (ht.codeDec_reads hstop) ?_
  rw [if_pos rfl]
  exact decReads_pure none

theorem nextAsciiByte_reads {b : Byte} (hb : b.toNat < 128) :
    DecReads (symbolBits ascc b.toNat) (some b) nextAsciiByte :=
  nextAsciiByte_eq ▸ nextCodedByte_reads ascc_readable (by rw [ascc_length]; omega) (by omega)

theorem nextAsciiByte_ends : DecReads (symbolBits ascc 128) none nextAsciiByte :=
  nextAsciiByte_eq ▸ nextCodedByte_ends ascc_readable (by rw [ascc_length]; omega)

theorem nextUtf8Byte_reads (b : Byte) : DecReads (symbolBits fbc b.toNat) (some b) nextUtf8Byte := by
  have hb := b.isLt
  exact nextUtf8Byte_eq ▸ nextCodedByte_reads fbc_readable (by rw [fbc_length]; omega) (by omega)

theorem nextUtf8Byte_ends : DecReads (symbolBits fbc 256) none nextUtf8Byte :=
  nextUtf8Byte_eq ▸ nextCodedByte_ends fbc_readable (by rw [fbc_length]; omega)

theorem ofNat_valueOf_byteBits (b : Byte) : BitVec.ofNat 32 (valueOf (byteBits b)) = b.setWidth 32 := by
  rw [valueOf_byteBits, BitVec.ofNat_toNat]

theorem nextRawByte_reads {b : Byte} (hb : b ≠ 0) : DecReads (byteBits b) (some b) nextRawByte := by
  have hread := decReads_getBits (byteBits_length b)
  rw [ofNat_valueOf_byteBits] at hread
  refine decReads_bind_nil hread ?_
  rw [if_neg (by bv_omega), BitVec.setWidth_setWidth_of_le _ (by decide), BitVec.setWidth_eq]
  exact decReads_pure (some b)

theorem nextRawByte_ends : DecReads (byteBits 0) none nextRawByte :=
  decReads_bind_nil (decReads_getBits (byteBits_length 0)) (decReads_pure none)

theorem storeResultByte_reads (n : Nat) (b : Byte) : DecReads [] () (storeResultByte n b) :=
  decReads_nil fun d => ⟨{ d with rbuf := d.rbuf.write n b }, rfl, rfl, { consumed_nil d with }⟩

theorem setTextResult_reads (tag : BitVec 3) (n : Nat) : DecReads [] () (setTextResult tag n) :=
  decReads_nil fun d => ⟨_, rfl, rfl, { consumed_nil d with }⟩

/-- The loop of the text bodies reads the bits of bytes that fit, one after the other, and the terminator. -/
theorem readText_reads {next : DecM (Option Byte)} {code : Byte → List Bool} {stop : List Bool}
    (hstop : DecReads stop none next) {text : List Byte} (hbyte : ∀ b ∈ text, DecReads (code b) (some b) next)
    {room n : Nat} (hroom : text.length ≤ room) :
    DecReads (text.flatMap code ++ stop) (n + text.length) (readText next room n) := by
  induction text generalizing room n with
  | nil => cases room <;> exact decReads_bind_nil hstop (decReads_pure n)
  | cons b text ih =>
    obtain ⟨hb, htext⟩ := List.forall_mem_cons.mp hbyte
    cases room with
    | zero => simp at hroom
    | succ room =>
      have hrest := ih htext (n := n + 1) (Nat.le_of_succ_le_succ hroom)
      rw [List.flatMap_cons, List.append_assoc, List.length_cons, Nat.add_comm text.length, ← Nat.add_assoc]
      refine decReads_bind hb ?_
      exact decReads_nil_bind (storeResultByte_reads n b) hrest

/-- The body of DEC.VALUE reads a text value that fits (R140). -/
theorem valueBody_reads {kind : ValueKind} (hkind : kind ≠ .int) {text : List Byte} {resMax : Nat}
    (hfits : (keptText kind text).length ≤ resMax) : DecReads (textWire kind text) () (valueBody resMax) := by
  have body {next : DecM (Option Byte)} {code : Byte → List Bool} {stop : List Bool} (tag : BitVec 3)
      (hstop : DecReads stop none next) (hbyte : ∀ b ∈ keptText kind text, DecReads (code b) (some b) next) :
      DecReads ((keptText kind text).flatMap code ++ stop) () (readText next resMax 0 >>= setTextResult tag) :=
    decReads_bind_nil (readText_reads hstop hbyte hfits) (setTextResult_reads tag _)
  have tagRead (v : Nat) (hv : v < tagc.length) := tagc_readable.codeDec_reads hv
  cases kind with
  | ascii =>
    refine decReads_bind (tagRead 0 (by decide)) (body 0 nextAsciiByte_ends fun b hb => ?_)
    exact nextAsciiByte_reads (of_decide_eq_true (List.mem_filter.mp hb).2)
  | utf8 => exact decReads_bind (tagRead 1 (by decide)) (body 1 nextUtf8Byte_ends fun b _ => nextUtf8Byte_reads b)
  | raw =>
    refine decReads_bind (tagRead 2 (by decide)) (body 2 nextRawByte_ends fun b hb => ?_)
    exact nextRawByte_reads (of_decide_eq_true (List.mem_filter.mp hb).2)
  | int => exact absurd rfl hkind

/-- DEC.VALUE on a channel without an error ends as its Body does (R93). -/
theorem exec_decValue {s : State} (herr : s.dec.err = false) :
    exec .decValue s = .next (s.setDec (Decoder.finish (s.dec.runBody (valueBody s.params.resMax)))) := by
  rw [exec_eq_setDec s _ rfl]
  simp [decEffect, decFrame, herr]

/-- Settles O23: the Body reads the whole value, so an input that ends inside it raises IO before any result. -/
theorem decValueOnShortInputRaisesIo : Obligations.DecValueOnShortInputRaisesIo := by
  intro s kind text missing herr hkind hfits hmissing hahead hf
  obtain ⟨d, hbody, hn, hcnt⟩ := (valueBody_reads hkind hfits).short hmissing hahead hf
  exact ⟨(d.raise .io).finish, by rw [exec_decValue herr, Decoder.runBody, hbody], rfl, rfl, rfl, rfl, rfl, rfl, rfl,
    rfl, hn, hcnt⟩

end Sys2Proof.Machine
end

section
/-! Table construction (41_prefix_code.md R108 to R118): whatever the lengths, no canonical code begins with
another; a merge keeps the leaves and their Kraft sum; and the three weight lists seal to the three tables. -/

namespace Sys2Proof.Machine

/-! ### Sorting by length (R114) -/

theorem insertByLength_perm (p : Nat × Nat) (qs : List (Nat × Nat)) : (insertByLength p qs).Perm (p :: qs) := by
  induction qs with
  | nil => rfl
  | cons q qs ih =>
    unfold insertByLength
    split
    · rfl
    · exact (ih.cons q).trans (.swap p q qs)

theorem sortedByLength_perm (lengths : List Nat) :
    (sortedByLength lengths).Perm (lengths.mapIdx fun v l => (l, v)) := by
  unfold sortedByLength
  induction lengths.mapIdx fun v l => (l, v) with
  | nil => rfl
  | cons p ps ih => exact (insertByLength_perm p _).trans (ih.cons p)

theorem insertByLength_sorted {p : Nat × Nat} {qs : List (Nat × Nat)} (h : qs.Pairwise fun x y => x.1 ≤ y.1) :
    (insertByLength p qs).Pairwise fun x y => x.1 ≤ y.1 := by
  induction qs with
  | nil => simp [insertByLength]
  | cons q qs ih =>
    obtain ⟨hq, hqs⟩ := List.pairwise_cons.mp h
    unfold insertByLength
    split
    · have hpq : p.1 ≤ q.1 := by omega
      exact List.pairwise_cons.mpr ⟨List.forall_mem_cons.mpr ⟨hpq, fun x hx => hpq.trans (hq x hx)⟩, h⟩
    · refine List.pairwise_cons.mpr ⟨fun x hx => ?_, ih hqs⟩
      rcases List.mem_cons.mp ((insertByLength_perm p qs).mem_iff.mp hx) with rfl | hx
      · omega
      · exact hq x hx

theorem sortedByLength_sorted (lengths : List Nat) : (sortedByLength lengths).Pairwise fun x y => x.1 ≤ y.1 := by
  unfold sortedByLength
  induction lengths.mapIdx fun v l => (l, v) with
  | nil => exact .nil
  | cons p ps ih => exact insertByLength_sorted ih

theorem mem_sortedByLength {lengths : List Nat} {v l : Nat} :
    (l, v) ∈ sortedByLength lengths ↔ lengths[v]? = some l := by
  rw [(sortedByLength_perm lengths).mem_iff, List.mem_mapIdx, List.getElem?_eq_some_iff]
  simp [and_comm, Prod.ext_iff]

/-- Each symbol stands once in the sorted list. -/
theorem sortedByLength_symbols_nodup (lengths : List Nat) : ((sortedByLength lengths).map Prod.snd).Nodup := by
  have hrange : (lengths.mapIdx fun v l => (l, v)).map Prod.snd = List.range lengths.length :=
    List.ext_getElem (by simp) fun j _ _ => by simp
  exact ((sortedByLength_perm lengths).map Prod.snd).nodup_iff.mpr (hrange ▸ List.nodup_range)

/-! ### Canonical codes (R114) -/

theorem depthOf_cons_self (v d : Nat) (ls : List (Nat × Nat)) : depthOf v ((v, d) :: ls) = d := if_pos rfl

theorem depthOf_cons_ne {u v : Nat} (h : u ≠ v) (d : Nat) (ls : List (Nat × Nat)) :
    depthOf v ((u, d) :: ls) = depthOf v ls := if_neg h

/-- The code of y, cut to the length of x, is above the code of x. -/
def CodeAbove (codes : List (Nat × Nat)) (x y : Nat × Nat) : Prop :=
  (depthOf x.2 codes + 1) <<< (y.1 - x.1) ≤ depthOf y.2 codes

theorem CodeAbove.cons {codes : List (Nat × Nat)} {x y : Nat × Nat} {v : Nat} (h : CodeAbove codes x y)
    (hx : v ≠ x.2) (hy : v ≠ y.2) (c : Nat) : CodeAbove ((v, c) :: codes) x y := by
  unfold CodeAbove
  rw [depthOf_cons_ne hx, depthOf_cons_ne hy]
  exact h

theorem CodeAbove.trans {codes : List (Nat × Nat)} {x y z : Nat × Nat} (hxy : CodeAbove codes x y)
    (hyz : CodeAbove codes y z) (hlxy : x.1 ≤ y.1) (hlyz : y.1 ≤ z.1) : CodeAbove codes x z := by
  unfold CodeAbove at *
  have hcut : z.1 - x.1 = (y.1 - x.1) + (z.1 - y.1) := by omega
  rw [Nat.shiftLeft_eq _ (z.1 - y.1)] at hyz
  calc (depthOf x.2 codes + 1) <<< (z.1 - x.1)
      = (depthOf x.2 codes + 1) <<< (y.1 - x.1) * 2 ^ (z.1 - y.1) := by
        rw [hcut, Nat.shiftLeft_add, Nat.shiftLeft_eq _ (z.1 - y.1)]
    _ ≤ (depthOf y.2 codes + 1) * 2 ^ (z.1 - y.1) := Nat.mul_le_mul_right _ (hxy.trans (Nat.le_succ _))
    _ ≤ depthOf z.2 codes := hyz

/-- Along the sorted symbols every code is above those before it. -/
theorem assignCodes_above {l v c : Nat} {rest : List (Nat × Nat)}
    (hsorted : ((l, v) :: rest).Pairwise fun x y => x.1 ≤ y.1) (hnodup : (((l, v) :: rest).map Prod.snd).Nodup) :
    ((l, v) :: rest).Pairwise (CodeAbove ((v, c) :: assignCodes l c rest)) := by
  induction rest generalizing l v c with
  | nil => exact List.pairwise_singleton _ _
  | cons next rest ih =>
    obtain ⟨l', v'⟩ := next
    obtain ⟨hle, hsorted'⟩ := List.pairwise_cons.mp hsorted
    obtain ⟨hnew, hnodup'⟩ := List.nodup_cons.mp hnodup
    have hne : ∀ y ∈ (l', v') :: rest, v ≠ y.2 := fun y hy hv => hnew (List.mem_map.mpr ⟨y, hy, hv.symm⟩)
    have hnext : CodeAbove ((v, c) :: assignCodes l c ((l', v') :: rest)) (l, v) (l', v') := by
      unfold CodeAbove
      rw [depthOf_cons_self, depthOf_cons_ne (hne _ List.mem_cons_self), assignCodes, depthOf_cons_self]
    have habove := (ih (c := (c + 1) <<< (l' - l)) hsorted' hnodup').imp_of_mem
      fun hx hy h => h.cons (hne _ hx) (hne _ hy) c
    obtain ⟨hfirst, -⟩ := List.pairwise_cons.mp habove
    obtain ⟨hle', -⟩ := List.pairwise_cons.mp hsorted'
    refine List.pairwise_cons.mpr ⟨List.forall_mem_cons.mpr ⟨hnext, fun y hy => ?_⟩, habove⟩
    exact hnext.trans (hfirst y hy) (hle _ List.mem_cons_self) (hle' y hy)

theorem canonicalCodes_above (lengths : List Nat) :
    (sortedByLength lengths).Pairwise (CodeAbove (canonicalCodes lengths)) := by
  have hsorted := sortedByLength_sorted lengths
  have hnodup := sortedByLength_symbols_nodup lengths
  unfold canonicalCodes
  cases h : sortedByLength lengths with
  | nil => exact .nil
  | cons first rest =>
    rw [h] at hsorted hnodup
    exact assignCodes_above hsorted hnodup

/-- Neither code begins with the other. -/
def CodesApart (codes : List (Nat × Nat)) (x y : Nat × Nat) : Prop :=
  (x.1 ≤ y.1 → depthOf y.2 codes >>> (y.1 - x.1) ≠ depthOf x.2 codes) ∧
  (y.1 ≤ x.1 → depthOf x.2 codes >>> (x.1 - y.1) ≠ depthOf y.2 codes)

theorem CodeAbove.apart {codes : List (Nat × Nat)} {x y : Nat × Nat} (hle : x.1 ≤ y.1) (h : CodeAbove codes x y) :
    CodesApart codes x y := by
  unfold CodeAbove at h
  rw [Nat.shiftLeft_eq] at h
  have hcut : depthOf x.2 codes < depthOf y.2 codes >>> (y.1 - x.1) := by
    rw [Nat.shiftRight_eq_div_pow]
    exact (Nat.le_div_iff_mul_le (Nat.two_pow_pos _)).mpr h
  refine ⟨fun _ => hcut.ne', fun hge => ?_⟩
  simpa [Nat.le_antisymm hle hge] using hcut.ne

theorem sealCodes_getElem? {lengths : List Nat} {v c : Nat} (h : (sealCodes lengths)[v]? = some c) :
    depthOf v (canonicalCodes lengths) = c := by
  obtain ⟨hv, rfl⟩ := List.getElem?_eq_some_iff.mp h
  simp [sealCodes]

/-- Whatever the lengths, no canonical code begins with another (R118). -/
theorem canonicalCodes_apart (lengths : List Nat) {x y : Nat × Nat} (hx : x ∈ sortedByLength lengths)
    (hy : y ∈ sortedByLength lengths) (hne : x ≠ y) : CodesApart (canonicalCodes lengths) x y := by
  have hsymm : Std.Symm (CodesApart (canonicalCodes lengths)) := ⟨fun _ _ h => h.symm⟩
  have hpairs := ((sortedByLength_sorted lengths).and (canonicalCodes_above lengths)).imp
    fun ⟨hle, habove⟩ => habove.apart hle
  exact hpairs.forall hx hy hne

/-- Settles O36: the codes of u and v stand in the canonical order of their lengths. -/
theorem constructedCodesArePrefixFree : Obligations.ConstructedCodesArePrefixFree := by
  intro freq u v lu lv cu cv _ hne hlu hlv hcu hcv hle
  have hapart := canonicalCodes_apart _ (mem_sortedByLength.mpr hlu) (mem_sortedByLength.mpr hlv)
    fun h => hne (Prod.mk.inj h).2
  rw [← sealCodes_getElem? hcu, ← sealCodes_getElem? hcv]
  exact hapart.1 hle

/-! ### Merging the pool (R113) -/

theorem extractLeast_perm (a : PoolNode) (pool : List PoolNode) :
    ((extractLeast a pool).1 :: (extractLeast a pool).2).Perm (a :: pool) := by
  induction pool generalizing a with
  | nil => rfl
  | cons b pool ih =>
    unfold extractLeast
    split
    · exact (List.Perm.swap _ _ _).trans ((ih b).cons a)
    · exact (List.Perm.swap _ _ _).trans (((ih a).cons b).trans (.swap a b pool))

/-- One turn of the loop takes two elements out of a pool of two or more and puts their merge in. -/
theorem mergePool_succ {pool : List PoolNode} (hlen : 2 ≤ pool.length) (merges next : Nat) :
    ∃ a b others, (a :: b :: others).Perm pool ∧
      mergePool (merges + 1) next pool = mergePool merges (next + 1) (a.merge b next :: others) := by
  cases pool with
  | nil => simp at hlen
  | cons p pool =>
    have hleast := extractLeast_perm p pool
    rcases hfirst : extractLeast p pool with ⟨a, rest⟩
    rw [hfirst] at hleast
    cases rest with
    | nil => simp [← hleast.length_eq] at hlen
    | cons q rest =>
      have hsecond := extractLeast_perm q rest
      exact ⟨a, _, _, (hsecond.cons a).trans hleast, by simp only [mergePool, hfirst]⟩

/-! ### Complete leaf sets (R118) -/

/-- The sum of 2^-depth over the leaves. -/
def kraftSum (leaves : List (Nat × Nat)) : ℚ := (leaves.map fun l => (1 / 2 : ℚ) ^ l.2).sum

/-- The symbols of a pool's leaves. -/
def poolSymbols (pool : List PoolNode) : List Nat := pool.flatMap fun p => p.leaves.map Prod.fst

/-- Every element of the pool is a complete tree, and their leaves are the n symbols, each once. -/
structure CompletePool (n : Nat) (pool : List PoolNode) : Prop where
  kraft : ∀ p ∈ pool, kraftSum p.leaves = 1
  symbols : (poolSymbols pool).Perm (List.range n)

theorem initialPool_complete (freq : List Nat) : CompletePool freq.length (initialPool freq) where
  kraft p hp := by
    obtain ⟨v, hv, rfl⟩ := List.mem_mapIdx.mp hp
    simp [kraftSum]
  symbols := by
    have hleaf : ∀ p ∈ initialPool freq, p.leaves.map Prod.fst = [p.order] := fun p hp => by
      obtain ⟨v, hv, rfl⟩ := List.mem_mapIdx.mp hp
      rfl
    have horders : (initialPool freq).map PoolNode.order = List.range freq.length :=
      List.ext_getElem (by simp [initialPool]) fun j _ _ => by simp [initialPool]
    rw [poolSymbols, List.flatMap_congr hleaf, ← List.map_eq_flatMap, horders]

/-- Two complete trees hung below one node are a complete tree. -/
theorem kraftSum_merge (a b : PoolNode) (order : Nat) :
    kraftSum (a.merge b order).leaves = (kraftSum a.leaves + kraftSum b.leaves) / 2 := by
  have hdeeper (ls : List (Nat × Nat)) : kraftSum (ls.map fun l => (l.1, l.2 + 1)) = kraftSum ls / 2 := by
    simp only [kraftSum, List.map_map, Function.comp_def, pow_succ, List.sum_map_mul_right]
    ring
  rw [PoolNode.merge, hdeeper]
  simp [kraftSum]

theorem poolSymbols_merge (a b : PoolNode) (order : Nat) (others : List PoolNode) :
    poolSymbols (a.merge b order :: others) = poolSymbols (a :: b :: others) := by
  simp [poolSymbols, PoolNode.merge, Function.comp_def]

/-- n - 1 merges leave one complete tree. -/
theorem mergePool_complete {n merges : Nat} (next : Nat) {pool : List PoolNode} (hlen : pool.length = merges + 1)
    (h : CompletePool n pool) : ∃ root, mergePool merges next pool = [root] ∧ CompletePool n [root] := by
  induction merges generalizing next pool with
  | zero =>
    obtain ⟨root, rfl⟩ := List.length_eq_one_iff.mp hlen
    exact ⟨root, rfl, h⟩
  | succ merges ih =>
    obtain ⟨a, b, others, hperm, hmerge⟩ := mergePool_succ (pool := pool) (by omega) merges next
    obtain ⟨ha, hb, hothers⟩ :
        kraftSum a.leaves = 1 ∧ kraftSum b.leaves = 1 ∧ ∀ p ∈ others, kraftSum p.leaves = 1 := by
      simpa using fun p hp => h.kraft p (hperm.mem_iff.mp hp)
    rw [hmerge]
    refine ih (next + 1) (by simpa [hlen] using hperm.length_eq) ⟨List.forall_mem_cons.mpr ⟨?_, hothers⟩, ?_⟩
    · rw [kraftSum_merge, ha, hb]
      norm_num
    · rw [poolSymbols_merge]
      exact (hperm.flatMap_right _).trans h.symbols

/-! ### The lengths of a sealed table (R113, R118) -/

theorem depthOf_of_mem {leaves : List (Nat × Nat)} (hnodup : (leaves.map Prod.fst).Nodup) {l : Nat × Nat}
    (hl : l ∈ leaves) : depthOf l.1 leaves = l.2 := by
  induction leaves with
  | nil => cases hl
  | cons first leaves ih =>
    obtain ⟨hnew, hnodup'⟩ := List.nodup_cons.mp hnodup
    rcases List.mem_cons.mp hl with rfl | hl
    · exact depthOf_cons_self _ _ _
    · exact (depthOf_cons_ne (fun h => hnew (List.mem_map.mpr ⟨l, hl, h.symm⟩)) _ _).trans (ih hnodup' hl)

/-- The code lengths are the depths of the leaves of one complete tree. -/
theorem sealLengths_complete {freq : List Nat} (hpos : 1 ≤ freq.length) :
    ∃ leaves, kraftSum leaves = 1 ∧ (sealLengths freq).Perm (leaves.map Prod.snd) := by
  obtain ⟨root, hroot, hcomplete⟩ := mergePool_complete (merges := freq.length - 1) freq.length
    (by simp [initialPool]; omega) (initialPool_complete freq)
  have hsymbols : (root.leaves.map Prod.fst).Perm (List.range freq.length) := by
    simpa [poolSymbols] using hcomplete.symbols
  have hnodup := hsymbols.nodup_iff.mpr List.nodup_range
  refine ⟨root.leaves, hcomplete.kraft root List.mem_cons_self, ?_⟩
  have hdepths : (root.leaves.map Prod.fst).map (depthOf · root.leaves) = root.leaves.map Prod.snd := by
    rw [List.map_map]
    exact List.map_congr_left fun l hl => depthOf_of_mem hnodup hl
  simp only [sealLengths, hroot, List.flatMap_singleton]
  exact hdepths ▸ (hsymbols.map _).symm

/-- The Kraft sum scaled by 2^m, for an m no depth exceeds. -/
theorem sum_two_pow_sub_depth {leaves : List (Nat × Nat)} {m : Nat} (hm : ∀ l ∈ leaves, l.2 ≤ m) :
    ((leaves.map fun l => 2 ^ (m - l.2)).sum : Nat) = 2 ^ m * kraftSum leaves := by
  induction leaves with
  | nil => simp [kraftSum]
  | cons l leaves ih =>
    obtain ⟨hl, hleaves⟩ := List.forall_mem_cons.mp hm
    have hrest := ih hleaves
    have hdepth : (2 : ℚ) ^ (m - l.2) = 2 ^ m * (1 / 2) ^ l.2 := by
      rw [pow_sub₀ _ two_ne_zero hl, one_div, inv_pow]
    simp only [kraftSum, List.map_cons, List.sum_cons] at hrest ⊢
    rw [Nat.cast_add, hrest, mul_add, ← hdepth]
    norm_num

/-- Settles O35: the lengths are the depths of one complete tree. -/
theorem constructedLengthsAreComplete : Obligations.ConstructedLengthsAreComplete := by
  intro freq m hlen hm
  obtain ⟨leaves, hkraft, hperm⟩ := sealLengths_complete (freq := freq) (by omega)
  have hdepths : ((sealLengths freq).map fun l => 2 ^ (m - l)).sum = (leaves.map fun l => 2 ^ (m - l.2)).sum := by
    rw [(hperm.map _).sum_eq, List.map_map]
    rfl
  have hsum := sum_two_pow_sub_depth (m := m) fun l hl => hm _ (hperm.mem_iff.mpr (List.mem_map_of_mem hl))
  rw [hkraft, mul_one] at hsum
  rw [hdepths]
  exact_mod_cast hsum

/-! ### The three tables (R122 to R129) -/

/-- The Tag table's weights (R122). -/
def tagWeights : List Nat := [16, 8, 4, 1]

/-- The weights of symbols 0 to 127 in both byte tables, run by run (R123): digits, upper case and lower case stand
above the baseline. -/
def lowWeights : List Nat :=
  List.replicate 48 1 ++ List.replicate 10 11 ++ List.replicate 7 1 ++ List.replicate 26 21 ++ List.replicate 6 1 ++
    List.replicate 26 31 ++ List.replicate 5 1

/-- The ASCII-alphabet table's weights (R123): symbol 128 is the terminator. -/
def asciiWeights : List Nat := lowWeights ++ [1]

/-- The Full-byte-alphabet table's weights (R124): bytes 128 to 255, and 256, the terminator. -/
def fullByteWeights : List Nat := lowWeights ++ List.replicate 128 6 ++ [1]

/-- The builder's calls leave these weights, and the construction gives them the table's lengths and codes. -/
structure SealsTo (builder : Except ContractViolation Builder) (freq : List Nat) (t : CodeTable) : Prop where
  weights : builder = .ok ⟨freq, false⟩
  lengths : sealLengths freq = t.map fun c => c.len.toNat
  codes : sealCodes (t.map fun c => c.len.toNat) = t.map fun c => c.code.toNat

/-- A table is its lengths and codes in the fields of R19. -/
theorem map_zip_len_code (t : CodeTable) :
    ((t.map fun c => c.len.toNat).zip (t.map fun c => c.code.toNat)).map
      (fun lc => (⟨BitVec.ofNat 4 lc.1, BitVec.ofNat 11 lc.2⟩ : Code)) = t := by
  induction t with
  | nil => rfl
  | cons c t ih => simpa using ih

theorem SealsTo.sealedTable {builder : Except ContractViolation Builder} {freq : List Nat} {t : CodeTable}
    (h : SealsTo builder freq t) : (builder.bind Builder.sealedTable).toOption = some t := by
  obtain ⟨rfl, hlengths, hcodes⟩ := h
  simp only [Except.bind, Builder.sealedTable, Builder.seal, hlengths, hcodes, Bool.false_eq_true, if_false]
  exact congrArg some (map_zip_len_code t)

theorem SealsTo.weightedSum {builder : Except ContractViolation Builder} {freq : List Nat} {t : CodeTable}
    (h : SealsTo builder freq t) {n : Nat} (hsum : weightedLength freq (t.map fun c => c.len.toNat) = n) :
    (builder.map fun b => weightedLength b.freq (t.map fun c => c.len.toNat)).toOption = some n := by
  obtain ⟨rfl, -, -⟩ := h
  exact congrArg some hsum

theorem tagBuilder_sealsTo : SealsTo tagBuilder tagWeights tagc where
  weights := by decide +kernel
  lengths := by decide +kernel
  codes := by decide +kernel

theorem asciiBuilder_sealsTo : SealsTo asciiBuilder asciiWeights ascc where
  weights := by decide +kernel
  lengths := by decide +kernel
  codes := by decide +kernel

theorem fullByteBuilder_sealsTo : SealsTo fullByteBuilder fullByteWeights fbc where
  weights := by decide +kernel
  lengths := by decide +kernel
  codes := by decide +kernel

/-- Settles O34: each builder seals to its table, and the sums are those of its weights. -/
theorem tablesMatchTheConstruction : Obligations.TablesMatchTheConstruction :=
  ⟨tagBuilder_sealsTo.sealedTable, asciiBuilder_sealsTo.sealedTable, fullByteBuilder_sealsTo.sealedTable,
    tagBuilder_sealsTo.weightedSum (by decide +kernel), asciiBuilder_sealsTo.weightedSum (by decide +kernel),
    fullByteBuilder_sealsTo.weightedSum (by decide +kernel)⟩

end Sys2Proof.Machine
end

section
/-! A text read back (30_encoding.md R79, 42_encoder.md R136, R139, 43_decoder.md R140 to R149): the bytes DEC.VALUE
reads stand in RBUF in their order, so what ENC.ASCII, ENC.UTF8, ENC.RAW and ENC.AUTO add to a stream is returned as
the kept text of its kind; the kind ENC.AUTO selects keeps every byte. -/

namespace Sys2Proof.Machine

/-! ### Reading the next byte leaves RBUF alone -/

/-- x leaves RBUF as it was when it answers. -/
structure KeepsRbuf {α : Type} (x : DecM α) : Prop where
  rbuf : ∀ {d d' : Decoder} {a : α}, x d = .ok a d' → d'.rbuf = d.rbuf

/-- What touches the stream registers alone keeps RBUF. -/
theorem DecKeeps.keepsRbuf {α : Type} {x : DecM α} (h : DecKeeps DecStreamOnly x) : KeepsRbuf x where
  rbuf {d d' a} hx := by
    have hkept := h d
    simp only [hx] at hkept
    exact hkept.rbuf

theorem nextCodedByte_keepsRbuf (t : CodeTable) (stop : Nat) : KeepsRbuf (nextCodedByte t stop) :=
  DecKeeps.keepsRbuf <|
    decKeeps_bind decStreamOnly_trans (codeDec_streamOnly t) fun _ => decKeeps_pure decStreamOnly_refl _

theorem nextAsciiByte_keepsRbuf : KeepsRbuf nextAsciiByte := nextAsciiByte_eq ▸ nextCodedByte_keepsRbuf ascc 128

theorem nextUtf8Byte_keepsRbuf : KeepsRbuf nextUtf8Byte := nextUtf8Byte_eq ▸ nextCodedByte_keepsRbuf fbc 256

theorem nextRawByte_keepsRbuf : KeepsRbuf nextRawByte :=
  DecKeeps.keepsRbuf <|
    decKeeps_bind decStreamOnly_trans (getBits_streamOnly 8) fun _ => decKeeps_pure decStreamOnly_refl _

/-! ### The bytes of a text in RBUF (R141) -/

/-- The bytes of text stand in m' from index n on, and m' is m below n. -/
structure StoredFrom (n : Nat) (text : List Byte) (m m' : Memory) : Prop where
  below : ∀ j < n, m'.read j = m.read j
  bytes : ∀ {j : Nat} {b : Byte}, text[j]? = some b → m'.read (n + j) = some b

theorem storedFrom_nil (n : Nat) (m : Memory) : StoredFrom n [] m m where
  below _ _ := rfl
  bytes h := by simp at h

/-- Append stores one byte, and the rest of the text goes behind it. -/
theorem StoredFrom.cons {n : Nat} {b : Byte} {text : List Byte} {m m' : Memory}
    (h : StoredFrom (n + 1) text (m.write n b) m') : StoredFrom n (b :: text) m m' where
  below j hj := (h.below j (by omega)).trans (memory_read_write_other m n j b (by omega))
  bytes {j c} hc := by
    cases j with
    | zero =>
      obtain rfl : b = c := by simpa using hc
      exact (h.below n (Nat.lt_succ_self n)).trans (memory_read_write_same m n b)
    | succ j =>
      have hread := h.bytes (by simpa using hc)
      rwa [Nat.add_right_comm, Nat.add_assoc] at hread

/-- The loop of the text bodies stores the bytes it reads one behind the other. -/
theorem readText_stores {next : DecM (Option Byte)} {code : Byte → List Bool} {stop : List Bool}
    (hnext : KeepsRbuf next) (hstop : DecReads stop none next) {text : List Byte}
    (hbyte : ∀ b ∈ text, DecReads (code b) (some b) next) {room n : Nat} (hroom : text.length ≤ room) {d : Decoder}
    {rest : List Bool} (hahead : d.bitsAhead = text.flatMap code ++ (stop ++ rest)) :
    ∃ d', readText next room n d = .ok (n + text.length) d' ∧ StoredFrom n text d.rbuf d'.rbuf := by
  induction text generalizing room n d with
  | nil =>
    obtain ⟨d₁, hend, -, -⟩ := hstop.full hahead
    refine ⟨d₁, ?_, hnext.rbuf hend ▸ storedFrom_nil n _⟩
    cases room <;> exact decM_bind_of_ok hend
  | cons b text ih =>
    obtain ⟨hb, htext⟩ := List.forall_mem_cons.mp hbyte
    cases room with
    | zero => simp at hroom
    | succ room =>
      rw [List.flatMap_cons, List.append_assoc] at hahead
      obtain ⟨d₁, hread, hahead₁, -⟩ := hb.full hahead
      obtain ⟨d', hloop, hstored⟩ := ih (n := n + 1) (d := { d₁ with rbuf := d₁.rbuf.write n b }) htext
        (Nat.le_of_succ_le_succ hroom) hahead₁
      refine ⟨d', (decM_bind_of_ok hread).trans ?_, StoredFrom.cons (hnext.rbuf hread ▸ hstored)⟩
      rwa [List.length_cons, Nat.add_comm text.length, ← Nat.add_assoc]

/-! ### The result of a text value (R146) -/

/-- The result registers of DEC hold a text under its Tag symbol. -/
structure TextResult (tag : BitVec 3) (text : List Byte) (d : Decoder) : Prop where
  rvalid : d.rvalid = true
  rkind : d.rkind = tag
  rlen : d.rlen = BitVec.ofNat 15 text.length
  rint : d.rint = 0
  bytes : ∀ {j : Nat} {b : Byte}, text[j]? = some b → d.rbuf.read j = some b

theorem TextResult.finish {tag : BitVec 3} {text : List Byte} {d : Decoder} (h : TextResult tag text d) :
    TextResult tag text d.finish := { h with }

/-- RLEN counts a text that fits RES_MAX: it has 15 bits and RES_MAX is at most 16384 (R7, R40). -/
theorem TextResult.rlen_toNat {tag : BitVec 3} {text : List Byte} {d : Decoder} (h : TextResult tag text d)
    {p : Params} (hwf : p.wf = true) (hfits : text.length ≤ p.resMax) : d.rlen.toNat = text.length := by
  simp only [Params.wf, Bool.and_eq_true, decide_eq_true_eq] at hwf
  rw [h.rlen, BitVec.toNat_ofNat, Nat.mod_eq_of_lt (by omega)]

/-- The host reads the bytes of a text that fits, whatever it reads elsewhere (R43). -/
theorem TextResult.rbufRead {tag : BitVec 3} {text : List Byte} {d : Decoder} (h : TextResult tag text d)
    {p : Params} (hwf : p.wf = true) (hfits : text.length ≤ p.resMax) {j : Nat} {b : Byte}
    (hb : text[j]? = some b) (free : Byte) : d.rbufRead p.resMax j free = b := by
  obtain ⟨hj, -⟩ := List.getElem?_eq_some_iff.mp hb
  have hroom : ¬p.resMax ≤ j := by omega
  simp [Decoder.rbufRead, hroom, h.rvalid, h.rlen_toNat hwf hfits, hj, h.bytes hb]

/-- The body of a text value leaves the text as the result. -/
theorem textBody_stores {next : DecM (Option Byte)} {code : Byte → List Bool} {stop : List Bool}
    (hnext : KeepsRbuf next) (hstop : DecReads stop none next) {text : List Byte}
    (hbyte : ∀ b ∈ text, DecReads (code b) (some b) next) {resMax : Nat} (hfits : text.length ≤ resMax)
    (tag : BitVec 3) {d : Decoder} {rest : List Bool}
    (hahead : d.bitsAhead = text.flatMap code ++ (stop ++ rest)) :
    ∃ d', (readText next resMax 0 >>= setTextResult tag) d = .ok () d' ∧ TextResult tag text d' := by
  obtain ⟨d₁, hloop, hstored⟩ := readText_stores hnext hstop hbyte (n := 0) hfits hahead
  rw [Nat.zero_add] at hloop
  refine ⟨_, decM_bind_of_ok hloop, rfl, rfl, rfl, rfl, fun {j b} hb => ?_⟩
  obtain ⟨hj, -⟩ := List.getElem?_eq_some_iff.mp hb
  have hread := hstored.bytes hb
  rw [Nat.zero_add] at hread
  exact (memory_read_truncate _ _ _).trans ((if_pos hj).trans hread)

/-- The tag of a value is the code of its kind's Tag symbol (R29, R80). -/
theorem tagCode_eq_symbolBits (kind : ValueKind) : tagCode kind = symbolBits tagc (kindCode kind).toNat := by
  cases kind <;> rfl

theorem kindCode_lt_tagc_length (kind : ValueKind) : (kindCode kind).toNat < tagc.length := by
  rw [tagc_length]
  cases kind <;> decide

/-- The body of DEC.VALUE on a text value that fits leaves the kept text as the result (R140). -/
theorem valueBody_stores {kind : ValueKind} (hkind : kind ≠ .int) {text : List Byte} {resMax : Nat}
    (hfits : (keptText kind text).length ≤ resMax) {d : Decoder} {rest : List Bool}
    (hahead : d.bitsAhead = textWire kind text ++ rest) :
    ∃ d', valueBody resMax d = .ok () d' ∧ TextResult (kindCode kind) (keptText kind text) d' := by
  have body {next : DecM (Option Byte)} {code : Byte → List Bool} {stop : List Bool}
      (hwire : textWire kind text = tagCode kind ++ ((keptText kind text).flatMap code ++ stop))
      (hnext : KeepsRbuf next) (hstop : DecReads stop none next)
      (hbyte : ∀ b ∈ keptText kind text, DecReads (code b) (some b) next)
      (hafter : ∀ {d₁}, codeDec tagc d = .ok (kindCode kind).toNat d₁ →
        valueBody resMax d = (readText next resMax 0 >>= setTextResult (kindCode kind)) d₁) :
      ∃ d', valueBody resMax d = .ok () d' ∧ TextResult (kindCode kind) (keptText kind text) d' := by
    rw [hwire, tagCode_eq_symbolBits, List.append_assoc, List.append_assoc] at hahead
    obtain ⟨d₁, htag, hahead₁, -⟩ := (tagc_readable.codeDec_reads (kindCode_lt_tagc_length kind)).full hahead
    exact hafter htag ▸ textBody_stores hnext hstop hbyte hfits (kindCode kind) hahead₁
  cases kind with
  | ascii =>
    exact body rfl nextAsciiByte_keepsRbuf nextAsciiByte_ends
      (fun b hb => nextAsciiByte_reads (of_decide_eq_true (List.mem_filter.mp hb).2)) decM_bind_of_ok
  | utf8 =>
    exact body rfl nextUtf8Byte_keepsRbuf nextUtf8Byte_ends (fun b _ => nextUtf8Byte_reads b) decM_bind_of_ok
  | raw =>
    exact body rfl nextRawByte_keepsRbuf nextRawByte_ends
      (fun b hb => nextRawByte_reads (of_decide_eq_true (List.mem_filter.mp hb).2)) decM_bind_of_ok
  | int => exact absurd rfl hkind

/-- DEC.VALUE on a text value that fits consumes exactly the value and leaves the kept text as the result. -/
theorem exec_decValue_text {s : State} {kind : ValueKind} {text : List Byte} {rest : List Bool}
    (herr : s.dec.err = false) (hkind : kind ≠ .int) (hfits : (keptText kind text).length ≤ s.params.resMax)
    (hahead : s.dec.bitsAhead = textWire kind text ++ rest) :
    ∃ d, exec .decValue s = .next (s.setDec d.finish) ∧ d.bitsAhead = rest ∧ Consumed (textWire kind text) s.dec d ∧
      TextResult (kindCode kind) (keptText kind text) d := by
  obtain ⟨d, hbody, hresult⟩ := valueBody_stores hkind hfits hahead
  obtain ⟨d', hbody', hrest, hconsumed⟩ := (valueBody_reads hkind hfits).full hahead
  obtain ⟨-, rfl⟩ := EStateM.Result.ok.inj (hbody.symm.trans hbody')
  exact ⟨d, by rw [exec_decValue herr, Decoder.runBody, hbody], hrest, hconsumed, hresult⟩

/-! ### Texts and the kinds that keep them (R136, R139) -/

@[simp] theorem text_length (e : Encoder) (txtMax : Nat) : (e.text txtMax).length = e.tlen.toNat := by
  simp [Encoder.text]

theorem keptText_length_le (kind : ValueKind) (t : List Byte) : (keptText kind t).length ≤ t.length := by
  cases kind with
  | ascii => exact List.length_filter_le _ t
  | utf8 => exact Nat.le_refl _
  | raw => exact List.length_filter_le _ t
  | int => exact Nat.zero_le _

theorem autoKind_ne_int (t : List Byte) : autoKind t ≠ .int := by
  unfold autoKind
  split
  · nofun
  · split <;> nofun

/-- The selector picks a kind that loses no byte: ASCII only without a high byte, RAW only without a zero byte. -/
theorem keptText_autoKind (t : List Byte) : keptText (autoKind t) t = t := by
  unfold autoKind
  split
  next hlow => exact List.filter_eq_self.mpr fun b hb => decide_eq_true (hlow b hb)
  next =>
    split
    next hzero => exact List.filter_eq_self.mpr fun b hb => decide_eq_true (hzero b hb)
    next => rfl

/-! ### Commands -/

/-- Settles O9: the wire bits of ENC.AUTO. -/
theorem encAutoPutsTheSelectedValue : Obligations.EncAutoPutsTheSelectedValue :=
  fun _ hfit herr => exec_puts_wireBits rfl nofun rfl (fun _ => hfit) herr

/-- A command that writes a text value completes, and DEC.VALUE reads the value back from wherever its bits stand. -/
theorem textCommand_roundTrip {s u : State} {i : Instr} {kind : ValueKind} (rest : List Bool)
    (hi : i = .encAscii ∨ i = .encUtf8 ∨ i = .encRaw ∨ i = .encAuto) (hkind : kind ≠ .int)
    (hwire : wireBitsOf s i = textWire kind (s.enc.text s.params.txtMax))
    (hfit : s.enc.tlen.toNat ≤ s.params.txtMax) (herr : s.enc.err = false)
    (hbase : s.enc.outBase ≤ s.enc.sink.accepted.length)
    (hsink : Sink.acceptsNext ((s.enc.nbits.toNat + (wireBitsOf s i).length) / 8) s.enc.sink)
    (hderr : u.dec.err = false) (hroom : (keptText kind (s.enc.text s.params.txtMax)).length ≤ u.params.resMax) :
    ∃ e, exec i s = .next (s.setEnc e) ∧
      (u.dec.bitsAhead = e.streamBits.drop s.enc.streamBits.length ++ rest →
        ∃ d, exec .decValue u = .next (u.setDec d) ∧ d.bitsAhead = rest ∧
          TextResult (kindCode kind) (keptText kind (s.enc.text s.params.txtMax)) d) := by
  have hcommand : i.channel = .enc ∧ i ≠ .encReset ∧ i.wellFormed = true := by
    rcases hi with rfl | rfl | rfl | rfl <;> exact ⟨rfl, nofun, rfl⟩
  obtain ⟨hchannel, hreset, hwf⟩ := hcommand
  obtain ⟨e, hexec, hstream, -⟩ :=
    encCommandsAppendTheirWireBits i s hchannel hreset hwf (fun _ => hfit) herr hbase hsink
  refine ⟨e, hexec, fun hahead => ?_⟩
  rw [hstream, List.drop_left, hwire] at hahead
  obtain ⟨d, hdec, hrest, -, hresult⟩ := exec_decValue_text hderr hkind hroom hahead
  exact ⟨d.finish, hdec, hrest, hresult.finish⟩

/-- Settles O31: each text command writes the value of its kind, and the kept text is no longer than the text. -/
theorem textCommandsRoundTrip : Obligations.TextCommandsRoundTrip := by
  intro s u i kind rest hmem hfit herr hbase hsink hwf hderr hroom
  have hpair : (i = .encAscii ∨ i = .encUtf8 ∨ i = .encRaw ∨ i = .encAuto) ∧ kind ≠ .int ∧
      wireBitsOf s i = textWire kind (s.enc.text s.params.txtMax) := by
    simp only [List.mem_cons, Prod.mk.injEq, List.not_mem_nil, or_false] at hmem
    rcases hmem with ⟨rfl, rfl⟩ | ⟨rfl, rfl⟩ | ⟨rfl, rfl⟩ <;> exact ⟨by simp, nofun, rfl⟩
  obtain ⟨hi, hkind, hwire⟩ := hpair
  have hkept : (keptText kind (s.enc.text s.params.txtMax)).length ≤ u.params.resMax :=
    (keptText_length_le kind _).trans (by rwa [text_length])
  obtain ⟨e, hexec, hback⟩ := textCommand_roundTrip rest hi hkind hwire hfit herr hbase hsink hderr hkept
  refine ⟨e, hexec, fun hahead => ?_⟩
  obtain ⟨d, hdec, hrest, hresult⟩ := hback hahead
  exact ⟨d, hdec, hresult.rvalid, hresult.rkind, hrest, hresult.rlen_toNat hwf hkept,
    fun _ _ free hb => hresult.rbufRead hwf hkept hb free⟩

/-- Settles O32: the kind ENC.AUTO selects keeps the whole text. -/
theorem autoRoundTripIsLossless : Obligations.AutoRoundTripIsLossless := by
  intro s u rest hfit herr hbase hsink hwf hderr hroom
  have hkept := keptText_autoKind (s.enc.text s.params.txtMax)
  have hlen : (s.enc.text s.params.txtMax).length ≤ u.params.resMax := by rwa [text_length]
  obtain ⟨e, hexec, hback⟩ := textCommand_roundTrip rest (.inr (.inr (.inr rfl))) (autoKind_ne_int _) rfl hfit herr
    hbase hsink hderr (by rwa [hkept])
  refine ⟨e, hexec, fun hahead => ?_⟩
  obtain ⟨d, hdec, hrest, hresult⟩ := hback hahead
  rw [hkept] at hresult
  refine ⟨d, hdec, hresult.rvalid, hrest, ?_, fun _ _ free hb => hresult.rbufRead hwf hlen hb free⟩
  rw [hresult.rlen, text_length, BitVec.ofNat_toNat, BitVec.setWidth_eq]

end Sys2Proof.Machine
end

section
/-! DEC.VALUE on every input (43_decoder.md R140 to R149): an integer under any bracket is read back as written, a text
that fits is returned whole, a text that does not fit ends with CAPACITY at its byte RES_MAX + 1, and an input that ends
inside a value ends with IO; there is no other error. -/

namespace Sys2Proof.Machine

/-! ### How DEC.VALUE ends (R147) -/

/-- Whatever RES_MAX is, the body answers or raises IO or CAPACITY: CodeDec(TAGC) has only the four tags to give. -/
theorem decEnds_valueBody_any (resMax : Nat) : DecEnds (fun _ _ => True) (valueBody resMax) := by
  have text {next : DecM (Option Byte)} (hnext : DecEnds (fun _ _ => True) next) (tag : BitVec 3) :
      DecEnds (fun _ _ => True) (readText next resMax 0 >>= setTextResult tag) :=
    decEnds_bind (decEnds_readText hnext resMax 0) fun _ _ => ⟨fun _ => trivial⟩
  refine decEnds_bind (decEnds_codeDec tagc_complete) fun tag htag => ?_
  rw [tagc_length] at htag
  interval_cases tag
  · exact text decEnds_nextAsciiByte 0
  · exact text decEnds_nextUtf8Byte 1
  · exact text decEnds_nextRawByte 2
  · exact decEnds_bind decEnds_readIntBody fun _ _ => ⟨fun _ => trivial⟩

/-- Settles O24: TAGC is complete and has four symbols, so neither branch that raises PROTO is ever taken. -/
theorem protoIsNeverRaised : Obligations.ProtoIsNeverRaised := by
  constructor
  · intro d d' v htag
    have hlt := (decEnds_codeDec tagc_complete).ends d
    simpa only [htag, tagc_length] using hlt
  · intro resMax c d d' hbody
    have hcode := (decEnds_valueBody_any resMax).ends d
    simpa only [hbody] using hcode

/-! ### What DEC.VALUE leaves alone -/

/-- d' has the BUSY, ERR, ECODE and stream start of d: what a Body leaves to the frame (R93) and to ChannelReset. -/
structure DecControlKept (d d' : Decoder) : Prop where
  running : d'.running = d.running
  err : d'.err = d.err
  ecode : d'.ecode = d.ecode
  inBase : d'.inBase = d.inBase

theorem decControlKept_refl (d : Decoder) : DecControlKept d d := ⟨rfl, rfl, rfl, rfl⟩

theorem decControlKept_trans (a b c : Decoder) (h : DecControlKept a b) (k : DecControlKept b c) :
    DecControlKept a c :=
  ⟨k.running.trans h.running, k.err.trans h.err, k.ecode.trans h.ecode, k.inBase.trans h.inBase⟩

/-- However x ends, the control registers after it are those before it. -/
structure KeepsControl {α : Type} (x : DecM α) : Prop where
  kept : DecKeeps DecControlKept x

theorem keepsControl_pure {α : Type} (a : α) : KeepsControl (pure a) := ⟨decKeeps_pure decControlKept_refl a⟩

theorem keepsControl_bind {α β : Type} {x : DecM α} {f : α → DecM β} (hx : KeepsControl x)
    (hf : ∀ a, KeepsControl (f a)) : KeepsControl (x >>= f) :=
  ⟨decKeeps_bind decControlKept_trans hx.kept fun a => (hf a).kept⟩

/-- What touches the stream registers alone keeps the control registers. -/
theorem DecKeeps.keepsControl {α : Type} {x : DecM α} (h : DecKeeps DecStreamOnly x) : KeepsControl x := by
  refine ⟨fun d => ?_⟩
  have hx := h d
  cases hxd : x d with
  | ok a d' =>
    simp only [hxd] at hx ⊢
    exact ⟨hx.running, hx.err, hx.ecode, hx.inBase⟩
  | error c d' =>
    simp only [hxd] at hx ⊢
    exact ⟨hx.running, hx.err, hx.ecode, hx.inBase⟩

theorem keepsControl_getBit : KeepsControl getBit := DecKeeps.keepsControl getBit_streamOnly

theorem keepsControl_getBits (n : Nat) : KeepsControl (getBits n) := DecKeeps.keepsControl (getBits_streamOnly n)

theorem keepsControl_codeDec (t : CodeTable) : KeepsControl (codeDec t) := DecKeeps.keepsControl (codeDec_streamOnly t)

/-- A text body, its loop and its result, when the step it repeats keeps the control registers. -/
theorem keepsControl_textBody {next : DecM (Option Byte)} (hnext : KeepsControl next) (resMax : Nat)
    (tag : BitVec 3) : KeepsControl (readText next resMax 0 >>= setTextResult tag) :=
  keepsControl_bind
    ⟨decKeeps_readText decControlKept_refl decControlKept_trans hnext.kept (fun _ _ _ => ⟨rfl, rfl, rfl, rfl⟩) resMax 0⟩
    fun _ => ⟨fun _ => ⟨rfl, rfl, rfl, rfl⟩⟩

theorem keepsControl_readIntBody : KeepsControl readIntBody := by
  have choice (x y : DecM Word) (hx : KeepsControl x) (hy : KeepsControl y) :
      KeepsControl (do if !(← getBit) then x else y) :=
    keepsControl_bind keepsControl_getBit fun b => by cases b <;> assumption
  exact choice _ _ (keepsControl_getBits 4) <| choice _ _ (keepsControl_getBits 8) <|
    choice _ _ (keepsControl_getBits 16) (keepsControl_getBits 32)

theorem keepsControl_valueBody (resMax : Nat) : KeepsControl (valueBody resMax) := by
  have coded (t : CodeTable) (stop : Nat) : KeepsControl (nextCodedByte t stop) :=
    keepsControl_bind (keepsControl_codeDec t) fun _ => keepsControl_pure _
  have raw : KeepsControl nextRawByte := keepsControl_bind (keepsControl_getBits 8) fun _ => keepsControl_pure _
  refine keepsControl_bind (keepsControl_codeDec tagc) fun tag => ?_
  split
  · exact keepsControl_textBody (nextAsciiByte_eq ▸ coded ascc 128) resMax 0
  split
  · exact keepsControl_textBody (nextUtf8Byte_eq ▸ coded fbc 256) resMax 1
  split
  · exact keepsControl_textBody raw resMax 2
  split
  · exact keepsControl_bind keepsControl_readIntBody fun _ => ⟨fun _ => ⟨rfl, rfl, rfl, rfl⟩⟩
  · exact ⟨decKeeps_throw decControlKept_refl _⟩

/-! ### The frame around the Body (R93) -/

theorem exec_decValue_of_ok {s : State} {d : Decoder} (herr : s.dec.err = false)
    (hbody : valueBody s.params.resMax s.dec = .ok () d) : exec .decValue s = .next (s.setDec d.finish) := by
  rw [exec_decValue herr, Decoder.runBody, hbody]

theorem exec_decValue_of_error {s : State} {c : ErrorCode} {d : Decoder} (herr : s.dec.err = false)
    (hbody : valueBody s.params.resMax s.dec = .error c d) :
    exec .decValue s = .next (s.setDec (d.raise c).finish) := by
  rw [exec_decValue herr, Decoder.runBody, hbody]

theorem dec_eq_of_setDec {s : State} {d d' : Decoder} {o : StepOutcome} (h : o = .next (s.setDec d))
    (h' : o = .next (s.setDec d')) : d' = d :=
  congrArg State.dec (Host.Outcome.next.inj (h'.symm.trans h))

/-- A raise clears the result, so a DEC.VALUE that leaves one raised nothing and kept the control registers. -/
theorem exec_decValue_of_rvalid {s : State} {d : Decoder} (herr : s.dec.err = false)
    (hexec : exec .decValue s = .next (s.setDec d)) (hvalid : d.rvalid = true) :
    d.running = none ∧ d.err = false ∧ d.ecode = s.dec.ecode ∧ d.inBase = s.dec.inBase := by
  have hkept := (keepsControl_valueBody s.params.resMax).kept s.dec
  cases hbody : valueBody s.params.resMax s.dec with
  | ok _ d₁ =>
    obtain rfl := dec_eq_of_setDec (exec_decValue_of_ok herr hbody) hexec
    simp only [hbody] at hkept
    exact ⟨rfl, hkept.err.trans herr, hkept.ecode, hkept.inBase⟩
  | error c d₁ =>
    obtain rfl := dec_eq_of_setDec (exec_decValue_of_error herr hbody) hexec
    cases hvalid

/-- Settles O21: the value is read to its end, and it leaves a result. -/
theorem decValueReadsAText : Obligations.DecValueReadsAText := by
  intro s kind text rest hwf herr hkind hfits hahead
  obtain ⟨d, hexec, hrest, hconsumed, hresult⟩ := exec_decValue_text herr hkind hfits hahead
  obtain ⟨hidle, hno, hecode, hbase⟩ := exec_decValue_of_rvalid herr hexec hresult.rvalid
  exact ⟨d.finish, hexec, hidle, hno, hecode, hresult.rvalid, hresult.rkind, hresult.rlen_toNat hwf hfits,
    hresult.rint, fun _ _ free hb => hresult.rbufRead hwf hfits hb free, hrest, hconsumed.bitcnt, hbase⟩

/-! ### Integers (R145) -/

/-- ReadIntBody reads the bracket bits one by one, and the payload after them. -/
theorem readIntBody_reads {form : List Bool × Nat} {payload : List Bool} (hform : form ∈ intForms)
    (hlen : payload.length = form.2) :
    DecReads (form.1 ++ payload) (BitVec.ofNat 32 (valueOf payload)) readIntBody := by
  have bracket (b : Bool) {x y : DecM Word} {bs : List Bool} {v : Word} (h : DecReads bs v (if !b then x else y)) :
      DecReads (b :: bs) v (do if !(← getBit) then x else y) :=
    decReads_bind (decReads_getBit b) h
  simp only [intForms, List.mem_cons, List.not_mem_nil, or_false] at hform
  rcases hform with rfl | rfl | rfl | rfl
  · exact bracket false (decReads_getBits hlen)
  · exact bracket true (bracket false (decReads_getBits hlen))
  · exact bracket true (bracket true (bracket false (decReads_getBits hlen)))
  · exact bracket true (bracket true (bracket true (decReads_getBits hlen)))

theorem setIntResult_reads (v : Word) : DecReads [] () (setIntResult v) :=
  decReads_nil fun d => ⟨_, rfl, rfl, { consumed_nil d with }⟩

theorem codeDec_tagc_reads (kind : ValueKind) : DecReads (tagCode kind) (kindCode kind).toNat (codeDec tagc) :=
  tagCode_eq_symbolBits kind ▸ tagc_readable.codeDec_reads (kindCode_lt_tagc_length kind)

/-- The body of DEC.VALUE reads an integer value of any of the four forms. -/
theorem valueBody_reads_int {form : List Bool × Nat} {payload : List Bool} (resMax : Nat) (hform : form ∈ intForms)
    (hlen : payload.length = form.2) : DecReads (tagCode .int ++ (form.1 ++ payload)) () (valueBody resMax) :=
  decReads_bind (codeDec_tagc_reads .int)
    (decReads_bind_nil (readIntBody_reads hform hlen) (setIntResult_reads _))

/-- Settles O57: the Body reads the whole value, so an input that ends inside it raises IO before any result. -/
theorem decValueOnShortIntegerRaisesIo : Obligations.DecValueOnShortIntegerRaisesIo := by
  intro s form payload missing herr hform hlen hmissing hahead hfails
  rw [List.append_assoc] at hahead
  obtain ⟨d, hbody, hn, hcnt⟩ := (valueBody_reads_int s.params.resMax hform hlen).short hmissing hahead hfails
  exact ⟨_, exec_decValue_of_error herr hbody, rfl, rfl, rfl, rfl, rfl, rfl, rfl, rfl, hn, hcnt⟩

/-- The result registers of DEC hold an integer (R146). -/
structure IntResult (v : Word) (d : Decoder) : Prop where
  rvalid : d.rvalid = true
  rkind : d.rkind = 3
  rlen : d.rlen = 0
  rint : d.rint = v

/-- DEC.VALUE on an integer value consumes exactly the value and leaves the payload as the result. -/
theorem exec_decValue_int {s : State} {form : List Bool × Nat} {payload rest : List Bool} (herr : s.dec.err = false)
    (hform : form ∈ intForms) (hlen : payload.length = form.2)
    (hahead : s.dec.bitsAhead = tagCode .int ++ (form.1 ++ payload) ++ rest) :
    ∃ d, exec .decValue s = .next (s.setDec d) ∧ d.bitsAhead = rest ∧
      Consumed (tagCode .int ++ (form.1 ++ payload)) s.dec d ∧ IntResult (BitVec.ofNat 32 (valueOf payload)) d := by
  rw [List.append_assoc] at hahead
  obtain ⟨d₁, htag, hahead₁, hc₁⟩ := (codeDec_tagc_reads .int).full hahead
  obtain ⟨d₂, hint, hrest, hc₂⟩ := (readIntBody_reads hform hlen).full hahead₁
  have hbody : valueBody s.params.resMax s.dec = setIntResult (BitVec.ofNat 32 (valueOf payload)) d₂ :=
    (decM_bind_of_ok htag).trans (decM_bind_of_ok hint)
  exact ⟨_, exec_decValue_of_ok herr hbody, hrest, { hc₁.trans hc₂ with }, ⟨rfl, rfl, rfl, rfl⟩⟩

/-- Settles O20: the value is read to its end, and it leaves a result. -/
theorem decValueReadsAnInteger : Obligations.DecValueReadsAnInteger := by
  intro s form payload rest herr hform hlen hahead
  rw [List.append_assoc (tagCode .int)] at hahead
  obtain ⟨d, hexec, hrest, hconsumed, hresult⟩ := exec_decValue_int herr hform hlen hahead
  obtain ⟨hidle, hno, hecode, hbase⟩ := exec_decValue_of_rvalid herr hexec hresult.rvalid
  have hbits : (tagCode .int ++ (form.1 ++ payload)).length = 3 + form.1.length + form.2 := by
    rw [List.length_append, List.length_append, hlen, Nat.add_assoc]
    rfl
  exact ⟨d, hexec, hidle, hno, hecode, hresult.rvalid, hresult.rkind, hresult.rlen, hresult.rint, hrest,
    hbits ▸ hconsumed.bitcnt, hbase⟩

/-- An integer is written in one of the forms a decoder accepts. -/
theorem intForm_mem (v : Word) : (bracketBits v, payloadWidth v) ∈ intForms := by
  unfold bracketBits payloadWidth
  split
  · simp [intForms]
  split
  · simp [intForms]
  split <;> simp [intForms]

/-- The payload is wide enough for the integer (R84). -/
theorem toNat_lt_payloadWidth (v : Word) : v.toNat < 2 ^ payloadWidth v := by
  unfold payloadWidth
  split
  · assumption
  split
  · assumption
  split
  · assumption
  · exact v.isLt

theorem ofNat_valueOf_payload (v : Word) : BitVec.ofNat 32 (valueOf (bitsOf (payloadWidth v) v)) = v := by
  rw [valueOf_bitsOf, Nat.mod_eq_of_lt (toNat_lt_payloadWidth v), BitVec.ofNat_toNat, BitVec.setWidth_eq]

/-- Settles O33: ENC.SYM appends the integer value of ARG, and DEC.VALUE reads it from wherever its bits stand. -/
theorem integerRoundTrip : Obligations.IntegerRoundTrip := by
  intro s u rest herr hbase hsink hderr
  obtain ⟨e, hexec, hstream, -⟩ := encCommandsAppendTheirWireBits .encSym s rfl nofun rfl (by simp) herr hbase hsink
  refine ⟨e, hexec, fun hahead => ?_⟩
  rw [hstream, List.drop_left] at hahead
  obtain ⟨d, hdec, hrest, -, hresult⟩ := exec_decValue_int hderr (intForm_mem s.enc.arg) (by simp) hahead
  exact ⟨d, hdec, hresult.rvalid, hresult.rkind, hresult.rint.trans (ofNat_valueOf_payload s.enc.arg), hrest⟩

/-! ### Texts that do not fit (R141) -/

/-- The step `next` reads a text of the kind byte by byte: `code` gives a byte's bits, `stop` the terminator's, and the
body of DEC.VALUE is the loop over `next` once the kind's tag is read. -/
structure TextReader (kind : ValueKind) (next : DecM (Option Byte)) (code : Byte → List Bool) (stop : List Bool) :
    Prop where
  wire : ∀ text, textWire kind text = tagCode kind ++ ((keptText kind text).flatMap code ++ stop)
  symbols : ∀ text, textSymbolBits kind text = text.flatMap code
  byte : ∀ {text b}, b ∈ keptText kind text → DecReads (code b) (some b) next
  body : ∀ {resMax d d'}, codeDec tagc d = .ok (kindCode kind).toNat d' →
    valueBody resMax d = (readText next resMax 0 >>= setTextResult (kindCode kind)) d'

theorem textReader_of_ne_int {kind : ValueKind} (hkind : kind ≠ .int) :
    ∃ next code stop, TextReader kind next code stop :=
  match kind with
  | .ascii => ⟨nextAsciiByte, _, _, fun _ => rfl, fun _ => rfl,
      fun hb => nextAsciiByte_reads (of_decide_eq_true (List.mem_filter.mp hb).2), decM_bind_of_ok⟩
  | .utf8 => ⟨nextUtf8Byte, _, _, fun _ => rfl, fun _ => rfl, fun _ => nextUtf8Byte_reads _, decM_bind_of_ok⟩
  | .raw => ⟨nextRawByte, _, _, fun _ => rfl, fun _ => rfl,
      fun hb => nextRawByte_reads (of_decide_eq_true (List.mem_filter.mp hb).2), decM_bind_of_ok⟩
  | .int => absurd rfl hkind

/-- The loop of the text bodies raises CAPACITY on the byte after the room, with that byte read. -/
theorem readText_overflows {next : DecM (Option Byte)} {code : Byte → List Bool} {text : List Byte}
    (hbyte : ∀ b ∈ text, DecReads (code b) (some b) next) {room n : Nat} (hroom : text.length = room + 1) {d : Decoder}
    {rest : List Bool} (hahead : d.bitsAhead = text.flatMap code ++ rest) :
    ∃ d', readText next room n d = .error .capacity d' ∧ d'.bitsAhead = rest := by
  induction text generalizing room n d with
  | nil => simp at hroom
  | cons b text ih =>
    obtain ⟨hb, htext⟩ := List.forall_mem_cons.mp hbyte
    rw [List.flatMap_cons, List.append_assoc] at hahead
    obtain ⟨d₁, hread, hahead₁, -⟩ := hb.full hahead
    cases room with
    | zero =>
      obtain rfl : text = [] := List.length_eq_zero_iff.mp (Nat.succ.inj hroom)
      exact ⟨d₁, decM_bind_of_ok hread, hahead₁⟩
    | succ room =>
      obtain ⟨d', hloop, hrest⟩ := ih (n := n + 1) (d := { d₁ with rbuf := d₁.rbuf.write n b }) htext
        (Nat.succ.inj hroom) hahead₁
      exact ⟨d', (decM_bind_of_ok hread).trans hloop, hrest⟩

/-- The body of DEC.VALUE on a text value that does not fit raises CAPACITY behind the byte RES_MAX + 1. -/
theorem valueBody_overflows {kind : ValueKind} (hkind : kind ≠ .int) {text : List Byte} {resMax : Nat}
    (hlong : resMax < (keptText kind text).length) {d : Decoder} {rest : List Bool}
    (hahead : d.bitsAhead = textWire kind text ++ rest) :
    ∃ d', valueBody resMax d = .error .capacity d' ∧ d'.bitsAhead = d.bitsAhead.drop
      (tagCode kind ++ textSymbolBits kind ((keptText kind text).take (resMax + 1))).length := by
  obtain ⟨next, code, stop, reader⟩ := textReader_of_ne_int hkind
  have hsplit : d.bitsAhead = tagCode kind ++ (((keptText kind text).take (resMax + 1)).flatMap code ++
      (((keptText kind text).drop (resMax + 1)).flatMap code ++ (stop ++ rest))) := by
    rw [hahead, reader.wire, ← List.append_assoc (List.flatMap _ (List.take _ _)), ← List.flatMap_append,
      List.take_append_drop, List.append_assoc, List.append_assoc]
  obtain ⟨d₁, htag, hahead₁, -⟩ := (codeDec_tagc_reads kind).full hsplit
  obtain ⟨d', hloop, hrest⟩ := readText_overflows (n := 0)
    (fun b hb => reader.byte (List.mem_of_mem_take hb)) (List.length_take_of_le hlong) hahead₁
  refine ⟨d', (reader.body htag).trans (decM_bind_of_error hloop), ?_⟩
  rw [hrest, hsplit, reader.symbols, ← List.append_assoc (tagCode kind), List.drop_left]

/-- Settles O22: the Body ends with CAPACITY behind the byte that does not fit. -/
theorem decValueTooLongRaisesCapacity : Obligations.DecValueTooLongRaisesCapacity := by
  intro s kind text rest herr hkind hlong hahead
  obtain ⟨d, hbody, hrest⟩ := valueBody_overflows hkind hlong hahead
  rw [List.length_append] at hrest
  exact ⟨_, exec_decValue_of_error herr hbody, rfl, rfl, rfl, rfl, rfl, rfl, rfl, rfl, hrest⟩

end Sys2Proof.Machine
end

section
/-! A command abandoned in the middle (60_exceptions.md R154, 70_reset_and_hazards.md R165, R167): what a run does to
SINK or SOURCE is a sequence of exchanges, so its first k of them are a point on the way, and block reset leaves that
point. -/

namespace Sys2Proof.Machine

/-! ### Exchanges at one end of a stream -/

/-- What SINK and SOURCE have in common: the answers to come, the requests made, the bytes exchanged (R5). -/
structure Exchanges (α : Type) where
  script : List α
  asked : Nat
  bytes : List Byte

def Sink.exchanges (s : Sink) : Exchanges PushAnswer := ⟨s.script, s.asked, s.accepted⟩

def Source.exchanges (s : Source) : Exchanges PullAnswer := ⟨s.script, s.asked, s.pulled⟩

theorem sinkExchanges_injective : Function.Injective Sink.exchanges
  | ⟨_, _, _⟩, ⟨_, _, _⟩, rfl => rfl

theorem sourceExchanges_injective : Function.Injective Source.exchanges
  | ⟨_, _, _⟩, ⟨_, _, _⟩, rfl => rfl

namespace Exchanges

variable {α : Type}

/-- Some requests lead from s to t: each uses up an answer and adds at most one byte. -/
structure Leads (s t : Exchanges α) : Prop where
  asked : s.asked ≤ t.asked
  script : t.script = s.script.drop (t.asked - s.asked)
  bytes : s.bytes <+: t.bytes
  atMost : t.bytes.length ≤ s.bytes.length + (t.asked - s.asked)

theorem leads_refl (s : Exchanges α) : Leads s s where
  asked := Nat.le_refl _
  script := by rw [Nat.sub_self, List.drop_zero]
  bytes := List.prefix_refl _
  atMost := Nat.le_add_right _ _

theorem leads_trans {s t u : Exchanges α} (h : Leads s t) (k : Leads t u) : Leads s u := by
  have hasked : t.asked - s.asked + (u.asked - t.asked) = u.asked - s.asked := by
    have := h.asked
    have := k.asked
    omega
  exact {
    asked := h.asked.trans k.asked
    script := by rw [k.script, h.script, List.drop_drop, hasked]
    bytes := h.bytes.trans k.bytes
    atMost := by have := h.atMost; have := k.atMost; omega }

/-- After only the first k of the requests that lead from s to t: `Sink.cut` and `Source.cut`, said once. -/
def cut (s t : Exchanges α) (k : Nat) : Exchanges α where
  script := s.script.drop (min k (t.asked - s.asked))
  asked := s.asked + min k (t.asked - s.asked)
  bytes := t.bytes.take (s.bytes.length + k)

theorem cut_zero {s t : Exchanges α} (h : Leads s t) : s.cut t 0 = s := by
  have hbytes : t.bytes.take s.bytes.length = s.bytes := (List.prefix_iff_eq_take.mp h.bytes).symm
  simp only [cut, Nat.zero_min, List.drop_zero, Nat.add_zero, hbytes]

theorem cut_of_asked_le {s t : Exchanges α} (h : Leads s t) {k : Nat} (hk : t.asked ≤ s.asked + k) :
    s.cut t k = t := by
  have hall : min k (t.asked - s.asked) = t.asked - s.asked := by omega
  have hbytes : t.bytes.take (s.bytes.length + k) = t.bytes :=
    List.take_of_length_le (by have := h.atMost; omega)
  simp only [cut, hall, hbytes, ← h.script, Nat.add_sub_cancel' h.asked]

end Exchanges

open Exchanges

theorem sinkCut_exchanges (s t : Sink) (k : Nat) : (s.cut t k).exchanges = s.exchanges.cut t.exchanges k := rfl

theorem sourceCut_exchanges (s t : Source) (k : Nat) : (s.cut t k).exchanges = s.exchanges.cut t.exchanges k := rfl

theorem sinkCut_zero {s t : Sink} (h : Leads s.exchanges t.exchanges) : s.cut t 0 = s :=
  sinkExchanges_injective ((sinkCut_exchanges s t 0).trans (cut_zero h))

theorem sourceCut_zero {s t : Source} (h : Leads s.exchanges t.exchanges) : s.cut t 0 = s :=
  sourceExchanges_injective ((sourceCut_exchanges s t 0).trans (cut_zero h))

theorem sinkCut_of_asked_le {s t : Sink} (h : Leads s.exchanges t.exchanges) {k : Nat}
    (hk : t.asked ≤ s.asked + k) : s.cut t k = t :=
  sinkExchanges_injective ((sinkCut_exchanges s t k).trans (cut_of_asked_le h hk))

theorem sourceCut_of_asked_le {s t : Source} (h : Leads s.exchanges t.exchanges) {k : Nat}
    (hk : t.asked ≤ s.asked + k) : s.cut t k = t :=
  sourceExchanges_injective ((sourceCut_exchanges s t k).trans (cut_of_asked_le h hk))

/-- A Push is one request, accepted or refused (R95). -/
theorem push_leads (s : Sink) (b : Byte) : Leads s.exchanges (s.push b).exchanges where
  asked := Nat.le_succ _
  script := by simp [Sink.exchanges]
  bytes := push_prefix s b
  atMost := by
    cases ha : s.answer
    · simp [Sink.exchanges, push_accepted_ok s b ha]
    · simp [Sink.exchanges, push_accepted_fail s b ha]

/-- A Pull is one request, answered or failed (R98). -/
theorem pull_leads (s : Source) : Leads s.exchanges s.pull.exchanges where
  asked := Nat.le_succ _
  script := by simp [Source.exchanges]
  bytes := pull_prefix s
  atMost := by
    cases ha : s.answer with
    | data b => simp [Source.exchanges, pull_pulled_data s b ha]
    | fail => simp [Source.exchanges, pull_pulled_fail s ha]

/-! ### One run of ENC -/

/-- ENC's requests lead from SINK in e to SINK in e'. -/
def SinkLeads (e e' : Encoder) : Prop := Leads e.sink.exchanges e'.sink.exchanges

theorem putBit_sinkLeads (b : Bool) : EncKeeps SinkLeads (putBit b) := by
  intro e
  rcases putBit_cases b e with ⟨-, h⟩ | ⟨-, -, h⟩ | ⟨-, -, h⟩ <;> simp only [h]
  · exact leads_refl _
  · exact push_leads _ _
  · exact push_leads _ _

theorem putBitString_sinkLeads (bs : List Bool) : EncKeeps SinkLeads (putBitString bs) :=
  encKeeps_putBitString (R := SinkLeads) (fun _ => leads_refl _) (fun _ _ _ => leads_trans) putBit_sinkLeads bs

theorem EncRun.sinkLeads {w : Word} {e e' : Encoder} (h : EncRun w e e') : SinkLeads e e' := by
  cases h with
  | reset hw => exact leads_refl _
  | illegal => rcases encIllegal_cases e with ⟨-, h⟩ | ⟨-, h⟩ <;> rw [h] <;> exact leads_refl _
  | inert herr => exact leads_refl _
  | done herr bs e' hput =>
    have hleads : SinkLeads e e' := by simpa only [hput] using putBitString_sinkLeads bs e
    exact hleads
  | raised herr bs c e' hput =>
    have hleads : SinkLeads e e' := by simpa only [hput] using putBitString_sinkLeads bs e
    exact hleads

theorem runEncoder_sinkLeads {s t : State} (h : s.runEncoder = .next t) : SinkLeads s.enc t.enc := by
  rcases runEncoder_cases s with ⟨-, hrun⟩ | ⟨w, e', -, he, hrun⟩ <;>
    obtain rfl := Host.Outcome.next.inj (h.symm.trans hrun)
  · exact leads_refl _
  · exact he.sinkLeads

/-! ### One run of DEC -/

/-- R is kept by everything a DEC Body is made of: sequencing, GetBit, and writes of the result registers. -/
structure KeptByDecParts (R : Decoder → Decoder → Prop) : Prop where
  refl : ∀ d, R d d
  trans : ∀ a b c, R a b → R b c → R a c
  getBit : DecKeeps R getBit
  result : ∀ (d : Decoder) (valid : Bool) (kind : BitVec 3) (len : BitVec 15) (v : Word) (m : Memory),
    R d { d with rvalid := valid, rkind := kind, rlen := len, rint := v, rbuf := m }

/-- `DecKeeps R x`, sealed: the pieces of a Body are compared by name and not by what they do to a channel. -/
structure KeepsThrough {α : Type} (R : Decoder → Decoder → Prop) (x : DecM α) : Prop where
  keeps : DecKeeps R x

section
variable {R : Decoder → Decoder → Prop}

theorem KeptByDecParts.pure (h : KeptByDecParts R) {α : Type} (a : α) : KeepsThrough R (pure a) :=
  ⟨decKeeps_pure h.refl a⟩

theorem KeptByDecParts.bind (h : KeptByDecParts R) {α β : Type} {x : DecM α} {f : α → DecM β}
    (hx : KeepsThrough R x) (hf : ∀ a, KeepsThrough R (f a)) : KeepsThrough R (x >>= f) :=
  ⟨decKeeps_bind h.trans hx.keeps fun a => (hf a).keeps⟩

theorem KeptByDecParts.getBits (h : KeptByDecParts R) (n : Nat) : KeepsThrough R (getBits n) :=
  ⟨decKeeps_getBitsFrom h.refl h.trans h.getBit n 0⟩

theorem KeptByDecParts.codeDec (h : KeptByDecParts R) (t : CodeTable) : KeepsThrough R (codeDec t) :=
  ⟨decKeeps_codeDecFrom h.refl h.trans h.getBit t _ _ _⟩

theorem KeptByDecParts.getBitsBody (h : KeptByDecParts R) (n : Nat) : KeepsThrough R (getBitsBody n) :=
  h.bind (h.getBits n) fun _ => ⟨fun d => h.result d _ _ _ _ _⟩

theorem KeptByDecParts.readIntBody (h : KeptByDecParts R) : KeepsThrough R readIntBody := by
  have choice (x y : DecM Word) (hx : KeepsThrough R x) (hy : KeepsThrough R y) :
      KeepsThrough R (do if !(← Machine.getBit) then x else y) :=
    h.bind ⟨h.getBit⟩ fun b => by cases b <;> assumption
  exact choice _ _ (h.getBits 4) <| choice _ _ (h.getBits 8) <| choice _ _ (h.getBits 16) (h.getBits 32)

theorem KeptByDecParts.textBody (h : KeptByDecParts R) {next : DecM (Option Byte)} (hnext : KeepsThrough R next)
    (resMax : Nat) (tag : BitVec 3) : KeepsThrough R (readText next resMax 0 >>= setTextResult tag) :=
  h.bind ⟨decKeeps_readText h.refl h.trans hnext.keeps (fun _ _ d => h.result d _ _ _ _ _) resMax 0⟩
    fun _ => ⟨fun d => h.result d _ _ _ _ _⟩

theorem KeptByDecParts.valueBody (h : KeptByDecParts R) (resMax : Nat) : KeepsThrough R (valueBody resMax) := by
  refine h.bind (h.codeDec tagc) fun tag => ?_
  split
  · exact h.textBody (h.bind (h.codeDec ascc) fun _ => h.pure _) resMax 0
  split
  · exact h.textBody (h.bind (h.codeDec fbc) fun _ => h.pure _) resMax 1
  split
  · exact h.textBody (h.bind (h.getBits 8) fun _ => h.pure _) resMax 2
  split
  · exact h.bind h.readIntBody fun _ => ⟨fun d => h.result d _ _ _ _ _⟩
  · exact ⟨decKeeps_throw h.refl _⟩

end

/-- DEC's requests lead from SOURCE in d to SOURCE in d'. -/
def SourceLeads (d d' : Decoder) : Prop := Leads d.source.exchanges d'.source.exchanges

theorem getBit_sourceLeads : DecKeeps SourceLeads getBit := by
  intro d
  rcases getBit_cases d with ⟨-, h⟩ | ⟨-, b, -, h⟩ | ⟨-, -, h⟩ <;> simp only [h]
  · exact leads_refl _
  · exact pull_leads _
  · exact pull_leads _

theorem sourceLeads_kept : KeptByDecParts SourceLeads where
  refl _ := leads_refl _
  trans _ _ _ := leads_trans
  getBit := getBit_sourceLeads
  result _ _ _ _ _ _ := leads_refl _

theorem decIllegal_sourceLeads (d : Decoder) : SourceLeads d d.illegal := by
  rw [SourceLeads, decIllegal_source]
  exact leads_refl _

theorem decFrame_sourceLeads (legal : Bool) {body : DecM Unit} (hb : DecKeeps SourceLeads body) (d : Decoder) :
    SourceLeads d (decFrame legal body d) := by
  have hd := hb d
  rcases decFrame_cases legal body d with ⟨-, h⟩ | ⟨-, -, h⟩ | ⟨-, -, d', ho, h⟩ | ⟨-, -, c, d', ho, h⟩ <;> rw [h]
  · exact decIllegal_sourceLeads d
  · exact leads_refl _
  · simp only [ho] at hd
    exact hd
  · simp only [ho] at hd
    exact hd

theorem decEffect_sourceLeads (p : Params) (d : Decoder) :
    ∀ i : Instr, i.channel = .dec → SourceLeads d (decEffect p d i)
  | .decValue, _ => decFrame_sourceLeads true (sourceLeads_kept.valueBody _).keeps d
  | .decGetbits _, _ => decFrame_sourceLeads _ (sourceLeads_kept.getBitsBody _).keeps d
  | .decAlign, _ => decFrame_sourceLeads true (fun _ => leads_refl _) d
  | .decReset, _ => leads_refl _

/-! ### A channel's turn depends on that channel alone -/

/-- What ENC's turn makes of ENC; `runEncoder_eq` ties it to the turn. -/
def encTurnEffect (p : Params) (e : Encoder) : Encoder :=
  match e.running with
  | none => e
  | some w =>
    match decode .enc w with
    | .ok i => encEffect p e i
    | .error _ => encIllegalFrame e

/-- What DEC's turn makes of DEC; `runDecoder_eq` ties it to the turn. -/
def decTurnEffect (p : Params) (d : Decoder) : Decoder :=
  match d.running with
  | none => d
  | some w =>
    match decode .dec w with
    | .ok i => decEffect p d i
    | .error _ => decIllegalFrame d

theorem runEncoder_eq (s : State) : s.runEncoder = .next (s.setEnc (encTurnEffect s.params s.enc)) := by
  unfold State.runEncoder encTurnEffect
  cases s.enc.running with
  | none => rfl
  | some w =>
    cases hd : decode .enc w with
    | error x => simp only [hd]
    | ok i => simp only [hd, exec_eq_setEnc s i (encode_of_decode hd).1]

theorem runDecoder_eq (s : State) : s.runDecoder = .next (s.setDec (decTurnEffect s.params s.dec)) := by
  unfold State.runDecoder decTurnEffect
  cases s.dec.running with
  | none => rfl
  | some w =>
    cases hd : decode .dec w with
    | error x => simp only [hd]
    | ok i => simp only [hd, exec_eq_setDec s i (encode_of_decode hd).1]

theorem decTurnEffect_sourceLeads (p : Params) (d : Decoder) : SourceLeads d (decTurnEffect p d) := by
  unfold decTurnEffect
  cases d.running with
  | none => exact leads_refl _
  | some w =>
    cases hd : decode .dec w with
    | error x =>
      simp only [hd]
      exact decIllegal_sourceLeads d
    | ok i =>
      simp only [hd]
      exact decEffect_sourceLeads p d i (encode_of_decode hd).1

theorem runDecoder_sourceLeads {s t : State} (h : s.runDecoder = .next t) : SourceLeads s.dec t.dec := by
  obtain rfl := Host.Outcome.next.inj (h.symm.trans (runDecoder_eq s))
  exact decTurnEffect_sourceLeads s.params s.dec

/-! ### The abandoned command (R167) -/

theorem abandonedSink_eq_cut {s t : State} (h : s.runEncoder = .next t) (k : Nat) :
    s.abandonedSink k = s.enc.sink.cut t.enc.sink k := by
  simp only [State.abandonedSink, h]

theorem abandonedSource_eq_cut {s t : State} (h : s.runDecoder = .next t) (k : Nat) :
    s.abandonedSource k = s.dec.source.cut t.dec.source k := by
  simp only [State.abandonedSource, h]

/-- The bytes an abandoned ENC command has exchanged depend on ENC and the parameters alone (R163). -/
theorem abandonedSink_congr {s t : State} (hp : t.params = s.params) (he : t.enc = s.enc) (k : Nat) :
    t.abandonedSink k = s.abandonedSink k := by
  simp only [abandonedSink_eq_cut (runEncoder_eq _), hp, he, setEnc_enc]

/-- The bytes an abandoned DEC command has exchanged depend on DEC and the parameters alone (R163). -/
theorem abandonedSource_congr {s t : State} (hp : t.params = s.params) (hd : t.dec = s.dec) (k : Nat) :
    t.abandonedSource k = s.abandonedSource k := by
  simp only [abandonedSource_eq_cut (runDecoder_eq _), hp, hd, setDec_dec]

/-- Block reset leaves SINK and SOURCE where the abandoned commands left them, whatever reads race with it. -/
theorem blockReset_leaves_abandoned (s : State) (p q : Nat) (race : Bool) :
    (s.blockReset p q race).enc.sink = s.abandonedSink p ∧
      (s.blockReset p q race).dec.source = s.abandonedSource q := by
  cases race
  · exact ⟨rfl, rfl⟩
  · have hsame := answerRacing_sameBlock s
    exact ⟨abandonedSink_congr hsame.params hsame.enc p, abandonedSource_congr hsame.params hsame.dec q⟩

/-- Settles O52: a run is a sequence of requests, and the abandoned command's SINK or SOURCE is cut from it. -/
theorem abandonedCommandKeepsItsFirstExchanges : Obligations.AbandonedCommandKeepsItsFirstExchanges := by
  refine ⟨fun s t k h => ?_, fun s t k h => ?_, fun s u p q r rest hs hu => ?_⟩
  · have hleads := runEncoder_sinkLeads h
    refine ⟨abandonedSink_keeps s k, ?_⟩
    rw [abandonedSink_eq_cut h]
    exact ⟨rfl, rfl, fun hk => hk ▸ sinkCut_zero hleads, sinkCut_of_asked_le hleads⟩
  · have hleads := runDecoder_sourceLeads h
    refine ⟨abandonedSource_keeps s k, ?_⟩
    rw [abandonedSource_eq_cut h]
    exact ⟨rfl, rfl, fun hk => hk ▸ sourceCut_zero hleads, sourceCut_of_asked_le hleads⟩
  · simp only [step, State.advance, hs, State.takeTurn] at hu
    obtain rfl := Host.Outcome.next.inj hu
    rw [← abandonedSink_congr (s := s) (t := { s with schedule := rest }) rfl rfl p,
      ← abandonedSource_congr (s := s) (t := { s with schedule := rest }) rfl rfl q]
    exact blockReset_leaves_abandoned { s with schedule := rest } p q r

end Sys2Proof.Machine
end
